-- ==== Sys2Proof/Word.lean ====
section
/-! DEFINITION. The engine's words: a byte, a byte string, a 32-bit register word, a 16-bit window
address (spec/00_scope.md R15, spec/20_memory.md R80), and the plainest arithmetic on them. -/

namespace Sys2Proof

/-- A byte, an integer in 0..255 (00_scope.md R15). -/
abbrev Byte := BitVec 8

/-- A byte string; its first byte is `s[0]` (00_scope.md R15). -/
abbrev Bytes := List Byte

/-- A 32-bit register word (00_scope.md R17). -/
abbrev Word := BitVec 32

/-- A byte address of the host window, 16 bits (20_memory.md R80). -/
abbrev Addr := BitVec 16

/-- `zeros(k)`: `k` bytes of 0x00 (00_scope.md R15). -/
def zeros (k : Nat) : Bytes := List.replicate k 0#8

/-- `⌈a / b⌉`, for `b ≥ 1` (00_scope.md R16); 0 for `b = 0`, which never arises (log 26). -/
def ceilDiv (a b : Nat) : Nat := (a + b - 1) / b

end Sys2Proof
end

