-- ==== Sys2Proof/Config.lean ====
section
/-! DEFINITION. What one build of the engine fixes (spec/00_scope.md R7 to R11), and the free values
the spec leaves to the backends (00_scope.md R12 to R14, 40_backend_primitives.md R169, 20_memory.md
R90). A free value is an `opaque` constant with no body: nothing can evaluate it. -/

namespace Sys2Proof

/-- The legal build parameters: `RFS` even with 2 ≤ RFS ≤ 1024 (00_scope.md R7), 1 ≤ HLEN ≤ 64 (R9). -/
def legalParams (rfs hlen : Nat) : Bool :=
  rfs % 2 == 0 && decide (2 ≤ rfs) && decide (rfs ≤ 1024) && decide (1 ≤ hlen) && decide (hlen ≤ 64)

/-- The build parameters, constant for the life of an engine (00_scope.md R7, R9; log 1). An illegal
configuration cannot be built. -/
structure Params where
  /-- `RFS`, the fixed byte width of a block and of the modulus. -/
  rfs : Nat
  /-- `HLEN`, the digest length in bytes, which is also `SEEDLEN`. -/
  hlen : Nat
  /-- The two values are legal. -/
  legal : legalParams rfs hlen = true := by decide
deriving DecidableEq, Repr

/-- `BUFCAP`, the capacity of every buffer and key region, and `LBLMAX` (00_scope.md R11). -/
def bufCap : Nat := 1024

namespace Config

/-- Byte `i` of `H(s)` for an engine whose digest length is `hlen` (00_scope.md R12: a total function of
the absorbed bytes alone). Free value, log 5. Arguments: `hlen`, the absorbed bytes, `i`. -/
opaque hashByte : Nat → Bytes → Nat → Byte

/-- The random backend's byte at a position of its stream (00_scope.md R13: under no law). Free value, log 4. -/
opaque randomByte : Nat → Byte

/-- The answer of the primality test (00_scope.md R14, 40_backend_primitives.md R168). Free value, log 4.
Arguments: which draw, the candidate. -/
opaque primeAnswer : Nat → Nat → Bool

/-- How many random bytes the primality test reads (40_backend_primitives.md R154). Free value, log 4.
Arguments: which draw, the candidate. -/
opaque primeReads : Nat → Nat → Nat

/-- The result of a big-integer request outside its domain (40_backend_primitives.md R169). Free value, log 4. -/
opaque bigAny : Nat → Nat

/-- What a host read of a buffer byte returns while BUSY = 1 (20_memory.md R90). Free value, log 4. -/
opaque busyByte : Nat → Byte

end Config

/-- The three external collaborators and the busy bus, as the engine sees them (00_scope.md R6).
It is an argument of every meaning, so that a test can supply the backend of the spec's vectors;
the machine itself runs with `Config.backend`. -/
structure Backend where
  /-- Byte `i` of the digest: digest length, absorbed bytes, `i`. -/
  hashByte : Nat → Bytes → Nat → Byte
  /-- The random stream. -/
  randomByte : Nat → Byte
  /-- The primality answer: which draw, candidate. -/
  primeAnswer : Nat → Nat → Bool
  /-- The random bytes the primality test reads: which draw, candidate. -/
  primeReads : Nat → Nat → Nat
  /-- Results outside a request's domain. -/
  bigAny : Nat → Nat
  /-- Buffer bytes read while BUSY. -/
  busyByte : Nat → Byte

/-- The engine's backends: every one of them a free value. -/
def Config.backend : Backend :=
  { hashByte := Config.hashByte, randomByte := Config.randomByte, primeAnswer := Config.primeAnswer,
    primeReads := Config.primeReads, bigAny := Config.bigAny, busyByte := Config.busyByte }

end Sys2Proof
end

