-- ==== Sys2Proof/Syntax.lean ====
section
/-! DEFINITION. The command set MROE-CMD version 1 (spec/30_encoding.md R122), what it decodes into, and
what the outside does to the engine: bus transactions, polling and reset (R129, R130,
spec/70_reset_and_hazards.md R400). -/

namespace Sys2Proof

/-- The eight commands, one constructor a row of spec/opcode_table.json (30_encoding.md R122). A command
has no operand field (R124): its operands are fixed registers and buffers. -/
inductive Instr
  /-- 0x01: expose the mask generator (42_mgf_oaep.md R253). -/
  | mgfExpand
  /-- 0x02: OAEP padding (42_mgf_oaep.md R256). -/
  | oaepEncode
  /-- 0x03: OAEP check and removal (42_mgf_oaep.md R262). -/
  | oaepDecode
  /-- 0x10: the public-key operation (43_rsa_crt.md R302). -/
  | rsaEncrypt
  /-- 0x11: the CRT schedule of the private-key operation (43_rsa_crt.md R306). -/
  | rsaDecrypt
  /-- 0x20: make a key pair (41_key_fsm.md R203). -/
  | keyGenerate
  /-- 0x21: check a key pair (41_key_fsm.md R218). -/
  | keyValidate
  /-- 0x22: zero the private key (41_key_fsm.md R221). -/
  | keyKill
deriving DecidableEq, Repr

/-- What a command word decodes to (30_encoding.md R123): a command, or ILLEGAL. -/
inductive Op
  | illegal
  | cmd (i : Instr)
deriving DecidableEq, Repr

/-- The nine 1024-byte regions of the host window (20_memory.md R81). -/
inductive Buf
  | msg | lbl | blk | n | p | q | dp | dq | c
deriving DecidableEq, Repr

/-- The eleven control registers (10_state.md R31). -/
inductive Reg
  | id | cfgRfs | cfgHlen | ctrl | cmd | status | msgLen | lblLen | blkLen | outLen | e
deriving DecidableEq, Repr

/-- A bus transaction (30_encoding.md R130): address, width, direction, data. -/
inductive Access
  /-- `r8 a`, that is `MemRead(a, 1)`. -/
  | read8 (a : Addr)
  /-- `r32 a`, that is `MemRead(a, 4)`. -/
  | read32 (a : Addr)
  /-- `w8 a, v`, that is `MemWrite(a, 1, v)`. -/
  | write8 (a : Addr) (v : Byte)
  /-- `w32 a, v`, that is `MemWrite(a, 4, v)`. -/
  | write32 (a : Addr) (v : Word)
deriving DecidableEq, Repr

/-- The address of a bus transaction. -/
def Access.addr : Access → Addr
  | .read8 a => a
  | .read32 a => a
  | .write8 a _ => a
  | .write32 a _ => a

/-- Whether a bus transaction is 32 bits wide. -/
def Access.wide : Access → Bool
  | .read8 _ => false
  | .read32 _ => true
  | .write8 _ _ => false
  | .write32 _ _ => true

/-- Whether a bus transaction is a write. -/
def Access.isWrite : Access → Bool
  | .read8 _ => false
  | .read32 _ => false
  | .write8 _ _ => true
  | .write32 _ _ => true

/-- What happens next, in the one total order of host accesses, engine steps and resets
(20_memory.md R94, 60_exceptions.md R361; log 2). -/
inductive Event
  /-- One access of the host. -/
  | host (x : Access)
  /-- The engine may make up to `n` engine steps before the next event. -/
  | engine (n : Nat)
  /-- The host polls STATUS until DONE reads 1 (30_encoding.md R129; log 12). -/
  | wait
  /-- The platform asserts the reset input (70_reset_and_hazards.md R400). -/
  | reset
deriving DecidableEq, Repr

end Sys2Proof
end

