-- ==== Sys2Proof/WellFormed.lean ====
section
/-! DEFINITION. What is well formed: a command (always, 30_encoding.md R124), a build's parameters
(00_scope.md R7, R9: `legalParams` of Config.lean), a bus transaction (20_memory.md R82, R83, R87) and a
host event. -/

namespace Sys2Proof

/-- A command has no operand field, so every command is well formed (30_encoding.md R121, R124). -/
def Instr.wellFormed : Instr → Bool
  | .mgfExpand => true
  | .oaepEncode => true
  | .oaepDecode => true
  | .rsaEncrypt => true
  | .rsaDecrypt => true
  | .keyGenerate => true
  | .keyValidate => true
  | .keyKill => true

/-- The addresses of the control registers, 0x0000-0x002B (20_memory.md R81). -/
def isRegisterAddr (a : Nat) : Bool := decide (a < 0x2C)

/-- The addresses of the buffers and key regions, 0x0400-0x27FF (20_memory.md R81). -/
def isBufferAddr (a : Nat) : Bool := decide (0x400 ≤ a) && decide (a < 0x2800)

/-- A bus transaction is well formed when the engine answers it without a bus error: a register takes
aligned 32-bit accesses only (20_memory.md R82), a buffer takes any 8-bit and any aligned 32-bit access
(R83), and nothing else exists (R87). -/
def Access.wellFormed (x : Access) : Bool :=
  if x.wide then x.addr.toNat % 4 == 0 && (isRegisterAddr x.addr.toNat || isBufferAddr x.addr.toNat)
  else isBufferAddr x.addr.toNat

/-- An event is well formed when the host's access in it is. -/
def Event.wellFormed : Event → Bool
  | .host x => x.wellFormed
  | .engine _ => true
  | .wait => true
  | .reset => true

end Sys2Proof
end

