-- ==== Sys2Proof/Decode.lean ====
section
/-! DEFINITION. Decoding of a command word, total on every 32-bit word (spec/30_encoding.md R121 to R123,
R126), and the encoder written from the same table. -/

namespace Sys2Proof

/-- Why a command word is ILLEGAL (30_encoding.md R126). -/
inductive Reject
  /-- RSV (bits 31:8) is not zero. -/
  | reservedNotZero
  /-- RSV is zero and OPC is not assigned. -/
  | unassignedOpcode
deriving DecidableEq, Repr

/-- `OPC`, bits 7:0 of a command word (30_encoding.md R121). -/
def opcOf (w : Word) : BitVec 8 := w.extractLsb' 0 8

/-- `RSV`, bits 31:8 of a command word (30_encoding.md R121). -/
def rsvOf (w : Word) : BitVec 24 := w.extractLsb' 8 24

/-- `decode(w)` of 30_encoding.md R123, with the reason where the word is ILLEGAL. -/
def decodeWord (w : Word) : Except Reject Instr :=
  if rsvOf w ≠ 0#24 then .error .reservedNotZero
  else
    match opcOf w with
    | 0x01#8 => .ok .mgfExpand
    | 0x02#8 => .ok .oaepEncode
    | 0x03#8 => .ok .oaepDecode
    | 0x10#8 => .ok .rsaEncrypt
    | 0x11#8 => .ok .rsaDecrypt
    | 0x20#8 => .ok .keyGenerate
    | 0x21#8 => .ok .keyValidate
    | 0x22#8 => .ok .keyKill
    | _ => .error .unassignedOpcode

/-- What an accepted command word makes the engine run (10_state.md R36, R48). -/
def opOfWord (w : Word) : Op :=
  match decodeWord w with
  | .ok i => .cmd i
  | .error _ => .illegal

/-- The opcode of a command (30_encoding.md R122). -/
def opcode : Instr → BitVec 8
  | .mgfExpand => 0x01#8
  | .oaepEncode => 0x02#8
  | .oaepDecode => 0x03#8
  | .rsaEncrypt => 0x10#8
  | .rsaDecrypt => 0x11#8
  | .keyGenerate => 0x20#8
  | .keyValidate => 0x21#8
  | .keyKill => 0x22#8

/-- The command word of a command: OPC in bits 7:0, RSV zero (30_encoding.md R121, R122). -/
def encode (i : Instr) : Word := 0#24 ++ opcode i

/-- The decoder on an instruction as spec/opcode_table.json numbers its bits (log 21). A command word is
one 32-bit word delivered by value (30_encoding.md R120), so no byte order enters. -/
def decodeTableWord (nbits w : Nat) : Option Instr :=
  match decodeWord (BitVec.ofNat 32 (w % 2 ^ nbits)) with
  | .ok i => some i
  | .error _ => none

end Sys2Proof
end

