-- ==== Sys2Proof/Machine/State.lean ====
section
/-! DEFINITION. The engine's state (spec/10_state.md R30 to R54) as plain data, the reasons a step can
stop, and the state after reset (R54, spec/70_reset_and_hazards.md R401). -/

namespace Sys2Proof.Machine

/-- Completion codes, the values of STATUS.ERR (60_exceptions.md R351). Codes 8 to 15 are never written. -/
inductive Code
  | none | illegalCmd | badOperand | noKey | configError | encodingTooLong | paddingInvalid | keyInvalid
deriving DecidableEq, Repr

/-- STATUS (10_state.md R37). Its reserved bits always read 0 and are not stored (log 15). -/
structure Status where
  busy : Bool
  done : Bool
  ok : Bool
  ovr : Bool
  err : Code
deriving DecidableEq, Repr

/-! ## Backend requests (spec/40_backend_primitives.md R151 to R168) -/

/-- A request on one of the three backend ports. -/
inductive Request
  | hashInit
  | hashAbsorb (s : Bytes)
  | hashAbsorbInt (i : Nat)
  | hashFinal
  | rngRead (k : Nat)
  | fromBytes (s : Bytes)
  | toBytes (x len : Nat)
  | add (a b : Nat)
  | sub (a b : Nat)
  | mul (a b : Nat)
  | mod (a m : Nat)
  | modExp (b x m : Nat)
  | modInv (a m : Nat)
  | shr1 (a : Nat)
  | lowBits (a k : Nat)
  | cmp (a b : Nat)
  | coFactor (a e : Nat)
  | isPrime (a : Nat)
deriving DecidableEq, Repr

/-! ## The steps of each command: the engine's program counter (spec/10_state.md R48)

A point names the request that the next engine step issues. `start` is step 0 of the command. -/

/-- `HASH(s)` after its HASH.INIT (40_backend_primitives.md R152). -/
inductive HashPoint
  | absorb | final
deriving DecidableEq, Repr

/-- The four requests of one block of `MGF(z, L)` (42_mgf_oaep.md R250, R251). -/
inductive MgfPoint
  | init | absorb | absorbInt | final
deriving DecidableEq, Repr

/-- MGF_EXPAND (42_mgf_oaep.md R253). -/
inductive ExpandPoint
  | start | mgf (p : MgfPoint)
deriving DecidableEq, Repr

/-- OAEP_ENCODE (42_mgf_oaep.md R256, R257). -/
inductive EncodePoint
  | start | label (p : HashPoint) | seed | dbMask (p : MgfPoint) | seedMask (p : MgfPoint)
deriving DecidableEq, Repr

/-- OAEP_DECODE (42_mgf_oaep.md R262, R272). -/
inductive DecodePoint
  | start | label (p : HashPoint) | seedMask (p : MgfPoint) | dbMask (p : MgfPoint)
deriving DecidableEq, Repr

/-- RSA_ENCRYPT (43_rsa_crt.md R302); `start` makes the checks and reads the block. -/
inductive EncryptPoint
  | start | readN | modExp | serialize
deriving DecidableEq, Repr

/-- RSA_DECRYPT, the CRT schedule (43_rsa_crt.md R314); `start` makes the checks and request 1. -/
inductive DecryptPoint
  | start | readP | readQ | readDp | readDq | readC
  | reduceP | reduceQ | expP | expQ | crossReduce | compare | adjust | subtract
  | mulC | reduceH | mulP | addJp | serialize
deriving DecidableEq, Repr

/-- Which of the two primes a part of the key FSM works on. -/
inductive Side
  | p | q
deriving DecidableEq, Repr

/-- The six key fields in the order of their conversions (41_key_fsm.md R214 item 5, R218). -/
inductive KeyField
  | n | p | q | dp | dq | c
deriving DecidableEq, Repr

/-- KEY_GENERATE (41_key_fsm.md R203, R214); `start` makes the pre-check and the first draw. -/
inductive GeneratePoint
  | start
  | draw (w : Side) | fromBytes (w : Side) | lowBits (w : Side) | increment (w : Side)
  | bound (w : Side) | probe (w : Side) | advance (w : Side)
  | subOne (w : Side) | coFactor (w : Side) | distinct
  | modulus
  | halfSub (w : Side) | halve (w : Side) | inverse (w : Side) | parity (w : Side) | adjust (w : Side)
  | coefficient
  | serialize (k : KeyField)
deriving DecidableEq, Repr

/-- KEY_VALIDATE (41_key_fsm.md R218); `start` makes the NO_KEY test and reads N. -/
inductive ValidatePoint
  | start
  | read (k : KeyField)
  | residue (w : Side) | prime (w : Side) | subOne (w : Side) | coFactor (w : Side)
  | product | modulus | distinct | mulC | coefficient
  | halfSub (w : Side) | halve (w : Side) | parity (w : Side) | mulE (w : Side) | reduceE (w : Side)
  | reduceOne (w : Side) | congruent (w : Side)
  | width
deriving DecidableEq, Repr

/-- The FSM state: IDLE, or RUN(op, step) with the steps that `op` has (10_state.md R48). ILLEGAL and
KEY_KILL have step 0 only (30_encoding.md R126, 41_key_fsm.md R221). -/
inductive Fsm
  | idle
  | illegal
  | mgfExpand (pt : ExpandPoint)
  | oaepEncode (pt : EncodePoint)
  | oaepDecode (pt : DecodePoint)
  | rsaEncrypt (pt : EncryptPoint)
  | rsaDecrypt (pt : DecryptPoint)
  | keyGenerate (pt : GeneratePoint)
  | keyValidate (pt : ValidatePoint)
  | keyKill
deriving DecidableEq, Repr

/-- The `op` of RUN(op, step); none in IDLE. -/
def Fsm.op : Fsm → Option Op
  | .idle => Option.none
  | .illegal => some .illegal
  | .mgfExpand _ => some (.cmd .mgfExpand)
  | .oaepEncode _ => some (.cmd .oaepEncode)
  | .oaepDecode _ => some (.cmd .oaepDecode)
  | .rsaEncrypt _ => some (.cmd .rsaEncrypt)
  | .rsaDecrypt _ => some (.cmd .rsaDecrypt)
  | .keyGenerate _ => some (.cmd .keyGenerate)
  | .keyValidate _ => some (.cmd .keyValidate)
  | .keyKill => some (.cmd .keyKill)

/-- RUN(op, 0) (10_state.md R36). -/
def Fsm.run : Op → Fsm
  | .illegal => .illegal
  | .cmd .mgfExpand => .mgfExpand .start
  | .cmd .oaepEncode => .oaepEncode .start
  | .cmd .oaepDecode => .oaepDecode .start
  | .cmd .rsaEncrypt => .rsaEncrypt .start
  | .cmd .rsaDecrypt => .rsaDecrypt .start
  | .cmd .keyGenerate => .keyGenerate .start
  | .cmd .keyValidate => .keyValidate .start
  | .cmd .keyKill => .keyKill

/-- Whether the FSM is in IDLE. -/
def Fsm.isIdle : Fsm → Bool
  | .idle => true
  | .illegal => false
  | .mgfExpand _ => false
  | .oaepEncode _ => false
  | .oaepDecode _ => false
  | .rsaEncrypt _ => false
  | .rsaDecrypt _ => false
  | .keyGenerate _ => false
  | .keyValidate _ => false
  | .keyKill => false

/-! ## Scratch (spec/10_state.md R50): the commands' local variables, named as their pseudocode names them -/

/-- Local variables of `MGF(z, L)` (42_mgf_oaep.md R250). -/
structure MgfScratch where
  z : Bytes := []
  len : Nat := 0
  i : Nat := 0
  t : Bytes := []
deriving DecidableEq, Repr

/-- Local byte buffers of the OAEP codec (42_mgf_oaep.md R256, R262). `lhash` is decode's `chash` too. -/
structure OaepScratch where
  lhash : Bytes := []
  db : Bytes := []
  seed : Bytes := []
  dbMask : Bytes := []
  mDB : Bytes := []
  sMask : Bytes := []
  mSeed : Bytes := []
  f : Bytes := []
deriving DecidableEq, Repr

/-- The key values as big integers (10_state.md R47). -/
structure KeyScratch where
  nv : Nat := 0
  pv : Nat := 0
  qv : Nat := 0
  dpv : Nat := 0
  dqv : Nat := 0
  cv : Nat := 0
deriving DecidableEq, Repr

/-- Local big integers of the RSA cipher (43_rsa_crt.md R302, R306); `t` is the unnamed product of steps
5 (log 10). -/
structure RsaScratch where
  f : Nat := 0
  y : Nat := 0
  g : Nat := 0
  jp : Nat := 0
  jq : Nat := 0
  a : Nat := 0
  t : Nat := 0
  h : Nat := 0
  r : Nat := 0
deriving DecidableEq, Repr

/-- Local variables of KEY_GENERATE (41_key_fsm.md R203). -/
structure GenScratch where
  raw : Bytes := []
  x : Nat := 0
  x1 : Nat := 0
  t : Nat := 0
  d : Nat := 0
  sN : Bytes := []
  sP : Bytes := []
  sQ : Bytes := []
  sDP : Bytes := []
  sDQ : Bytes := []
  sC : Bytes := []
deriving DecidableEq, Repr

/-- Local big integers of KEY_VALIDATE (41_key_fsm.md R218): `tp` of V10 and V11, and the unnamed results
of nested requests (log 10). -/
structure ValScratch where
  t : Nat := 0
  u : Nat := 0
  v : Nat := 0
  tp : Nat := 0
deriving DecidableEq, Repr

/-- All scratch (10_state.md R50). Its default is the zeroed scratch. -/
structure Scratch where
  mgf : MgfScratch := {}
  oaep : OaepScratch := {}
  key : KeyScratch := {}
  rsa : RsaScratch := {}
  gen : GenScratch := {}
  val : ValScratch := {}
deriving DecidableEq, Repr

/-- Every byte and every temporary zero (10_state.md R54). -/
def Scratch.zero : Scratch := {}

/-! ## The whole state -/

/-- What the bus returned for the host's last access (20_memory.md R88, R90; log 8). -/
inductive BusResp
  /-- No access yet. -/
  | none
  /-- A write was taken (or dropped, or ignored: the bus answers the same). -/
  | ack
  /-- The data of an 8-bit read. -/
  | data8 (v : Byte)
  /-- The data of a 32-bit read. -/
  | data32 (v : Word)
deriving DecidableEq, Repr

/-- The engine (10_state.md R30), the backends' own state, and the schedule of what comes next. -/
structure State where
  /-- CFG_RFS and CFG_HLEN, hardwired (10_state.md R33, R34; log 1). -/
  cfg : Params
  /-- CTRL.IE (10_state.md R35). -/
  ie : Bool
  /-- STATUS (10_state.md R37). -/
  status : Status
  /-- MSGLEN (10_state.md R43). -/
  msgLen : Word
  /-- LBLLEN (10_state.md R43). -/
  lblLen : Word
  /-- BLKLEN (10_state.md R43). -/
  blkLen : Word
  /-- OUTLEN (10_state.md R43). -/
  outLen : Word
  /-- E (10_state.md R44). -/
  e : Word
  /-- MSG, LBL, BLK, N, P, Q, DP, DQ, C at their window addresses (10_state.md R45, R46; 20_memory.md R81);
  an unlisted byte is 0x00, its reset value (log 14). -/
  mem : List Host.Cell
  /-- The FSM state (10_state.md R48). -/
  fsm : Fsm
  /-- Scratch (10_state.md R50). -/
  scratch : Scratch
  /-- The hash backend: what was absorbed since HASH.INIT (40_backend_primitives.md R151; log 5). -/
  hashAcc : Bytes
  /-- The random backend: its stream position (10_state.md R51; log 4). -/
  rngPos : Nat
  /-- The model's own: the next free value to draw (log 4). -/
  drawPos : Nat
  /-- The model's own: the events to come (log 2). -/
  sched : List Event
  /-- The model's own: engine steps granted before the next event (log 3). -/
  grant : Nat
  /-- The model's own: the answer to the host's last access (log 8). -/
  resp : BusResp
  /-- The model's own: the requests issued since acceptance, oldest first (log 7). -/
  trace : List Request
deriving DecidableEq, Repr

/-- Why the machine stops. -/
inductive Fault
  /-- A bus error (20_memory.md R86, R87; 60_exceptions.md R360), raised by a host access that is
  misaligned, of the wrong width, or to a reserved address; never by a command. The hardware answers the
  host with an error, changes nothing and goes on; the model stops: safe (log 6). -/
  | busError (x : Access)
deriving DecidableEq, Repr

/-- Why the model gives no meaning. -/
inductive Refusal
  /-- An instruction with no meaning yet; raised by a refused arm of `exec` only. Safe. No arm is refused. -/
  | notModelled (mnemonic : String)
deriving DecidableEq, Repr

/-- The build parameters State.reset stands for: the source's concrete scenario, `RFS = 128`, `HLEN = 32`
(DESIGN CHOICE, log 1). -/
def State.resetParams : Params := { rfs := 128, hlen := 32 }

/-- Right after reset (10_state.md R54, 70_reset_and_hazards.md R401): every engine field as R54 states
it; the backends' counters and the model's own fields at 0 or empty (log 2 to 8). -/
def State.reset : State :=
  { cfg := State.resetParams
    ie := false
    status := { busy := false, done := false, ok := false, ovr := false, err := .none }
    msgLen := 0#32
    lblLen := 0#32
    blkLen := 0#32
    outLen := 0#32
    e := 0#32
    mem := []
    fsm := .idle
    scratch := Scratch.zero
    hashAcc := []
    rngPos := 0
    drawPos := 0
    sched := []
    grant := 0
    resp := .none
    trace := [] }

end Sys2Proof.Machine
end

