-- ==== Sys2Proof/Machine/Memory.lean ====
section
/-! DEFINITION. The storage of the host window's buffers and key regions (spec/20_memory.md R81): a list
of (address, byte) cells in one canonical form (log 14), and its operations. -/

namespace Sys2Proof.Machine

/-- What a byte reads as when no cell lists it: its reset contents (10_state.md R54; log 14). -/
def unlistedByte : Byte := 0#8

/-- Read one byte of the window's storage. -/
def readByte : List Host.Cell → Nat → Byte
  | [], _ => unlistedByte
  | (k, v) :: t, a => if k = a then v else readByte t a

/-- The cells of a byte string stored from an address on. -/
def cellsFrom : Nat → Bytes → List Host.Cell
  | _, [] => []
  | a, b :: t => if b = unlistedByte then cellsFrom (a + 1) t else (a, b) :: cellsFrom (a + 1) t

/-- Replace the bytes `[a, a + len(s))` by `s`, in one go; the canonical form is kept, and writing the byte an
unlisted address reads as removes its cell. -/
def writeBytes (m : List Host.Cell) (a : Nat) (s : Bytes) : List Host.Cell :=
  m.filter (fun c => decide (c.1 < a)) ++ cellsFrom a s ++ m.filter (fun c => decide (a + s.length ≤ c.1))

/-- Read `len` bytes from an address on. -/
def readBytes (m : List Host.Cell) (a len : Nat) : Bytes :=
  (List.range len).map fun i => readByte m (a + i)

/-- The canonical form from an address on: addresses strictly rising and not below `lo`, no listed byte
equal to what an unlisted one reads as, and nothing at or above `hi`. -/
def memWfFrom (hi : Nat) : Nat → List Host.Cell → Bool
  | _, [] => true
  | lo, (k, v) :: t => decide (lo ≤ k) && decide (k < hi) && (v != unlistedByte) && memWfFrom hi (k + 1) t

/-- `Memory.wf`: the canonical form, and every listed byte lies in the buffers and key regions,
0x0400-0x27FF (20_memory.md R81). -/
def Memory.wf (m : List Host.Cell) : Bool := memWfFrom 0x2800 0x400 m

end Sys2Proof.Machine
end

