-- ==== Sys2Proof/Machine/Operands.lean ====
section
/-! DEFINITION. The operand forms of the commands (spec/30_encoding.md R124, R125): derived lengths
(spec/00_scope.md R8, R10), buffer slices and key values (spec/10_state.md R45 to R47), the conversions
between byte strings and integers (00_scope.md R15, R16), and the byte helpers the engine computes itself
(spec/40_backend_primitives.md R171). -/

namespace Sys2Proof.Machine

/-! ## Conversions -/

/-- `FromBytes(s)`: the first byte is the most significant (00_scope.md R16, 20_memory.md R85). -/
def fromBytes (s : Bytes) : Nat := s.foldl (fun acc b => acc * 256 + b.toNat) 0

/-- `ToBytes(x, L)`: the `L`-byte big-endian string of `x mod 256^L` (00_scope.md R16). -/
def toBytes (x len : Nat) : Bytes :=
  (List.range len).map fun i => BitVec.ofNat 8 (x / 256 ^ (len - 1 - i))

/-- `BE32(i)` for `0 ≤ i < 2^32` (00_scope.md R15). The spec defines it for no larger `i`; there it is
`BE32(i mod 2^32)`, DESIGN CHOICE (log 22): the function is total, and no command absorbs such an `i`. -/
def be32 (i : Nat) : Bytes := toBytes i 4

/-- `s ⊕ t`, the engine's `xor`, for equal lengths (00_scope.md R15, 40_backend_primitives.md R171). The spec
defines it for no other lengths; there it is as long as the shorter string, DESIGN CHOICE (log 23): the function is
total, and no command XORs strings of unequal length. -/
def xorBytes (s t : Bytes) : Bytes := List.zipWith (· ^^^ ·) s t

/-- `cteq(s, t)` for equal lengths: every byte of both is read whatever they hold
(40_backend_primitives.md R171). The spec defines it for no other lengths; there it compares up to the shorter
length, so that a string and its beginning are equal, DESIGN CHOICE (log 23); no command compares such strings. -/
def cteq (s t : Bytes) : Bool :=
  (List.zipWith (· ^^^ ·) s t).foldl (fun acc d => acc ||| d) 0#8 == 0#8

/-- Whether every byte is 0: the engine-internal NO_KEY test, no request (43_rsa_crt.md R301, R305,
41_key_fsm.md R218). -/
def allZero (s : Bytes) : Bool := s.all (fun b => b == 0#8)

/-! ## Derived lengths (spec/00_scope.md R8, R10)

The lengths of R10 are exact integers, possibly negative (R10, R16). Where the engine makes a string of such a
length, past the checks of 42_mgf_oaep.md R255 and R260, the length is not negative and `Int.toNat` is exact; of a
negative length, which no command reaches there, it makes 0, DESIGN CHOICE (log 26). -/

/-- `HRFS = RFS / 2` (00_scope.md R8). -/
def hrfs (c : Params) : Nat := c.rfs / 2

/-- `OLEN = RFS − 1` (00_scope.md R10). -/
def oLen (c : Params) : Int := (c.rfs : Int) - 1

/-- `DBLEN = OLEN − SEEDLEN`, with `SEEDLEN = HLEN` (00_scope.md R10). -/
def dbLen (c : Params) : Int := oLen c - c.hlen

/-- `MAXMSG = OLEN − HLEN − SEEDLEN − 1` (00_scope.md R10, 40_backend_primitives.md R172 item 2). -/
def maxMsg (c : Params) : Int := oLen c - c.hlen - c.hlen - 1

/-- `PSLEN(mlen) = MAXMSG − mlen`, the length of the zero padding (00_scope.md R10). -/
def psLen (c : Params) (mlen : Nat) : Int := maxMsg c - mlen

/-- `SCANLEN = DBLEN − HLEN`, the length of the region that decode scans (00_scope.md R10). -/
def scanLen (c : Params) : Int := dbLen c - c.hlen

/-! ## Buffers and key regions (spec/20_memory.md R81) -/

/-- The window base of a buffer or key region. -/
def bufBase : Buf → Nat
  | .msg => 0x0400
  | .lbl => 0x0800
  | .blk => 0x0C00
  | .n => 0x1000
  | .p => 0x1400
  | .q => 0x1800
  | .dp => 0x1C00
  | .dq => 0x2000
  | .c => 0x2400

/-- `BUF[b][i]`: byte `i` of a buffer is at address `base(b) + i` (20_memory.md R81). -/
def State.bufByte (s : State) (b : Buf) (i : Nat) : Byte := readByte s.mem (bufBase b + i)

/-- `BUF[b][0..len)`, for `len ≤ BUFCAP` (00_scope.md R17, 20_memory.md R101; log 26 for longer ones, which no command
reads). -/
def State.bufBytes (s : State) (b : Buf) (len : Nat) : Bytes := readBytes s.mem (bufBase b) len

/-- The message `MSG[0..MSGLEN)` (30_encoding.md R124). -/
def State.message (s : State) : Bytes := s.bufBytes .msg s.msgLen.toNat

/-- The label `LBL[0..LBLLEN)`; length 0 is the absent label (42_mgf_oaep.md R256). -/
def State.labelBytes (s : State) : Bytes := s.bufBytes .lbl s.lblLen.toNat

/-- The meaningful bytes of a key field: `N[0..RFS)`, the others `[0..HRFS)` (10_state.md R46). -/
def State.keyBytes (s : State) : KeyField → Bytes
  | .n => s.bufBytes .n s.cfg.rfs
  | .p => s.bufBytes .p (hrfs s.cfg)
  | .q => s.bufBytes .q (hrfs s.cfg)
  | .dp => s.bufBytes .dp (hrfs s.cfg)
  | .dq => s.bufBytes .dq (hrfs s.cfg)
  | .c => s.bufBytes .c (hrfs s.cfg)

/-- The RFS-byte block `BLK[0..RFS)` (10_state.md R45). -/
def State.block (s : State) : Bytes := s.bufBytes .blk s.cfg.rfs

/-- `F = zeros(RFS − BLKLEN) ‖ BLK[0..BLKLEN)`, decode's normalised block, where `BLKLEN ≤ RFS` (42_mgf_oaep.md R260,
R263; log 26). -/
def State.paddedBlock (s : State) : Bytes :=
  zeros (s.cfg.rfs - s.blkLen.toNat) ++ s.bufBytes .blk s.blkLen.toNat

/-! ## Which key field, which prime -/

/-- The key region of a key field. -/
def KeyField.buf : KeyField → Buf
  | .n => .n
  | .p => .p
  | .q => .q
  | .dp => .dp
  | .dq => .dq
  | .c => .c

/-- The width in bytes a key field is serialised to (41_key_fsm.md R213). -/
def KeyField.width (c : Params) : KeyField → Nat
  | .n => c.rfs
  | .p => hrfs c
  | .q => hrfs c
  | .dp => hrfs c
  | .dq => hrfs c
  | .c => hrfs c

/-- The value of a key field (10_state.md R47). -/
def KeyScratch.get (k : KeyScratch) : KeyField → Nat
  | .n => k.nv
  | .p => k.pv
  | .q => k.qv
  | .dp => k.dpv
  | .dq => k.dqv
  | .c => k.cv

/-- Set the value of a key field. -/
def KeyScratch.set (k : KeyScratch) (f : KeyField) (x : Nat) : KeyScratch :=
  match f with
  | .n => { k with nv := x }
  | .p => { k with pv := x }
  | .q => { k with qv := x }
  | .dp => { k with dpv := x }
  | .dq => { k with dqv := x }
  | .c => { k with cv := x }

/-- The prime a part of the key FSM works on. -/
def KeyScratch.prime (k : KeyScratch) : Side → Nat
  | .p => k.pv
  | .q => k.qv

/-- The CRT exponent of a prime. -/
def KeyScratch.exponent (k : KeyScratch) : Side → Nat
  | .p => k.dpv
  | .q => k.dqv

end Sys2Proof.Machine
end

