-- ==== Sys2Proof/Machine/Backend.lean ====
section
/-! DEFINITION. The three backend ports (spec/40_backend_primitives.md R150 to R169): what a request
answers, and what a request changes. A request and its response are one engine step (R150). -/

namespace Sys2Proof.Machine

/-! ## Big-integer arithmetic -/

/-- `b^x mod m` by squaring; `fuel ≥ x` suffices. It equals `b ^ x % m` (Laws/Backend.lean, `powMod_eq`). -/
def powModFuel : Nat → Nat → Nat → Nat → Nat
  | 0, _, _, m => 1 % m
  | fuel + 1, b, x, m =>
    if x = 0 then 1 % m
    else if x % 2 = 1 then powModFuel fuel (b * b % m) (x / 2) m * b % m
    else powModFuel fuel (b * b % m) (x / 2) m

/-- `b^x mod m`, with `0^0 = 1` (40_backend_primitives.md R162). -/
def powMod (b x m : Nat) : Nat := powModFuel x b x m

/-- Extended Euclid on `(r0, r1)` with the coefficients `(s0, s1)` of `a`; `fuel > r1` suffices. -/
def bezoutFuel : Nat → Nat → Nat → Int → Int → Int
  | 0, _, _, s0, _ => s0
  | fuel + 1, r0, r1, s0, s1 =>
    if r1 = 0 then s0 else bezoutFuel fuel r1 (r0 % r1) s1 (s0 - (r0 / r1 : Nat) * s1)

/-- The inverse of `a` modulo `m` in `0 ≤ x < m`, when `m ≥ 1` and `gcd(a, m) = 1`
(40_backend_primitives.md R163; Laws/Backend.lean, `modInverse_spec`). -/
def modInverse (a m : Nat) : Nat := (bezoutFuel (m + 1) a m 1 0 % (m : Int)).toNat

/-- `H(s)`, `HLEN` bytes (00_scope.md R12, 40_backend_primitives.md R151). -/
def digest (B : Backend) (hlen : Nat) (s : Bytes) : Bytes := (List.range hlen).map (B.hashByte hlen s)

/-- The `k` bytes of the random stream from a position on, for `k ≥ 1` (40_backend_primitives.md R153). The spec
gives RNG.READ for no `k = 0`; there it is the empty string, DESIGN CHOICE (log 24), and no command asks for it. -/
def randomBytes (B : Backend) (pos k : Nat) : Bytes := (List.range k).map fun i => B.randomByte (pos + i)

/-! ## Requests -/

/-- The domain of a request (40_backend_primitives.md R156 to R168). RNG.READ(0) and LOWBITS outside `k ∈ {1, 2}`
have no domain in the spec; the model puts them inside, DESIGN CHOICE (logs 24, 25). -/
def Request.inDomain : Request → Prop
  | .sub a b => b ≤ a
  | .mod _ m => 1 ≤ m
  | .modExp b _ m => m % 2 = 1 ∧ b < m
  | .modInv a m => 1 ≤ m ∧ Nat.gcd a m = 1
  | _ => True

/-- What a request answers with: nothing, bytes, a number, an order or a truth value
(40_backend_primitives.md R151, R153, R156 to R168). -/
abbrev Request.Resp : Request → Type
  | .hashInit => Unit
  | .hashAbsorb _ => Unit
  | .hashAbsorbInt _ => Unit
  | .hashFinal => Bytes
  | .rngRead _ => Bytes
  | .fromBytes _ => Nat
  | .toBytes _ _ => Bytes
  | .add _ _ => Nat
  | .sub _ _ => Nat
  | .mul _ _ => Nat
  | .mod _ _ => Nat
  | .modExp _ _ _ => Nat
  | .modInv _ _ => Nat
  | .shr1 _ => Nat
  | .lowBits _ _ => Nat
  | .cmp _ _ => Ordering
  | .coFactor _ _ => Bool
  | .isPrime _ => Bool

/-- The response to a request issued in a state. A result outside the request's domain is any value
(40_backend_primitives.md R169): the free value at `drawPos`; the primality answer likewise (R168).
DESIGN CHOICE, for requests that R153 and R165 do not give and no command issues: RNG.READ(0) answers the empty
string (log 24), and LOWBITS(a, k) answers `a mod 2^k` for every `k`, not for 1 and 2 only (log 25). -/
def State.answer (B : Backend) (s : State) : (r : Request) → r.Resp
  | .hashInit => ()
  | .hashAbsorb _ => ()
  | .hashAbsorbInt _ => ()
  | .hashFinal => digest B s.cfg.hlen s.hashAcc
  | .rngRead k => randomBytes B s.rngPos k
  | .fromBytes t => Machine.fromBytes t
  | .toBytes x len => Machine.toBytes x len
  | .add a b => a + b
  | .sub a b => if b ≤ a then a - b else B.bigAny s.drawPos
  | .mul a b => a * b
  | .mod a m => if 1 ≤ m then a % m else B.bigAny s.drawPos
  | .modExp b x m => if m % 2 = 1 ∧ b < m then powMod b x m else B.bigAny s.drawPos
  | .modInv a m => if 1 ≤ m ∧ Nat.gcd a m = 1 then modInverse a m else B.bigAny s.drawPos
  | .shr1 a => a / 2
  | .lowBits a k => a % 2 ^ k
  | .cmp a b => compare a b
  | .coFactor a e => decide (Nat.gcd a e ≠ 1)
  | .isPrime a => B.primeAnswer s.drawPos a

/-- The bytes absorbed since HASH.INIT, after a request (40_backend_primitives.md R151; log 5). -/
def Request.hashAcc (acc : Bytes) : Request → Bytes
  | .hashInit => []
  | .hashAbsorb t => acc ++ t
  | .hashAbsorbInt i => acc ++ be32 i
  | .hashFinal => []
  | _ => acc

/-- How far a request moves the random stream: RNG.READ by its length, ISPRIME by a draw
(40_backend_primitives.md R153, R154); RNG.READ(0) leaves it in place, DESIGN CHOICE (log 24). -/
def Request.rngTaken (B : Backend) (drawPos : Nat) : Request → Nat
  | .rngRead k => k
  | .isPrime a => B.primeReads drawPos a
  | _ => 0

/-- How many free values a request draws: one for the primality answer, one for a result outside the
domain (40_backend_primitives.md R168, R169; log 4). LOWBITS draws none for any `k`, DESIGN CHOICE (log 25). -/
def Request.draws : Request → Nat
  | .sub a b => if b ≤ a then 0 else 1
  | .mod _ m => if 1 ≤ m then 0 else 1
  | .modExp b _ m => if m % 2 = 1 ∧ b < m then 0 else 1
  | .modInv a m => if 1 ≤ m ∧ Nat.gcd a m = 1 then 0 else 1
  | .isPrime _ => 1
  | _ => 0

/-- What issuing a request changes, outside the engine's own state: the request joins the trace, and the
backends move on. A request has no other effect (40_backend_primitives.md R169). -/
def State.issue (B : Backend) (s : State) (r : Request) : State :=
  { s with
    trace := s.trace ++ [r]
    hashAcc := r.hashAcc s.hashAcc
    rngPos := s.rngPos + r.rngTaken B s.drawPos
    drawPos := s.drawPos + r.draws }

end Sys2Proof.Machine
end

