-- ==== Sys2Proof/Machine/Flags.lean ====
section
/-! DEFINITION. STATUS, CTRL and IRQ (spec/10_state.md R35, R37 to R42, R52): how the fields make up the
words the host reads, the write-1-to-clear of STATUS, and the legal states. -/

namespace Sys2Proof.Machine

/-- The number of a completion code (60_exceptions.md R351). -/
def Code.bits : Code → BitVec 4
  | .none => 0#4
  | .illegalCmd => 1#4
  | .badOperand => 2#4
  | .noKey => 3#4
  | .configError => 4#4
  | .encodingTooLong => 5#4
  | .paddingInvalid => 6#4
  | .keyInvalid => 7#4

/-- STATUS as the host reads it: ERR in bits 7:4, OVR bit 3, OK bit 2, DONE bit 1, BUSY bit 0, reserved
bits 0 (10_state.md R37). -/
def Status.word (t : Status) : Word :=
  0#24 ++ t.err.bits ++ BitVec.ofBool t.ovr ++ BitVec.ofBool t.ok ++ BitVec.ofBool t.done
    ++ BitVec.ofBool t.busy

/-- A host write to STATUS: bit 1 clears DONE, bit 3 clears OVR, nothing else changes (10_state.md R37). -/
def Status.w1c (t : Status) (w : Word) : Status :=
  { t with done := t.done && !w.getLsbD 1, ovr := t.ovr && !w.getLsbD 3 }

/-- STATUS after a command is accepted: BUSY 1, DONE 0, OK 0, ERR 0, OVR unchanged (10_state.md R36). -/
def Status.accepted (t : Status) : Status :=
  { t with busy := true, done := false, ok := false, err := .none }

/-- STATUS after a completion with a code: BUSY 0, DONE 1, OK = (code = 0), ERR the code, OVR unchanged
(60_exceptions.md R362 item 3). -/
def Status.completed (t : Status) (c : Code) : Status :=
  { t with busy := false, done := true, ok := decide (c = .none), err := c }

/-- STATUS after a host write is dropped (10_state.md R41, 20_memory.md R91). -/
def Status.overrun (t : Status) : Status := { t with ovr := true }

/-- The legal states of STATUS (10_state.md R37): running has DONE = OK = ERR = 0; DONE = 1 has
OK = (ERR = 0); and OK = 1 is only ever beside ERR = 0 (R40). OVR combines with any. -/
def Status.legal (t : Status) : Bool :=
  if t.busy then !t.done && !t.ok && decide (t.err = .none)
  else if t.done then t.ok == decide (t.err = .none)
  else !t.ok || decide (t.err = .none)

/-- CTRL as the host reads it: IE in bit 0, reserved bits 0 (10_state.md R35). -/
def State.ctrlWord (s : State) : Word := 0#31 ++ BitVec.ofBool s.ie

/-- `IRQ = STATUS.DONE ∧ CTRL.IE`, a level that follows its two inputs (10_state.md R52, 60_exceptions.md
R365). -/
def State.irq (s : State) : Bool := s.status.done && s.ie

end Sys2Proof.Machine
end

