-- ==== Sys2Proof/Machine/Ops.lean ====
section
/-! DEFINITION. The shared operations: the output primitive (spec/20_memory.md R100), accepting a command
(spec/10_state.md R36), the completion step, which is the engine's trap entry (spec/60_exceptions.md
R362), the acknowledge, which is its return (R364), the reset event (spec/70_reset_and_hazards.md R401 to
R403), and running engine steps (10_state.md R49). -/

namespace Sys2Proof.Machine

/-- The ID register's hardwired value (10_state.md R32). -/
def idValue : Word := 0x4D524F01#32

/-! ## Outputs -/

/-- The bytes OutWrite puts in a buffer: the result, then zeros to BUFCAP (20_memory.md R100; log 17). -/
def outImage (t : Bytes) : Bytes := t.take bufCap ++ zeros (bufCap - t.length)

/-- `OutWrite(b, t)` (20_memory.md R100): the buffer, and MSGLEN for MSG, BLKLEN for BLK. -/
def State.outWrite (s : State) (b : Buf) (t : Bytes) : State :=
  { s with
    mem := writeBytes s.mem (bufBase b) (outImage t)
    msgLen := if b = .msg then BitVec.ofNat 32 t.length else s.msgLen
    blkLen := if b = .blk then BitVec.ofNat 32 t.length else s.blkLen }

/-! ## Accepting a command, completing it, acknowledging it, resetting -/

/-- Accepting a command word (10_state.md R36): STATUS, and `fsm ← RUN(decode(w), 0)`. The trace starts
anew (log 7). -/
def State.accept (s : State) (w : Word) : State :=
  { s with status := s.status.accepted, fsm := Fsm.run (opOfWord w), trace := [] }

/-- A host write of CMD (10_state.md R36): accepted when BUSY = 0, otherwise dropped with OVR ← 1
(60_exceptions.md R359). -/
def State.writeCmd (s : State) (w : Word) : State :=
  if s.status.busy then { s with status := s.status.overrun } else s.accept w

/-- `complete(code)`, items 2 to 4 of 60_exceptions.md R362; the command makes its OutWrites (item 1) in
the same engine step, before it. -/
def State.complete (s : State) (c : Code) : State :=
  { s with status := s.status.completed c, fsm := .idle, scratch := Scratch.zero }

/-- The host's acknowledge, a write of STATUS (60_exceptions.md R364, 10_state.md R37). -/
def State.writeStatus (s : State) (w : Word) : State := { s with status := s.status.w1c w }

/-- The reset event (70_reset_and_hazards.md R401 to R403): every engine field at its reset value. The
build parameters are hardwired, the backends are not reset, and the schedule is the outside's (log 18). -/
def State.resetEvent (s : State) : State :=
  { State.reset with
    cfg := s.cfg
    hashAcc := s.hashAcc
    rngPos := s.rngPos
    drawPos := s.drawPos
    sched := s.sched }

/-! ## Engine steps -/

/-- Run engine steps, at most `n`, and none after a completion (10_state.md R49). -/
def engineLoop (f : State → State) : Nat → State → State
  | 0, s => s
  | n + 1, s => if s.fsm.isIdle then s else engineLoop f n (f s)

/-- Run as many engine steps of a command as the schedule grants (log 3). -/
def runGranted (f : State → State) (s : State) : State :=
  { engineLoop f s.grant s with grant := 0 }

/-- The only engine step of `RUN(ILLEGAL, 0)` (30_encoding.md R126, 60_exceptions.md R352). -/
def illegalStep (s : State) : State :=
  match s.fsm with
  | .illegal => s.complete .illegalCmd
  | _ => s

/-- What the engine does with an ILLEGAL command (30_encoding.md R126). -/
def execIllegal (s : State) : Host.Outcome State Fault Refusal := .next (runGranted illegalStep s)

end Sys2Proof.Machine
end

