-- ==== Sys2Proof/Machine/KeyFsm.lean ====
section
/-! DEFINITION. The key-pair FSM (spec/41_key_fsm.md): KEY_GENERATE (R200 to R216), KEY_VALIDATE (R217 to
R220) and KEY_KILL (R221, R222) as engine steps. -/

namespace Sys2Proof.Machine

/-! ## KEY_GENERATE -/

/-- `raw[0] <- raw[0] OR 0x80`, bit 7 of the most significant byte (41_key_fsm.md R204); the empty string,
which RNG.READ(HRFS) never gives, stays (log 26). -/
def forceTopBit : Bytes → Bytes
  | [] => []
  | b :: t => (b ||| 0x80#8) :: t

/-- `B = 256^HRFS`, the half-width bound (41_key_fsm.md R203, R207). -/
def halfBound (c : Params) : Nat := 256 ^ hrfs c

/-- `x` is returned by FindPrime: it becomes `pv` and the search for `q` starts, or it becomes `qv` and
the modulus follows (41_key_fsm.md R203). -/
def primeFound (w : Side) (s : State) : State :=
  match w with
  | .p => { s with scratch.key.pv := s.scratch.gen.x, fsm := .keyGenerate (.draw .q) }
  | .q => { s with scratch.key.qv := s.scratch.gen.x, fsm := .keyGenerate .modulus }

/-- `goto attempt`: every value of the attempt is discarded (41_key_fsm.md R203). -/
def restartAttempt (w : Side) (s : State) : State :=
  { s with
    scratch.gen.raw := []
    scratch.gen.x := 0
    scratch.gen.x1 := 0
    fsm := .keyGenerate (.draw w) }

/-- `CrtExp` returns `d`: it becomes `dpv` and the exponent of `q` follows, or it becomes `dqv` and the
coefficient follows (41_key_fsm.md R203, R211). -/
def exponentFound (w : Side) (d : Nat) (s : State) : State :=
  match w with
  | .p => { s with scratch.gen.d := d, scratch.key.dpv := d, fsm := .keyGenerate (.halfSub .q) }
  | .q => { s with scratch.gen.d := d, scratch.key.dqv := d, fsm := .keyGenerate .coefficient }

/-- The first draw of an attempt, `RNG.READ(HRFS)` with the top bit forced (41_key_fsm.md R204). -/
def drawCandidate (B : Backend) (w : Side) (s : State) : State :=
  { s.issue B (.rngRead (hrfs s.cfg)) with
    scratch.gen.raw := forceTopBit (s.answer B (.rngRead (hrfs s.cfg)))
    fsm := .keyGenerate (.fromBytes w) }

/-- The completion of KEY_GENERATE: all six regions together (41_key_fsm.md R203, R213). -/
def generateFinish (s : State) : State :=
  ((((((s.outWrite .n s.scratch.gen.sN).outWrite .p s.scratch.gen.sP).outWrite .q s.scratch.gen.sQ).outWrite
    .dp s.scratch.gen.sDP).outWrite .dq s.scratch.gen.sDQ).outWrite .c s.scratch.gen.sC).complete .none

/-- The conversions of the six fields, in order, and the completion after the last (41_key_fsm.md R203,
R214 item 5). -/
def serializeField (k : KeyField) (t : Bytes) (s : State) : State :=
  match k with
  | .n => { s with scratch.gen.sN := t, fsm := .keyGenerate (.serialize .p) }
  | .p => { s with scratch.gen.sP := t, fsm := .keyGenerate (.serialize .q) }
  | .q => { s with scratch.gen.sQ := t, fsm := .keyGenerate (.serialize .dp) }
  | .dp => { s with scratch.gen.sDP := t, fsm := .keyGenerate (.serialize .dq) }
  | .dq => { s with scratch.gen.sDQ := t, fsm := .keyGenerate (.serialize .c) }
  | .c => generateFinish { s with scratch.gen.sC := t }

/-- One engine step of KEY_GENERATE: the requests of 41_key_fsm.md R214. -/
def generateStep (B : Backend) (s : State) : State :=
  match s.fsm with
  | .keyGenerate .start =>
    if s.e.toNat % 2 = 0 then s.complete .badOperand else drawCandidate B .p s
  | .keyGenerate (.draw w) => drawCandidate B w s
  | .keyGenerate (.fromBytes w) =>
    let r := Request.fromBytes s.scratch.gen.raw
    { s.issue B r with scratch.gen.x := s.answer B r, fsm := .keyGenerate (.lowBits w) }
  | .keyGenerate (.lowBits w) =>
    let r := Request.lowBits s.scratch.gen.x 2
    { s.issue B r with
      fsm := if s.answer B r = 3 then .keyGenerate (.bound w) else .keyGenerate (.increment w) }
  | .keyGenerate (.increment w) =>
    let r := Request.add s.scratch.gen.x 1
    { s.issue B r with scratch.gen.x := s.answer B r, fsm := .keyGenerate (.lowBits w) }
  | .keyGenerate (.bound w) =>
    let r := Request.cmp s.scratch.gen.x (halfBound s.cfg)
    if s.answer B r = Ordering.lt then { s.issue B r with fsm := .keyGenerate (.probe w) }
    else restartAttempt w (s.issue B r)
  | .keyGenerate (.probe w) =>
    let r := Request.isPrime s.scratch.gen.x
    { s.issue B r with
      fsm := if s.answer B r then .keyGenerate (.subOne w) else .keyGenerate (.advance w) }
  | .keyGenerate (.advance w) =>
    let r := Request.add s.scratch.gen.x 4
    { s.issue B r with scratch.gen.x := s.answer B r, fsm := .keyGenerate (.bound w) }
  | .keyGenerate (.subOne w) =>
    let r := Request.sub s.scratch.gen.x 1
    { s.issue B r with scratch.gen.x1 := s.answer B r, fsm := .keyGenerate (.coFactor w) }
  | .keyGenerate (.coFactor w) =>
    let r := Request.coFactor s.scratch.gen.x1 s.e.toNat
    if s.answer B r then restartAttempt w (s.issue B r)
    else
      match w with
      | .p => primeFound .p (s.issue B r)
      | .q => { s.issue B r with fsm := .keyGenerate .distinct }
  | .keyGenerate .distinct =>
    let r := Request.cmp s.scratch.gen.x s.scratch.key.pv
    if s.answer B r = Ordering.eq then restartAttempt .q (s.issue B r) else primeFound .q (s.issue B r)
  | .keyGenerate .modulus =>
    let r := Request.mul s.scratch.key.pv s.scratch.key.qv
    { s.issue B r with scratch.key.nv := s.answer B r, fsm := .keyGenerate (.halfSub .p) }
  | .keyGenerate (.halfSub w) =>
    let r := Request.sub (s.scratch.key.prime w) 1
    { s.issue B r with scratch.gen.x1 := s.answer B r, fsm := .keyGenerate (.halve w) }
  | .keyGenerate (.halve w) =>
    let r := Request.shr1 s.scratch.gen.x1
    { s.issue B r with scratch.gen.t := s.answer B r, fsm := .keyGenerate (.inverse w) }
  | .keyGenerate (.inverse w) =>
    let r := Request.modInv s.e.toNat s.scratch.gen.t
    { s.issue B r with scratch.gen.d := s.answer B r, fsm := .keyGenerate (.parity w) }
  | .keyGenerate (.parity w) =>
    let r := Request.lowBits s.scratch.gen.d 1
    if s.answer B r = 0 then { s.issue B r with fsm := .keyGenerate (.adjust w) }
    else exponentFound w s.scratch.gen.d (s.issue B r)
  | .keyGenerate (.adjust w) =>
    let r := Request.add s.scratch.gen.d s.scratch.gen.t
    exponentFound w (s.answer B r) (s.issue B r)
  | .keyGenerate .coefficient =>
    let r := Request.modInv s.scratch.key.pv s.scratch.key.qv
    { s.issue B r with scratch.key.cv := s.answer B r, fsm := .keyGenerate (.serialize .n) }
  | .keyGenerate (.serialize k) =>
    let r := Request.toBytes (s.scratch.key.get k) (k.width s.cfg)
    serializeField k (s.answer B r) (s.issue B r)
  | _ => s

/-- KEY_GENERATE (41_key_fsm.md R203), from the point the engine is at, with the granted engine steps. A
search that goes on leaves the engine BUSY (R215). -/
def execKeyGenerate (s : State) : Host.Outcome State Fault Refusal :=
  .next (runGranted (generateStep Config.backend) s)

/-! ## KEY_VALIDATE -/

/-- `require c`: go on to a point, or complete with KEY_INVALID (41_key_fsm.md R218). -/
def require (c : Bool) (pt : ValidatePoint) (s : State) : State :=
  if c then { s with fsm := .keyValidate pt } else s.complete .keyInvalid

/-- The point after the conversion of a key field (41_key_fsm.md R218). -/
def afterRead : KeyField → ValidatePoint
  | .n => .read .p
  | .p => .read .q
  | .q => .read .dp
  | .dp => .read .dq
  | .dq => .read .c
  | .c => .residue .p

/-- The check that follows a check made of `p` and then of `q` (41_key_fsm.md R218, V1 to V6, V10, V11). -/
def afterSide (w : Side) (again next : ValidatePoint) : ValidatePoint :=
  match w with
  | .p => again
  | .q => next

/-- One engine step of KEY_VALIDATE: the requests of 41_key_fsm.md R218 in the order written. -/
def validateStep (B : Backend) (s : State) : State :=
  match s.fsm with
  | .keyValidate .start =>
    if allZero (s.keyBytes .p) || allZero (s.keyBytes .q) then s.complete .noKey
    else
      let r := Request.fromBytes (s.keyBytes .n)
      { s.issue B r with scratch.key.nv := s.answer B r, fsm := .keyValidate (.read .p) }
  | .keyValidate (.read k) =>
    let r := Request.fromBytes (s.keyBytes k)
    { s.issue B r with
      scratch.key := s.scratch.key.set k (s.answer B r)
      fsm := .keyValidate (afterRead k) }
  | .keyValidate (.residue w) =>                        -- V1, V2
    let r := Request.lowBits (s.scratch.key.prime w) 2
    require (s.answer B r == 3) (afterSide w (.residue .q) (.prime .p)) (s.issue B r)
  | .keyValidate (.prime w) =>                          -- V3, V4
    let r := Request.isPrime (s.scratch.key.prime w)
    require (s.answer B r) (afterSide w (.prime .q) (.subOne .p)) (s.issue B r)
  | .keyValidate (.subOne w) =>                         -- V5, V6
    let r := Request.sub (s.scratch.key.prime w) 1
    { s.issue B r with scratch.val.t := s.answer B r, fsm := .keyValidate (.coFactor w) }
  | .keyValidate (.coFactor w) =>
    let r := Request.coFactor s.scratch.val.t s.e.toNat
    require (!s.answer B r) (afterSide w (.subOne .q) .product) (s.issue B r)
  | .keyValidate .product =>                            -- V7
    let r := Request.mul s.scratch.key.pv s.scratch.key.qv
    { s.issue B r with scratch.val.t := s.answer B r, fsm := .keyValidate .modulus }
  | .keyValidate .modulus =>
    let r := Request.cmp s.scratch.key.nv s.scratch.val.t
    require (s.answer B r == Ordering.eq) .distinct (s.issue B r)
  | .keyValidate .distinct =>                           -- V8
    let r := Request.cmp s.scratch.key.pv s.scratch.key.qv
    require (s.answer B r != Ordering.eq) .mulC (s.issue B r)
  | .keyValidate .mulC =>                               -- V9
    let r := Request.mul s.scratch.key.cv s.scratch.key.pv
    { s.issue B r with scratch.val.t := s.answer B r, fsm := .keyValidate .coefficient }
  | .keyValidate .coefficient =>
    let r := Request.mod s.scratch.val.t s.scratch.key.qv
    require (s.answer B r == 1) (.halfSub .p) (s.issue B r)
  | .keyValidate (.halfSub w) =>                        -- V10, V11
    let r := Request.sub (s.scratch.key.prime w) 1
    { s.issue B r with scratch.val.t := s.answer B r, fsm := .keyValidate (.halve w) }
  | .keyValidate (.halve w) =>
    let r := Request.shr1 s.scratch.val.t
    { s.issue B r with scratch.val.tp := s.answer B r, fsm := .keyValidate (.parity w) }
  | .keyValidate (.parity w) =>
    let r := Request.lowBits (s.scratch.key.exponent w) 1
    require (s.answer B r == 1) (.mulE w) (s.issue B r)
  | .keyValidate (.mulE w) =>
    let r := Request.mul s.e.toNat (s.scratch.key.exponent w)
    { s.issue B r with scratch.val.t := s.answer B r, fsm := .keyValidate (.reduceE w) }
  | .keyValidate (.reduceE w) =>
    let r := Request.mod s.scratch.val.t s.scratch.val.tp
    { s.issue B r with scratch.val.u := s.answer B r, fsm := .keyValidate (.reduceOne w) }
  | .keyValidate (.reduceOne w) =>
    let r := Request.mod 1 s.scratch.val.tp
    { s.issue B r with scratch.val.v := s.answer B r, fsm := .keyValidate (.congruent w) }
  | .keyValidate (.congruent w) =>
    let r := Request.cmp s.scratch.val.u s.scratch.val.v
    require (s.answer B r == Ordering.eq) (afterSide w (.halfSub .q) .width) (s.issue B r)
  | .keyValidate .width =>                              -- V12
    let r := Request.cmp s.scratch.key.nv (256 ^ (s.cfg.rfs - 1))
    (s.issue B r).complete (if s.answer B r = Ordering.lt then .keyInvalid else .none)
  | _ => s

/-- KEY_VALIDATE (41_key_fsm.md R218), from the point the engine is at, with the granted engine steps. -/
def execKeyValidate (s : State) : Host.Outcome State Fault Refusal :=
  .next (runGranted (validateStep Config.backend) s)

/-! ## KEY_KILL -/

/-- `OutWrite(b, "")` for the five private fields (41_key_fsm.md R221). -/
def State.zeroPrivateKey (s : State) : State :=
  ((((s.outWrite .p []).outWrite .q []).outWrite .dp []).outWrite .dq []).outWrite .c []

/-- The only engine step of KEY_KILL (41_key_fsm.md R221): no request, no failure. -/
def killStep (s : State) : State :=
  match s.fsm with
  | .keyKill => s.zeroPrivateKey.complete .none
  | _ => s

/-- KEY_KILL (41_key_fsm.md R221), with the granted engine steps. -/
def execKeyKill (s : State) : Host.Outcome State Fault Refusal := .next (runGranted killStep s)

end Sys2Proof.Machine
end

