-- ==== Sys2Proof/Machine/Mgf.lean ====
section
/-! DEFINITION. The mask generator (spec/42_mgf_oaep.md R250 to R252) as engine steps, and MGF_EXPAND
(R253). -/

namespace Sys2Proof.Machine

/-- `MGF(z, L)` in closed form: `(H(z ‖ BE32(0)) ‖ H(z ‖ BE32(1)) ‖ ...)[0..L)` (42_mgf_oaep.md R250). The
engine computes it by `mgfStep`, and Laws/Mgf.lean shows that the two agree. -/
def mgf (B : Backend) (hlen : Nat) (z : Bytes) (len : Nat) : Bytes :=
  ((List.range (ceilDiv len hlen)).flatMap fun i => digest B hlen (z ++ be32 i)).take len

/-- The local variables at the start of `MGF(z, L)` (42_mgf_oaep.md R250). -/
def mgfInit (z : Bytes) (len : Nat) : MgfScratch := { z := z, len := len, i := 0, t := [] }

/-- One engine step of `MGF(z, L)` (42_mgf_oaep.md R250, R251), inside the command whose points `at_`
makes; `finish` is the command's local computation with the mask, once its last block is there. -/
def mgfStep (B : Backend) (at_ : MgfPoint → Fsm) (finish : Bytes → State → State) (p : MgfPoint)
    (s : State) : State :=
  match p with
  | .init => { s.issue B .hashInit with fsm := at_ .absorb }
  | .absorb => { s.issue B (.hashAbsorb s.scratch.mgf.z) with fsm := at_ .absorbInt }
  | .absorbInt => { s.issue B (.hashAbsorbInt s.scratch.mgf.i) with fsm := at_ .final }
  | .final =>
    let t := s.scratch.mgf.t ++ s.answer B .hashFinal
    let s' := s.issue B .hashFinal
    if s.scratch.mgf.i + 1 < ceilDiv s.scratch.mgf.len s.cfg.hlen then
      { s' with scratch.mgf.t := t, scratch.mgf.i := s.scratch.mgf.i + 1, fsm := at_ .init }
    else finish (t.take s.scratch.mgf.len) s'

/-- MGF_EXPAND's end: `OutWrite(BLK, out)`, then `complete(NONE)` (42_mgf_oaep.md R253). -/
def expandFinish (t : Bytes) (s : State) : State := (s.outWrite .blk t).complete .none

/-- One engine step of MGF_EXPAND (42_mgf_oaep.md R253). -/
def expandStep (B : Backend) (s : State) : State :=
  match s.fsm with
  | .mgfExpand .start =>
    if bufCap < s.msgLen.toNat ∨ bufCap < s.outLen.toNat then s.complete .badOperand
    else if s.outLen.toNat = 0 then expandFinish [] s
    else
      { s.issue B .hashInit with
        scratch.mgf := mgfInit s.message s.outLen.toNat
        fsm := .mgfExpand (.mgf .absorb) }
  | .mgfExpand (.mgf p) => mgfStep B (fun p => .mgfExpand (.mgf p)) expandFinish p s
  | _ => s

/-- MGF_EXPAND (42_mgf_oaep.md R253), from the point the engine is at, with the granted engine steps. -/
def execMgfExpand (s : State) : Host.Outcome State Fault Refusal :=
  .next (runGranted (expandStep Config.backend) s)

end Sys2Proof.Machine
end

