-- ==== Sys2Proof/Machine/Oaep.lean ====
section
/-! DEFINITION. The OAEP codec (spec/42_mgf_oaep.md): OAEP_ENCODE (R254 to R258) and OAEP_DECODE (R259 to
R272) as engine steps. -/

namespace Sys2Proof.Machine

/-- The remaining engine steps of `HASH(s)` after its HASH.INIT (40_backend_primitives.md R152), inside
the command whose points `at_` makes. -/
def hashStep (B : Backend) (at_ : HashPoint → Fsm) (t : Bytes) (finish : Bytes → State → State)
    (p : HashPoint) (s : State) : State :=
  match p with
  | .absorb => { s.issue B (.hashAbsorb t) with fsm := at_ .final }
  | .final => finish (s.answer B .hashFinal) (s.issue B .hashFinal)

/-! ## OAEP_ENCODE -/

/-- `DB = lhash ‖ zeros(MAXMSG − mlen) ‖ 0x01 ‖ message` (42_mgf_oaep.md R256 step 2), made only past R255's check,
where `PSLEN = MAXMSG − mlen ≥ 0` (log 26). -/
def dataBlock (c : Params) (lhash message : Bytes) : Bytes :=
  lhash ++ zeros (psLen c message.length).toNat ++ [0x01#8] ++ message

/-- After the label hash: step 2 builds DB (42_mgf_oaep.md R256). -/
def encodeLabelled (lhash : Bytes) (s : State) : State :=
  { s with
    scratch.oaep.lhash := lhash
    scratch.oaep.db := dataBlock s.cfg lhash s.message
    fsm := .oaepEncode .seed }

/-- After `dbMask`: step 4 masks DB, and step 5 starts its mask (42_mgf_oaep.md R256). -/
def encodeDbMasked (mask : Bytes) (s : State) : State :=
  { s with
    scratch.oaep.dbMask := mask
    scratch.oaep.mDB := xorBytes s.scratch.oaep.db mask
    scratch.mgf := mgfInit (xorBytes s.scratch.oaep.db mask) s.cfg.hlen
    fsm := .oaepEncode (.seedMask .init) }

/-- After `sMask`: steps 5 and 6, `EM = 0x00 ‖ mSeed ‖ mDB`, and completion (42_mgf_oaep.md R256). -/
def encodeFinish (mask : Bytes) (s : State) : State :=
  (s.outWrite .blk ([0x00#8] ++ xorBytes s.scratch.oaep.seed mask ++ s.scratch.oaep.mDB)).complete .none

/-- One engine step of OAEP_ENCODE (42_mgf_oaep.md R255, R256). -/
def encodeStep (B : Backend) (s : State) : State :=
  match s.fsm with
  | .oaepEncode .start =>
    if bufCap < s.msgLen.toNat ∨ bufCap < s.lblLen.toNat then s.complete .badOperand
    else if maxMsg s.cfg < s.msgLen.toNat then (s.outWrite .blk []).complete .encodingTooLong
    else { s.issue B .hashInit with fsm := .oaepEncode (.label .absorb) }
  | .oaepEncode (.label p) => hashStep B (fun p => .oaepEncode (.label p)) s.labelBytes encodeLabelled p s
  | .oaepEncode .seed =>
    { s.issue B (.rngRead s.cfg.hlen) with
      scratch.oaep.seed := s.answer B (.rngRead s.cfg.hlen)
      scratch.mgf := mgfInit (s.answer B (.rngRead s.cfg.hlen)) (dbLen s.cfg).toNat
      fsm := .oaepEncode (.dbMask .init) }
  | .oaepEncode (.dbMask p) => mgfStep B (fun p => .oaepEncode (.dbMask p)) encodeDbMasked p s
  | .oaepEncode (.seedMask p) => mgfStep B (fun p => .oaepEncode (.seedMask p)) encodeFinish p s
  | _ => s

/-- OAEP_ENCODE (42_mgf_oaep.md R256), from the point the engine is at, with the granted engine steps. -/
def execOaepEncode (s : State) : Host.Outcome State Fault Refusal :=
  .next (runGranted (encodeStep Config.backend) s)

/-! ## OAEP_DECODE -/

/-- The separator scan's variables `found`, `k`, `t` (42_mgf_oaep.md R262, R267). -/
structure Scan where
  found : Bool
  k : Nat
  t : Byte
deriving DecidableEq, Repr

/-- One byte of the scan: `k` and `t` are selected where this is the first non-zero byte (42_mgf_oaep.md
R267). -/
def scanByte (acc : Scan) (j : Nat) (b : Byte) : Scan :=
  let nz := b != 0#8
  let first := nz && !acc.found
  { found := acc.found || nz, k := if first then j else acc.k, t := if first then b else acc.t }

/-- The scan from index `j` on: every byte is visited, with no early exit (42_mgf_oaep.md R267). -/
def scanFrom (acc : Scan) : Nat → Bytes → Scan
  | _, [] => acc
  | j, b :: r => scanFrom (scanByte acc j b) (j + 1) r

/-- The separator scan of `R` (42_mgf_oaep.md R262, R267). -/
def scan (r : Bytes) : Scan := scanFrom { found := false, k := 0, t := 0#8 } 0 r

/-- The acceptance condition and the message of a decoded block: `some` message when
`comp ∧ x = 0 ∧ found ∧ t = 0x01` (42_mgf_oaep.md R266 to R269), all four terms computed on every run. -/
def openDataBlock (hlen : Nat) (chash : Bytes) (x : Byte) (db : Bytes) : Option Bytes :=
  let comp := cteq (db.take hlen) chash
  let r := db.drop hlen
  let sc := scan r
  if comp && (x == 0#8) && sc.found && (sc.t == 0x01#8) then some (r.drop (sc.k + 1)) else none

/-- After the label hash: normalise, split, and start `MGF(mDB, HLEN)` (42_mgf_oaep.md R263 to R265). -/
def decodeLabelled (chash : Bytes) (s : State) : State :=
  { s with
    scratch.oaep.lhash := chash
    scratch.oaep.f := s.paddedBlock
    scratch.oaep.mSeed := (s.paddedBlock.drop 1).take s.cfg.hlen
    scratch.oaep.mDB := s.paddedBlock.drop (1 + s.cfg.hlen)
    scratch.mgf := mgfInit (s.paddedBlock.drop (1 + s.cfg.hlen)) s.cfg.hlen
    fsm := .oaepDecode (.seedMask .init) }

/-- After the seed mask: recompute `seed`, and start `MGF(seed, DBLEN)` (42_mgf_oaep.md R265). -/
def decodeSeedFound (mask : Bytes) (s : State) : State :=
  { s with
    scratch.oaep.sMask := mask
    scratch.oaep.seed := xorBytes mask s.scratch.oaep.mSeed
    scratch.mgf := mgfInit (xorBytes mask s.scratch.oaep.mSeed) (dbLen s.cfg).toNat
    fsm := .oaepDecode (.dbMask .init) }

/-- After the DB mask: the checks, the output and the completion (42_mgf_oaep.md R266 to R270). -/
def decodeFinish (mask : Bytes) (s : State) : State :=
  match openDataBlock s.cfg.hlen s.scratch.oaep.lhash (s.scratch.oaep.f.headD 0#8)
      (xorBytes mask s.scratch.oaep.mDB) with
  | some m => (s.outWrite .msg m).complete .none
  | none => (s.outWrite .msg []).complete .paddingInvalid

/-- One engine step of OAEP_DECODE (42_mgf_oaep.md R260 to R262). -/
def decodeStep (B : Backend) (s : State) : State :=
  match s.fsm with
  | .oaepDecode .start =>
    if s.cfg.rfs < s.blkLen.toNat ∨ bufCap < s.lblLen.toNat then s.complete .badOperand
    else if s.cfg.rfs < 2 * s.cfg.hlen + 2 then (s.outWrite .msg []).complete .configError
    else { s.issue B .hashInit with fsm := .oaepDecode (.label .absorb) }
  | .oaepDecode (.label p) => hashStep B (fun p => .oaepDecode (.label p)) s.labelBytes decodeLabelled p s
  | .oaepDecode (.seedMask p) => mgfStep B (fun p => .oaepDecode (.seedMask p)) decodeSeedFound p s
  | .oaepDecode (.dbMask p) => mgfStep B (fun p => .oaepDecode (.dbMask p)) decodeFinish p s
  | _ => s

/-- OAEP_DECODE (42_mgf_oaep.md R262), from the point the engine is at, with the granted engine steps. -/
def execOaepDecode (s : State) : Host.Outcome State Fault Refusal :=
  .next (runGranted (decodeStep Config.backend) s)

end Sys2Proof.Machine
end

