-- ==== Sys2Proof/Machine/Rsa.lean ====
section
/-! DEFINITION. The RSA cipher (spec/43_rsa_crt.md): RSA_ENCRYPT (R300 to R303) and the CRT schedule of
RSA_DECRYPT (R304 to R317) as engine steps. -/

namespace Sys2Proof.Machine

/-- One engine step of RSA_ENCRYPT (43_rsa_crt.md R301, R302). -/
def encryptStep (B : Backend) (s : State) : State :=
  match s.fsm with
  | .rsaEncrypt .start =>
    if s.blkLen.toNat ≠ s.cfg.rfs then s.complete .badOperand
    else if allZero (s.keyBytes .n) then s.complete .noKey
    else
      let r := Request.fromBytes s.block
      { s.issue B r with scratch.rsa.f := s.answer B r, fsm := .rsaEncrypt .readN }
  | .rsaEncrypt .readN =>
    let r := Request.fromBytes (s.keyBytes .n)
    { s.issue B r with scratch.key.nv := s.answer B r, fsm := .rsaEncrypt .modExp }
  | .rsaEncrypt .modExp =>
    let r := Request.modExp s.scratch.rsa.f s.e.toNat s.scratch.key.nv
    { s.issue B r with scratch.rsa.y := s.answer B r, fsm := .rsaEncrypt .serialize }
  | .rsaEncrypt .serialize =>
    let r := Request.toBytes s.scratch.rsa.y s.cfg.rfs
    ((s.issue B r).outWrite .blk (s.answer B r)).complete .none
  | _ => s

/-- RSA_ENCRYPT (43_rsa_crt.md R302), from the point the engine is at, with the granted engine steps. -/
def execRsaEncrypt (s : State) : Host.Outcome State Fault Refusal :=
  .next (runGranted (encryptStep Config.backend) s)

/-- One engine step of RSA_DECRYPT: the requests of 43_rsa_crt.md R314, with the separate temporary `a` of
R310 (90_conflicts.md C1). -/
def decryptStep (B : Backend) (s : State) : State :=
  match s.fsm with
  | .rsaDecrypt .start =>
    if s.blkLen.toNat ≠ s.cfg.rfs then s.complete .badOperand
    else if allZero (s.keyBytes .p) || allZero (s.keyBytes .q) then s.complete .noKey
    else
      let r := Request.fromBytes s.block
      { s.issue B r with scratch.rsa.g := s.answer B r, fsm := .rsaDecrypt .readP }
  | .rsaDecrypt .readP =>
    let r := Request.fromBytes (s.keyBytes .p)
    { s.issue B r with scratch.key.pv := s.answer B r, fsm := .rsaDecrypt .readQ }
  | .rsaDecrypt .readQ =>
    let r := Request.fromBytes (s.keyBytes .q)
    { s.issue B r with scratch.key.qv := s.answer B r, fsm := .rsaDecrypt .readDp }
  | .rsaDecrypt .readDp =>
    let r := Request.fromBytes (s.keyBytes .dp)
    { s.issue B r with scratch.key.dpv := s.answer B r, fsm := .rsaDecrypt .readDq }
  | .rsaDecrypt .readDq =>
    let r := Request.fromBytes (s.keyBytes .dq)
    { s.issue B r with scratch.key.dqv := s.answer B r, fsm := .rsaDecrypt .readC }
  | .rsaDecrypt .readC =>
    let r := Request.fromBytes (s.keyBytes .c)
    { s.issue B r with scratch.key.cv := s.answer B r, fsm := .rsaDecrypt .reduceP }
  | .rsaDecrypt .reduceP =>
    let r := Request.mod s.scratch.rsa.g s.scratch.key.pv
    { s.issue B r with scratch.rsa.jp := s.answer B r, fsm := .rsaDecrypt .reduceQ }
  | .rsaDecrypt .reduceQ =>
    let r := Request.mod s.scratch.rsa.g s.scratch.key.qv
    { s.issue B r with scratch.rsa.jq := s.answer B r, fsm := .rsaDecrypt .expP }
  | .rsaDecrypt .expP =>
    let r := Request.modExp s.scratch.rsa.jp s.scratch.key.dpv s.scratch.key.pv
    { s.issue B r with scratch.rsa.jp := s.answer B r, fsm := .rsaDecrypt .expQ }
  | .rsaDecrypt .expQ =>
    let r := Request.modExp s.scratch.rsa.jq s.scratch.key.dqv s.scratch.key.qv
    { s.issue B r with scratch.rsa.jq := s.answer B r, fsm := .rsaDecrypt .crossReduce }
  | .rsaDecrypt .crossReduce =>
    let r := Request.mod s.scratch.rsa.jp s.scratch.key.qv
    { s.issue B r with scratch.rsa.a := s.answer B r, fsm := .rsaDecrypt .compare }
  | .rsaDecrypt .compare =>
    let r := Request.cmp s.scratch.rsa.a s.scratch.rsa.jq
    { s.issue B r with
      fsm := if s.answer B r = Ordering.gt then .rsaDecrypt .adjust else .rsaDecrypt .subtract }
  | .rsaDecrypt .adjust =>
    let r := Request.add s.scratch.rsa.jq s.scratch.key.qv
    { s.issue B r with scratch.rsa.jq := s.answer B r, fsm := .rsaDecrypt .subtract }
  | .rsaDecrypt .subtract =>
    let r := Request.sub s.scratch.rsa.jq s.scratch.rsa.a
    { s.issue B r with scratch.rsa.jq := s.answer B r, fsm := .rsaDecrypt .mulC }
  | .rsaDecrypt .mulC =>
    let r := Request.mul s.scratch.rsa.jq s.scratch.key.cv
    { s.issue B r with scratch.rsa.t := s.answer B r, fsm := .rsaDecrypt .reduceH }
  | .rsaDecrypt .reduceH =>
    let r := Request.mod s.scratch.rsa.t s.scratch.key.qv
    { s.issue B r with scratch.rsa.h := s.answer B r, fsm := .rsaDecrypt .mulP }
  | .rsaDecrypt .mulP =>
    let r := Request.mul s.scratch.rsa.h s.scratch.key.pv
    { s.issue B r with scratch.rsa.t := s.answer B r, fsm := .rsaDecrypt .addJp }
  | .rsaDecrypt .addJp =>
    let r := Request.add s.scratch.rsa.t s.scratch.rsa.jp
    { s.issue B r with scratch.rsa.r := s.answer B r, fsm := .rsaDecrypt .serialize }
  | .rsaDecrypt .serialize =>
    let r := Request.toBytes s.scratch.rsa.r s.cfg.rfs
    ((s.issue B r).outWrite .blk (s.answer B r)).complete .none
  | _ => s

/-- RSA_DECRYPT (43_rsa_crt.md R306), from the point the engine is at, with the granted engine steps. -/
def execRsaDecrypt (s : State) : Host.Outcome State Fault Refusal :=
  .next (runGranted (decryptStep Config.backend) s)

end Sys2Proof.Machine
end

