-- ==== Sys2Proof/Machine/Dispatch.lean ====
section
/-! DEFINITION. The dispatch of a command to its meaning, one arm per constructor of Instr. -/

namespace Sys2Proof.Machine

def exec (i : Instr) (s : State) : Host.Outcome State Fault Refusal :=
  match i with
  -- mask generation and OAEP codec (spec/42_mgf_oaep.md)
  | .mgfExpand => Sys2Proof.Machine.execMgfExpand s
  | .oaepEncode => Sys2Proof.Machine.execOaepEncode s
  | .oaepDecode => Sys2Proof.Machine.execOaepDecode s
  -- RSA cipher (spec/43_rsa_crt.md)
  | .rsaEncrypt => Sys2Proof.Machine.execRsaEncrypt s
  | .rsaDecrypt => Sys2Proof.Machine.execRsaDecrypt s
  -- key-pair FSM (spec/41_key_fsm.md)
  | .keyGenerate => Sys2Proof.Machine.execKeyGenerate s
  | .keyValidate => Sys2Proof.Machine.execKeyValidate s
  | .keyKill => Sys2Proof.Machine.execKeyKill s

end Sys2Proof.Machine
end

