-- ==== Sys2Proof/Machine/Window.lean ====
section
/-! DEFINITION. The host's accesses to the window (spec/20_memory.md R80 to R92): the address map, the
control registers, the buffers, the busy rules, and the bus error. -/

namespace Sys2Proof.Machine

/-! ## The address map (spec/20_memory.md R81) -/

/-- The byte offset of a control register (10_state.md R31). -/
def regOffset : Reg → Addr
  | .id => 0x000#16
  | .cfgRfs => 0x004#16
  | .cfgHlen => 0x008#16
  | .ctrl => 0x00C#16
  | .cmd => 0x010#16
  | .status => 0x014#16
  | .msgLen => 0x018#16
  | .lblLen => 0x01C#16
  | .blkLen => 0x020#16
  | .outLen => 0x024#16
  | .e => 0x028#16

/-- The control register at an address (10_state.md R31). -/
def regAt (a : Addr) : Option Reg :=
  match a with
  | 0x000#16 => some .id
  | 0x004#16 => some .cfgRfs
  | 0x008#16 => some .cfgHlen
  | 0x00C#16 => some .ctrl
  | 0x010#16 => some .cmd
  | 0x014#16 => some .status
  | 0x018#16 => some .msgLen
  | 0x01C#16 => some .lblLen
  | 0x020#16 => some .blkLen
  | 0x024#16 => some .outLen
  | 0x028#16 => some .e
  | _ => none

/-- The buffer or key region an address lies in (20_memory.md R81). -/
def bufAt (a : Addr) : Option Buf :=
  match a.toNat / 0x400 with
  | 1 => some .msg
  | 2 => some .lbl
  | 3 => some .blk
  | 4 => some .n
  | 5 => some .p
  | 6 => some .q
  | 7 => some .dp
  | 8 => some .dq
  | 9 => some .c
  | _ => none

/-! ## Control registers -/

/-- What a control register reads as, with reserved bits 0 and CMD 0 (20_memory.md R88, R90). -/
def State.readReg (s : State) : Reg → Word
  | .id => idValue
  | .cfgRfs => BitVec.ofNat 32 s.cfg.rfs
  | .cfgHlen => BitVec.ofNat 32 s.cfg.hlen
  | .ctrl => s.ctrlWord
  | .cmd => 0#32
  | .status => s.status.word
  | .msgLen => s.msgLen
  | .lblLen => s.lblLen
  | .blkLen => s.blkLen
  | .outLen => s.outLen
  | .e => s.e

/-- A write is dropped and OVR set, where the engine is busy (20_memory.md R91). -/
def State.ifIdle (s : State) (s' : State) : State :=
  if s.status.busy then { s with status := s.status.overrun } else s'

/-- A host write of a control register (20_memory.md R89, R91; log 9 for a read-only one). -/
def State.writeReg (s : State) (r : Reg) (w : Word) : State :=
  match r with
  | .id => s
  | .cfgRfs => s
  | .cfgHlen => s
  | .ctrl => { s with ie := w.getLsbD 0 }
  | .cmd => s.writeCmd w
  | .status => s.writeStatus w
  | .msgLen => s.ifIdle { s with msgLen := w }
  | .lblLen => s.ifIdle { s with lblLen := w }
  | .blkLen => s.ifIdle { s with blkLen := w }
  | .outLen => s.ifIdle { s with outLen := w }
  | .e => s.ifIdle { s with e := w }

/-! ## Buffers -/

/-- The 32-bit word of four bytes, the first in bits 31:24 (20_memory.md R84). -/
def wordOfBytes (b0 b1 b2 b3 : Byte) : Word := b0 ++ b1 ++ b2 ++ b3

/-- The four bytes of a 32-bit word, `w[31:24]` first (20_memory.md R84). -/
def bytesOfWord (w : Word) : Bytes :=
  [w.extractLsb' 24 8, w.extractLsb' 16 8, w.extractLsb' 8 8, w.extractLsb' 0 8]

/-- An 8-bit read of a buffer: the stored byte, or any value while busy (20_memory.md R88, R90). -/
def State.readBuf8 (B : Backend) (s : State) (a : Addr) : State :=
  if s.status.busy then { s with resp := .data8 (B.busyByte s.drawPos), drawPos := s.drawPos + 1 }
  else { s with resp := .data8 (readByte s.mem a.toNat) }

/-- A 32-bit read of a buffer: four stored bytes, or any value while busy (20_memory.md R84, R88, R90). -/
def State.readBuf32 (B : Backend) (s : State) (a : Addr) : State :=
  if s.status.busy then
    { s with
      resp := .data32 (wordOfBytes (B.busyByte s.drawPos) (B.busyByte (s.drawPos + 1))
        (B.busyByte (s.drawPos + 2)) (B.busyByte (s.drawPos + 3)))
      drawPos := s.drawPos + 4 }
  else
    { s with
      resp := .data32 (wordOfBytes (readByte s.mem a.toNat) (readByte s.mem (a.toNat + 1))
        (readByte s.mem (a.toNat + 2)) (readByte s.mem (a.toNat + 3))) }

/-- A write of bytes to a buffer from an address on: stored, or dropped with OVR while busy (20_memory.md
R84, R89, R91). -/
def State.writeBuf (s : State) (a : Addr) (t : Bytes) : State :=
  s.ifIdle { s with mem := writeBytes s.mem a.toNat t }

/-! ## An access -/

/-- The bus answers a write. -/
def State.ack (s : State) : State := { s with resp := .ack }

/-- One host access (20_memory.md R82 to R92). A bus error changes nothing (R86, R87; log 6). -/
def hostAccess (B : Backend) (x : Access) (s : State) : Host.Outcome State Fault Refusal :=
  match x with
  | .read8 a =>
    match bufAt a with
    | some _ => .next (s.readBuf8 B a)
    | none => .fault (.busError x)
  | .read32 a =>
    if a.toNat % 4 ≠ 0 then .fault (.busError x)
    else
      match regAt a, bufAt a with
      | some r, _ => .next { s with resp := .data32 (s.readReg r) }
      | none, some _ => .next (s.readBuf32 B a)
      | none, none => .fault (.busError x)
  | .write8 a v =>
    match bufAt a with
    | some _ => .next (s.writeBuf a [v]).ack
    | none => .fault (.busError x)
  | .write32 a v =>
    if a.toNat % 4 ≠ 0 then .fault (.busError x)
    else
      match regAt a, bufAt a with
      | some r, _ => .next (s.writeReg r v).ack
      | none, some _ => .next (s.writeBuf a (bytesOfWord v)).ack
      | none, none => .fault (.busError x)

/-- One poll of STATUS by `wait`: a 32-bit read of 0x014 (30_encoding.md R129; log 12). -/
def State.poll (s : State) : State := { s with resp := .data32 (s.readReg .status) }

end Sys2Proof.Machine
end

