-- ==== Sys2Proof/Machine/Step.lean ====
section
/-! DEFINITION. One step of the machine: the next event of the schedule (spec/20_memory.md R94,
spec/10_state.md R49; log 2), and how a command word comes to be run next (log 3). -/

namespace Sys2Proof.Machine

/-- The engine's turn: the granted engine steps of the command it runs (10_state.md R48, R49). In IDLE it
waits (70_reset_and_hazards.md R401). -/
def engineTurn (s : State) : Host.Outcome State Fault Refusal :=
  match s.fsm.op with
  | none => .next { s with grant := 0 }
  | some .illegal => execIllegal s
  | some (.cmd i) => exec i s

/-- One step: the next event. With no event left the engine goes on by itself (log 19). -/
def step (s : State) : Host.Outcome State Fault Refusal :=
  match s.sched with
  | [] => engineTurn { s with grant := 1 }
  | .engine n :: rest => engineTurn { s with sched := rest, grant := n }
  | .host x :: rest => hostAccess Config.backend x { s with sched := rest }
  | .wait :: rest =>
    if s.status.done then .next { s.poll with sched := rest } else engineTurn { s.poll with grant := 1 }
  | .reset :: rest => .next { s with sched := rest }.resetEvent

/-- How many engine steps `withFetchWord` grants: more than any command but KEY_GENERATE ever makes (the
most is 4096 requests, MGF_EXPAND with OUTLEN = 1024 and HLEN = 1, 42_mgf_oaep.md R251; log 3). -/
def fetchGrant : Nat := 8192

/-- The state in which the command word `w` has just been accepted (10_state.md R36) and the engine moves
next, so that the very next step runs it (log 3). -/
def State.withFetchWord (s : State) (nbits w : Nat) : State :=
  { s.accept (BitVec.ofNat 32 (w % 2 ^ nbits)) with sched := .engine fetchGrant :: s.sched }

end Sys2Proof.Machine
end

