-- ==== Sys2Proof/Machine/HostProgram.lean ====
section
/-! DEFINITION. The host program syntax (spec/30_encoding.md R129, R130) and the pseudo-operations (R131),
each as the list of events it expands to. -/

namespace Sys2Proof.Machine

/-- `w32 ADDR, VALUE`. -/
def hostW32 (a : Addr) (v : Word) : List Event := [.host (.write32 a v)]

/-- `r32 ADDR`. -/
def hostR32 (a : Addr) : List Event := [.host (.read32 a)]

/-- `w8 ADDR, VALUE`. -/
def hostW8 (a : Addr) (v : Byte) : List Event := [.host (.write8 a v)]

/-- `r8 ADDR`. -/
def hostR8 (a : Addr) : List Event := [.host (.read8 a)]

/-- `wbuf ADDR, HEX`: one 8-bit write per byte, in address order. -/
def hostWbuf : Addr → Bytes → List Event
  | _, [] => []
  | a, b :: t => .host (.write8 a b) :: hostWbuf (a + 1#16) t

/-- The window base of a buffer as a bus address (20_memory.md R81). -/
def bufAddr (b : Buf) : Addr := BitVec.ofNat 16 (bufBase b)

/-- `cmd MNEMONIC`: `(0x0010, 32, write, word)` (30_encoding.md R130). -/
def hostCmd (i : Instr) : List Event := hostW32 (regOffset .cmd) (encode i)

/-- `wait`: poll STATUS until DONE is 1. -/
def hostWait : List Event := [.wait]

/-- `run MNEMONIC` (30_encoding.md R131). -/
def hostRun (i : Instr) : List Event := hostCmd i ++ hostWait

/-- `seal`: encode, then encrypt (30_encoding.md R131). -/
def hostSeal : List Event := hostRun .oaepEncode ++ hostRun .rsaEncrypt

/-- `open`: decrypt, then decode (30_encoding.md R131). -/
def hostOpen : List Event := hostRun .rsaDecrypt ++ hostRun .oaepDecode

/-- `ack`: clear DONE and OVR (30_encoding.md R131). -/
def hostAck : List Event := hostW32 (regOffset .status) 0x0000000A#32

/-- `loadkey`: every field at its region base, big-endian, then E (30_encoding.md R131). -/
def hostLoadKey (n p q dp dq c : Bytes) (e : Word) : List Event :=
  hostWbuf (bufAddr .n) n ++ hostWbuf (bufAddr .p) p ++ hostWbuf (bufAddr .q) q ++ hostWbuf (bufAddr .dp) dp
    ++ hostWbuf (bufAddr .dq) dq ++ hostWbuf (bufAddr .c) c ++ hostW32 (regOffset .e) e

end Sys2Proof.Machine
end

