-- ==== Sys2Proof/Machine/Closed.lean ====
section
/-! DEFINITION. What each command computes, in closed form, and how many requests it makes: the terms the
statements speak in. The machine does not use them; Laws/ and the statements relate them to its steps. -/

namespace Sys2Proof.Machine

/-! ## Mask generation and OAEP (spec/42_mgf_oaep.md) -/

/-- How many requests `MGF(z, L)` makes: `4·⌈L/HLEN⌉` (42_mgf_oaep.md R251). -/
def mgfRequests (hlen len : Nat) : Nat := 4 * ceilDiv len hlen

/-- The block EM of OAEP_ENCODE, from the label, the message and the seed (42_mgf_oaep.md R256). -/
def encodedBlock (B : Backend) (c : Params) (label message seed : Bytes) : Bytes :=
  let db := dataBlock c (digest B c.hlen label) message
  let mDB := xorBytes db (mgf B c.hlen seed (dbLen c).toNat)
  let mSeed := xorBytes seed (mgf B c.hlen mDB c.hlen)
  [0x00#8] ++ mSeed ++ mDB

/-- The message OAEP_DECODE finds in a normalised block of RFS bytes, if it accepts it (42_mgf_oaep.md
R262 to R269). -/
def decodedMessage (B : Backend) (c : Params) (label f : Bytes) : Option Bytes :=
  let mSeed := (f.drop 1).take c.hlen
  let mDB := f.drop (1 + c.hlen)
  let seed := xorBytes (mgf B c.hlen mDB c.hlen) mSeed
  let db := xorBytes (mgf B c.hlen seed (dbLen c).toNat) mDB
  openDataBlock c.hlen (digest B c.hlen label) (f.headD 0#8) db

/-- The engine steps of OAEP_ENCODE past its checks (42_mgf_oaep.md R257). -/
def encodeRequests (c : Params) : Nat := 3 + 1 + mgfRequests c.hlen (dbLen c).toNat + mgfRequests c.hlen c.hlen

/-- The engine steps of OAEP_DECODE past its checks (42_mgf_oaep.md R272). -/
def decodeRequests (c : Params) : Nat := 3 + mgfRequests c.hlen c.hlen + mgfRequests c.hlen (dbLen c).toNat

/-- The trace of `HASH(s)` (40_backend_primitives.md R152). -/
def hashTrace (t : Bytes) : List Request := [.hashInit, .hashAbsorb t, .hashFinal]

/-- The trace of `MGF(z, L)` (42_mgf_oaep.md R251). -/
def mgfTrace (hlen : Nat) (z : Bytes) (len : Nat) : List Request :=
  (List.range (ceilDiv len hlen)).flatMap fun i =>
    [.hashInit, .hashAbsorb z, .hashAbsorbInt i, .hashFinal]

/-- The kind of a request and the lengths of its byte arguments, which is all that data independence
allows to matter (42_mgf_oaep.md R272). A counter is public. -/
def Request.shape : Request → Request
  | .hashAbsorb t => .hashAbsorb (zeros t.length)
  | r => r

/-! ## RSA (spec/43_rsa_crt.md) -/

/-- Steps 4 and 5 of the CRT schedule, from the values `jp` and `jq` that the two exponentiations of step 3
answer (43_rsa_crt.md R310, R311). -/
def crtCombine (p q c jp jq : Nat) : Nat :=
  let a := jp % q
  let diff := (if jq < a then jq + q else jq) - a
  diff * c % q * p + jp

/-- The result `r` of the CRT schedule with every request in its domain (43_rsa_crt.md R306 to R311). -/
def crtResult (g p q dp dq c : Nat) : Nat := crtCombine p q c ((g % p) ^ dp % p) ((g % q) ^ dq % q)

/-- Requests 11 to 18 of 43_rsa_crt.md R314, from the values of step 3; request 12a only when request 12 answers
`+1`. -/
def combineTrace (rfs p q c jp jq : Nat) : List Request :=
  let a := jp % q
  let jq' := if jq < a then jq + q else jq
  let h := (jq' - a) * c % q
  [Request.mod jp q, Request.cmp a jq] ++ (if jq < a then [Request.add jq q] else [])
  ++ [Request.sub jq' a, Request.mul (jq' - a) c, Request.mod ((jq' - a) * c) q, Request.mul h p,
    Request.add (h * p) jp, Request.toBytes (h * p + jp) rfs]

/-- The requests of 43_rsa_crt.md R314 in order, 18 or 19 of them, where step 3 answers `jp` and `jq`. -/
def decryptTraceFrom (sBlk sP sQ sDp sDq sC : Bytes) (rfs g p q dp dq c jp jq : Nat) : List Request :=
  [Request.fromBytes sBlk, Request.fromBytes sP, Request.fromBytes sQ, Request.fromBytes sDp,
    Request.fromBytes sDq, Request.fromBytes sC, Request.mod g p, Request.mod g q,
    Request.modExp (g % p) dp p, Request.modExp (g % q) dq q] ++ combineTrace rfs p q c jp jq

/-- The CRT schedule of 43_rsa_crt.md R314, with every request in its domain. -/
def decryptTrace (sBlk sP sQ sDp sDq sC : Bytes) (rfs g p q dp dq c : Nat) : List Request :=
  decryptTraceFrom sBlk sP sQ sDp sDq sC rfs g p q dp dq c ((g % p) ^ dp % p) ((g % q) ^ dq % q)

/-- The values of the key fields as big integers (10_state.md R47). -/
def State.keyValue (s : State) (k : KeyField) : Nat := fromBytes (s.keyBytes k)

/-! ## The key FSM (spec/41_key_fsm.md) -/

/-- Where the draws stand: the random stream's position and the next free value. -/
structure DrawPoint where
  rng : Nat
  draw : Nat
deriving DecidableEq, Repr

/-- The least number `≥ x` that is 3 modulo 4 (41_key_fsm.md R205). -/
def residueUp (x : Nat) : Nat := x + (3 - x % 4)

/-- The candidate an attempt starts from: `HRFS` random bytes, the top bit forced, big-endian, raised to
3 modulo 4 (41_key_fsm.md R204, R205). -/
def firstCandidate (B : Backend) (c : Params) (d : DrawPoint) : Nat :=
  residueUp (fromBytes (forceTopBit (randomBytes B d.rng (hrfs c))))

/-- The draws after one primality test (40_backend_primitives.md R154, R168). -/
def DrawPoint.probed (B : Backend) (d : DrawPoint) (x : Nat) : DrawPoint :=
  { rng := d.rng + B.primeReads d.draw x, draw := d.draw + 1 }

/-- The draws after an attempt's random read (41_key_fsm.md R204). -/
def DrawPoint.read (d : DrawPoint) (k : Nat) : DrawPoint := { d with rng := d.rng + k }

/-- Where the draws stand after a request inside its domain: RNG.READ and ISPRIME move them
(40_backend_primitives.md R153, R154, R168). -/
def DrawPoint.after (B : Backend) (d : DrawPoint) : Request → DrawPoint
  | .rngRead k => d.read k
  | .isPrime x => d.probed B x
  | _ => d

/-- The requests that raise a number to 3 modulo 4: LOWBITS and ADD alternating (41_key_fsm.md R205, R214). -/
def residueTrace (x : Nat) : List Request :=
  (List.range (3 - x % 4)).flatMap (fun i => [Request.lowBits (x + i) 2, Request.add (x + i) 1])
    ++ [Request.lowBits (residueUp x) 2]

/-- The requests of an attempt up to its first candidate (41_key_fsm.md R214 item 1). -/
def candidateTrace (B : Backend) (c : Params) (d : DrawPoint) : List Request :=
  let raw := forceTopBit (randomBytes B d.rng (hrfs c))
  [Request.rngRead (hrfs c), Request.fromBytes raw] ++ residueTrace (fromBytes raw)

/-- The requests of the checks of a prime found: the co-factor check, and, for `q` past it, the comparison
with `p` (41_key_fsm.md R208, R209, R214 item 1). -/
def checkTrace (e : Nat) (avoid : Option Nat) (x : Nat) : List Request :=
  [Request.sub x 1, Request.coFactor (x - 1) e] ++
    match avoid with
    | none => []
    | some p => if Nat.gcd (x - 1) e = 1 then [.cmp x p] else []

/-- The upward search from a candidate: `Probes B c x d r d' tr` says that it ends with `r`, the accepted
candidate, or none at the half-width bound, that it leaves the draws at `d'`, and that it makes the requests
`tr` (41_key_fsm.md R206, R207, R214). -/
inductive Probes (B : Backend) (c : Params) :
    Nat → DrawPoint → Option Nat → DrawPoint → List Request → Prop
  | bound {x d} : halfBound c ≤ x → Probes B c x d none d [Request.cmp x (halfBound c)]
  | hit {x d} : x < halfBound c → B.primeAnswer d.draw x = true →
      Probes B c x d (some x) (d.probed B x) [Request.cmp x (halfBound c), Request.isPrime x]
  | miss {x d r d' tr} : x < halfBound c → B.primeAnswer d.draw x = false →
      Probes B c (x + 4) (d.probed B x) r d' tr →
      Probes B c x d r d' ([Request.cmp x (halfBound c), Request.isPrime x, Request.add x 4] ++ tr)

/-- What an attempt may return: its co-factor with `e` is 1, and it is not the prime to avoid
(41_key_fsm.md R208, R209). -/
def acceptable (e : Nat) (avoid : Option Nat) (x : Nat) : Prop :=
  Nat.gcd (x - 1) e = 1 ∧ avoid ≠ some x

/-- `FindPrime(ev, avoid)`: `FindsPrime B c e avoid d x d' tr` says that from the draws `d` it returns `x`,
leaves the draws at `d'`, and makes the requests `tr`, those of every attempt in order (41_key_fsm.md R203,
R214 item 1). It is false of every `x` when the search never ends (R215). -/
inductive FindsPrime (B : Backend) (c : Params) (e : Nat) (avoid : Option Nat) :
    DrawPoint → Nat → DrawPoint → List Request → Prop
  | found {d x d' tr} : Probes B c (firstCandidate B c d) (d.read (hrfs c)) (some x) d' tr →
      acceptable e avoid x →
      FindsPrime B c e avoid d x d' (candidateTrace B c d ++ tr ++ checkTrace e avoid x)
  | tooWide {d x d' d'' tr tr'} : Probes B c (firstCandidate B c d) (d.read (hrfs c)) none d' tr →
      FindsPrime B c e avoid d' x d'' tr' →
      FindsPrime B c e avoid d x d'' (candidateTrace B c d ++ tr ++ tr')
  | rejected {d x y d' d'' tr tr'} : Probes B c (firstCandidate B c d) (d.read (hrfs c)) (some y) d' tr →
      ¬ acceptable e avoid y → FindsPrime B c e avoid d' x d'' tr' →
      FindsPrime B c e avoid d x d'' (candidateTrace B c d ++ tr ++ checkTrace e avoid y ++ tr')

/-- `MODINV(a, m)` at a draw position: the inverse inside its domain, any value outside
(40_backend_primitives.md R163, R169). -/
def inverseAt (B : Backend) (draw a m : Nat) : Nat :=
  if 1 ≤ m ∧ Nat.gcd a m = 1 then modInverse a m else B.bigAny draw

/-- How many free values `MODINV(a, m)` draws: one outside its domain (40_backend_primitives.md R169). -/
def inverseDraws (a m : Nat) : Nat := (Request.modInv a m).draws

/-- `CrtExp(x, ev)`: the inverse of `e` modulo `t = (x − 1)/2`, with `t` added when it is even
(41_key_fsm.md R211). It is used where `gcd(x − 1, e) = 1` and `x ≥ 3`, so that MODINV is in its domain. -/
def crtExponent (x e : Nat) : Nat :=
  let t := (x - 1) / 2
  let d := modInverse e t
  if d % 2 = 0 then d + t else d

/-- The requests of `CrtExp(x, ev)` (41_key_fsm.md R211, R214 item 3); ADD only if the parity was 0. -/
def exponentTrace (x e : Nat) : List Request :=
  let t := (x - 1) / 2
  let d := modInverse e t
  [Request.sub x 1, Request.shr1 (x - 1), Request.modInv e t, Request.lowBits d 1]
    ++ (if d % 2 = 0 then [Request.add d t] else [])

/-- The requests of KEY_GENERATE's closing, from the coefficient on: MODINV and the six conversions
(41_key_fsm.md R214 items 4 and 5). -/
def serializeTrace (c : Params) (n p q dp dq cv : Nat) : List Request :=
  [.modInv p q, .toBytes n c.rfs, .toBytes p (hrfs c), .toBytes q (hrfs c), .toBytes dp (hrfs c),
    .toBytes dq (hrfs c), .toBytes cv (hrfs c)]

/-- The requests of KEY_GENERATE after both primes are found (41_key_fsm.md R214 items 2 to 5), for the
coefficient `cv`. -/
def closingTrace (c : Params) (e p q cv : Nat) : List Request :=
  [Request.mul p q] ++ exponentTrace p e ++ exponentTrace q e
    ++ serializeTrace c (p * q) p q (crtExponent p e) (crtExponent q e) cv

/-- The storage after KEY_GENERATE wrote the six regions (41_key_fsm.md R203, R213), for the primes `p`
and `q` and the exponents and the coefficient computed from them. -/
def generatedRegions (s : State) (p q dp dq c : Nat) : State :=
  ((((((s.outWrite .n (toBytes (p * q) s.cfg.rfs)).outWrite .p (toBytes p (hrfs s.cfg))).outWrite
    .q (toBytes q (hrfs s.cfg))).outWrite .dp (toBytes dp (hrfs s.cfg))).outWrite
    .dq (toBytes dq (hrfs s.cfg))).outWrite .c (toBytes c (hrfs s.cfg)))

/-- The checks V1 to V12 of KEY_VALIDATE that need no primality answer, all of them (41_key_fsm.md R218). -/
def validNumbers (c : Params) (e : Nat) (n p q dp dq cv : Nat) : Prop :=
  p % 4 = 3 ∧ q % 4 = 3 ∧ Nat.gcd (p - 1) e = 1 ∧ Nat.gcd (q - 1) e = 1 ∧ n = p * q ∧ p ≠ q ∧
  cv * p % q = 1 ∧
  dp % 2 = 1 ∧ e * dp % ((p - 1) / 2) = 1 % ((p - 1) / 2) ∧
  dq % 2 = 1 ∧ e * dq % ((q - 1) / 2) = 1 % ((q - 1) / 2) ∧
  256 ^ (c.rfs - 1) ≤ n

/-- The answers of V3 and V4, the two primality tests, at the draws KEY_VALIDATE starts from
(41_key_fsm.md R218). -/
def primesAccepted (B : Backend) (draw p q : Nat) : Prop :=
  B.primeAnswer draw p = true ∧ B.primeAnswer (draw + 1) q = true

/-- The check V10 of an exponent `d` of a prime `x`, as its two `require`s: the requests of each, and whether
it passes (41_key_fsm.md R218). -/
def exponentChecks (e x d : Nat) : List (List Request × Bool) :=
  let t := (x - 1) / 2
  [([Request.sub x 1, Request.shr1 (x - 1), Request.lowBits d 1], d % 2 == 1),
   ([Request.mul e d, Request.mod (e * d) t, Request.mod 1 t, Request.cmp (e * d % t) (1 % t)],
    e * d % t == 1 % t)]

/-- The checks V1 to V12 of KEY_VALIDATE in their order, each with its requests and whether it passes, for
key values and the draw the first primality test is made at (41_key_fsm.md R218; log 16). -/
def validateChecks (B : Backend) (c : Params) (draw e n p q dp dq cv : Nat) : List (List Request × Bool) :=
  [([Request.lowBits p 2], p % 4 == 3), ([Request.lowBits q 2], q % 4 == 3),
   ([Request.isPrime p], B.primeAnswer draw p), ([Request.isPrime q], B.primeAnswer (draw + 1) q),
   ([Request.sub p 1, Request.coFactor (p - 1) e], Nat.gcd (p - 1) e == 1),
   ([Request.sub q 1, Request.coFactor (q - 1) e], Nat.gcd (q - 1) e == 1),
   ([Request.mul p q, Request.cmp n (p * q)], n == p * q), ([Request.cmp p q], p != q),
   ([Request.mul cv p, Request.mod (cv * p) q], cv * p % q == 1)]
  ++ exponentChecks e p dp ++ exponentChecks e q dq
  ++ [([Request.cmp n (256 ^ (c.rfs - 1))], decide (256 ^ (c.rfs - 1) ≤ n))]

/-- The requests of checks made in order, up to and including those of the first that fails
(41_key_fsm.md R218, R220). -/
def upToFailure : List (List Request × Bool) → List Request
  | [] => []
  | (r, true) :: t => r ++ upToFailure t
  | (r, false) :: _ => r

end Sys2Proof.Machine
end

