-- ==== Sys2Proof/Safety.lean ====
section
/-! DEFINITION. What counts as a good state and a disciplined host, in the terms claims use, and the named
premises on the backends (spec/00_scope.md R14), which the model assumes nowhere. -/

namespace Sys2Proof.Machine

/-- The invariant of the engine: the storage keeps its canonical form inside the window's buffers
(20_memory.md R81; log 14), BUSY is 1 exactly while the FSM runs (10_state.md R38), STATUS is in a legal
state (R37), and in IDLE all scratch is zero (R50). -/
structure Inv (s : State) : Prop where
  mem : Memory.wf s.mem = true
  busy : s.status.busy = !s.fsm.isIdle
  status : s.status.legal = true
  scratch : s.fsm.isIdle = true → s.scratch = Scratch.zero

/-- A prime candidate of KEY_GENERATE: 3 modulo 4, and of exactly the half-width (41_key_fsm.md R204 to
R207, R216 law 1). -/
def halfWidth (c : Params) (x : Nat) : Prop := x % 4 = 3 ∧ 2 ^ (8 * hrfs c - 1) ≤ x ∧ x < halfBound c

/-- What the key FSM's variables hold at each of its points (41_key_fsm.md R204 to R207, R209). -/
def GenInv (s : State) : Prop :=
  let x := s.scratch.gen.x
  let raw := s.scratch.gen.raw
  let low := 2 ^ (8 * hrfs s.cfg - 1)
  let p := s.scratch.key.pv
  let q := s.scratch.key.qv
  let side : Side → Prop := fun w => w = Side.q → halfWidth s.cfg p
  let both : Prop := halfWidth s.cfg p ∧ halfWidth s.cfg q ∧ p ≠ q
  match s.fsm with
  | .keyGenerate .start => True
  | .keyGenerate (.draw w) => side w
  | .keyGenerate (.fromBytes w) => side w ∧ low ≤ fromBytes raw ∧ fromBytes raw < halfBound s.cfg
  | .keyGenerate (.lowBits w) => side w ∧ low ≤ x ∧ residueUp x < halfBound s.cfg
  | .keyGenerate (.increment w) => side w ∧ low ≤ x ∧ x % 4 ≠ 3 ∧ residueUp x < halfBound s.cfg
  | .keyGenerate (.bound w) => side w ∧ low ≤ x ∧ x % 4 = 3
  | .keyGenerate (.probe w) => side w ∧ halfWidth s.cfg x
  | .keyGenerate (.advance w) => side w ∧ halfWidth s.cfg x
  | .keyGenerate (.subOne w) => side w ∧ halfWidth s.cfg x
  | .keyGenerate (.coFactor w) => side w ∧ halfWidth s.cfg x
  | .keyGenerate .distinct => halfWidth s.cfg p ∧ halfWidth s.cfg x
  | .keyGenerate .modulus => both
  | .keyGenerate _ => both
  | _ => True

/-! ## Named premises (spec/00_scope.md R14) -/

/-- `PRIME_EXACT`: the answer is true exactly when the candidate is prime. -/
def PrimeExact (B : Backend) : Prop := ∀ k a, B.primeAnswer k a = true ↔ Nat.Prime a

/-- `PRIME_COMPLETE`: the answer is true for every prime. -/
def PrimeComplete (B : Backend) : Prop := ∀ k a, Nat.Prime a → B.primeAnswer k a = true

/-- `PRIME_RNG0`: the test reads no random bytes. -/
def PrimeRng0 (B : Backend) : Prop := ∀ k a, B.primeReads k a = 0

/-! ## The disciplined host (spec/70_reset_and_hazards.md R407 to R409) -/

/-- An access that needs the engine idle: any write but to CTRL and STATUS, and any read of a buffer
(70_reset_and_hazards.md R407 to R409). -/
def needsIdle (x : Access) : Bool :=
  match x with
  | .read8 _ => true
  | .read32 a => (regAt a).isNone
  | .write8 _ _ => true
  | .write32 a _ => !(regAt a == some .ctrl || regAt a == some .status)

/-- A disciplined host makes only well-formed accesses, and waits where it must. -/
def disciplined (s : State) (x : Access) : Bool := x.wellFormed && (!s.status.busy || !needsIdle x)

/-- The state with `n` engine steps granted (log 3). -/
def State.withGrant (s : State) (n : Nat) : State := { s with grant := n }

/-- `run MNEMONIC` with no host event in between (30_encoding.md R131): the command word is accepted and the
engine runs, with more steps granted than any command but KEY_GENERATE makes. -/
def Runs (i : Instr) (s t : State) : Prop := exec i ((s.accept (encode i)).withGrant fetchGrant) = .next t

end Sys2Proof.Machine
end

