-- ==== Sys2Proof/Certificates/Slice0/Obligations.lean ====
section
/-! DEFINITION. The statements for the provers, from the spec's numbered rules. The fields `sched`, `grant`,
`resp`, `trace` and `drawPos` of State, and the ports' `hashAcc` and `rngPos`, are the model's own form of what
the spec puts outside the engine (logs 2 to 5, 7, 8): what a statement says of them is the model's, and
"enough engine steps granted" is its form of a command that runs to its end (log 3). -/

open Sys2Proof Sys2Proof.Machine

/-! ## Encoding and decoding (spec/30_encoding.md) -/

/-- R122, R123: the eight command words, written out, decode to their commands. -/
def Obligations.CommandWordsDecode : Prop :=
  decodeWord 0b00000000000000000000000000000001#32 = .ok .mgfExpand ∧
  decodeWord 0b00000000000000000000000000000010#32 = .ok .oaepEncode ∧
  decodeWord 0b00000000000000000000000000000011#32 = .ok .oaepDecode ∧
  decodeWord 0b00000000000000000000000000010000#32 = .ok .rsaEncrypt ∧
  decodeWord 0b00000000000000000000000000010001#32 = .ok .rsaDecrypt ∧
  decodeWord 0b00000000000000000000000000100000#32 = .ok .keyGenerate ∧
  decodeWord 0b00000000000000000000000000100001#32 = .ok .keyValidate ∧
  decodeWord 0b00000000000000000000000000100010#32 = .ok .keyKill

/-- R123 (with R121, R122): decoding is total; exactly the eight words of the table decode to their commands
and every other word to ILLEGAL. Decoding and encoding agree in both directions, and an encoded word has RSV
zero and its command's OPC. -/
def Obligations.DecodeAgreesWithEncode : Prop :=
  (∀ (w : Word) (i : Instr), opOfWord w = .cmd i ↔ (w, i) ∈
    [(0x1#32, .mgfExpand), (0x2#32, .oaepEncode), (0x3#32, .oaepDecode), (0x10#32, .rsaEncrypt),
     (0x11#32, .rsaDecrypt), (0x20#32, .keyGenerate), (0x21#32, .keyValidate), (0x22#32, .keyKill)]) ∧
  (∀ w : Word, w ∉ [0x1#32, 0x2#32, 0x3#32, 0x10#32, 0x11#32, 0x20#32, 0x21#32, 0x22#32] →
    opOfWord w = .illegal) ∧
  (∀ i : Instr, decodeWord (encode i) = .ok i ∧ rsvOf (encode i) = 0#24 ∧ opcOf (encode i) = opcode i) ∧
  (∀ (w : Word) (i : Instr), decodeWord w = .ok i ↔ w = encode i)

/-! ## Reset (spec/10_state.md R54, spec/70_reset_and_hazards.md R400 to R404) -/

/-- R54: State.reset holds every value that R54 states. -/
def Obligations.ResetStateHoldsSpecValues : Prop :=
  let s := State.reset
  s.readReg .id = 0x4D524F01#32 ∧ s.readReg .cfgRfs = BitVec.ofNat 32 s.cfg.rfs ∧
  s.readReg .cfgHlen = BitVec.ofNat 32 s.cfg.hlen ∧
  s.readReg .ctrl = 0#32 ∧ s.readReg .status = 0#32 ∧ s.readReg .msgLen = 0#32 ∧
  s.readReg .lblLen = 0#32 ∧ s.readReg .blkLen = 0#32 ∧ s.readReg .outLen = 0#32 ∧
  s.readReg .e = 0#32 ∧ (∀ b i, s.bufByte b i = 0#8) ∧ s.fsm = .idle ∧ s.scratch = Scratch.zero ∧
  s.irq = false

/-- R401, R402: the reset event, in any state (a command may be running), leaves every piece of engine
state at its reset value and the hardwired registers alone. -/
def Obligations.ResetEventClearsTheEngine : Prop :=
  ∀ (s : State) (rest : List Event), s.sched = .reset :: rest →
    ∃ t, step s = .next t ∧ t.cfg = s.cfg ∧ t.readReg .id = 0x4D524F01#32 ∧
      t.readReg .ctrl = 0#32 ∧ t.readReg .status = 0#32 ∧ t.readReg .msgLen = 0#32 ∧
      t.readReg .lblLen = 0#32 ∧ t.readReg .blkLen = 0#32 ∧ t.readReg .outLen = 0#32 ∧
      t.readReg .e = 0#32 ∧ (∀ b i, t.bufByte b i = 0#8) ∧ t.fsm = .idle ∧ t.scratch = Scratch.zero ∧
      t.irq = false ∧ t.sched = rest

/-- R403: reset does not rewind the random backend. Derived: the hash port and the free values stay too
(the model's reading, log 18). -/
def Obligations.ResetEventLeavesTheBackends : Prop :=
  ∀ (s : State) (rest : List Event), s.sched = .reset :: rest →
    ∃ t, step s = .next t ∧ t.rngPos = s.rngPos ∧ t.drawPos = s.drawPos ∧ t.hashAcc = s.hashAcc

/-! ## Accepting a command (spec/10_state.md R36) -/

/-- R36: the CMD register. A write of a word to an idle engine accepts it: BUSY 1, DONE 0, OK 0, ERR 0, OVR
unchanged, and `fsm ← RUN(decode(w), 0)`; nothing else of the engine changes. A write to a busy engine is
ignored and sets OVR. An accepted illegal word completes with ILLEGAL_CMD in its first engine step. A read
returns 0. -/
def Obligations.CmdRegisterAcceptsOrDrops : Prop :=
  ∀ (s : State) (w : Word) (n : Nat) (rest : List Event),
    (s.sched = .host (.write32 0x010#16 w) :: rest → s.status.busy = false →
      step s = .next
        { s with
          sched := rest
          status := { busy := true, done := false, ok := false, ovr := s.status.ovr, err := .none }
          fsm := Fsm.run (match decodeWord w with | .ok i => .cmd i | .error _ => .illegal)
          trace := []
          resp := .ack }) ∧
    (s.sched = .host (.write32 0x010#16 w) :: rest → s.status.busy = true →
      step s = .next { s with sched := rest, resp := .ack, status := { s.status with ovr := true } }) ∧
    (s.sched = .engine (n + 1) :: rest → s.fsm = Fsm.run .illegal →
      ∃ t, step s = .next t ∧ t.fsm = .idle ∧ t.status.err = .illegalCmd) ∧
    (s.sched = .host (.read32 0x010#16) :: rest →
      step s = .next { s with sched := rest, resp := .data32 0#32 })

/-- R36, R48, R49: an accepted command word is the instruction the engine's turn runs: when the word of a
command is accepted, the next engine event is `exec` of the decoded command, with the granted engine steps;
and `withFetchWord` is that situation (logs 2, 3). With no event left the engine moves by one step of what it
runs: a command, or an ILLEGAL word, which completes (log 19). -/
def Obligations.StepRunsDecodedCommand : Prop :=
  (∀ (s : State) (i : Instr) (n : Nat) (rest : List Event), s.sched = .engine n :: rest →
    s.fsm.op = some (.cmd i) → step s = exec i { s with sched := rest, grant := n }) ∧
  (∀ (s : State) (w : Word) (i : Instr), decodeWord w = .ok i →
    (s.accept w).fsm.op = some (.cmd i) ∧ (s.accept w).fsm = Fsm.run (.cmd i)) ∧
  (∀ (s : State) (w : Word) (i : Instr), decodeWord w = .ok i →
    step (s.withFetchWord 32 w.toNat) = exec i ((s.accept w).withGrant fetchGrant)) ∧
  (∀ (s : State) (i : Instr), s.sched = [] → s.fsm.op = some (.cmd i) →
    step s = exec i { s with grant := 1 }) ∧
  (∀ s : State, s.sched = [] → s.fsm = Fsm.run .illegal →
    step s = .next
      { s with
        status := { busy := false, done := true, ok := false, ovr := s.status.ovr, err := .illegalCmd }
        fsm := .idle
        scratch := Scratch.zero
        grant := 0 })

/-- R126, R352: every illegal word is accepted, and the first engine step completes it with ILLEGAL_CMD: no
backend request, and no register, buffer or key byte changes but STATUS. -/
def Obligations.IllegalWordCompletesWithIllegalCmd : Prop :=
  ∀ (s : State) (w : Word) (n : Nat) (rest : List Event), (∀ i, decodeWord w ≠ .ok i) →
    s.fsm = Fsm.run (opOfWord w) → s.sched = .engine (n + 1) :: rest →
    step s = .next
      { s with
        sched := rest
        grant := 0
        status := { busy := false, done := true, ok := false, ovr := s.status.ovr, err := .illegalCmd }
        fsm := .idle
        scratch := Scratch.zero }

/-! ## The host window (spec/20_memory.md) -/

/-- R82, R87 (with R83, R86): an access gets a bus error exactly when it is a 32-bit access to an address that
is not a multiple of 4, an 8-bit access to a control register, or an access to a reserved address; every
other access is answered. A bus error is the model's only fault (log 6). -/
def Obligations.BusErrorExactlyOnBadAccess : Prop :=
  ∀ (s : State) (x : Access) (rest : List Event), s.sched = .host x :: rest →
    let a := x.addr.toNat
    let bad : Prop := (x.wide = true ∧ a % 4 ≠ 0) ∨ (x.wide = false ∧ a < 0x2C) ∨
      (0x2C ≤ a ∧ a < 0x400) ∨ 0x2800 ≤ a
    (bad → step s = .fault (.busError x)) ∧ (¬ bad → ∃ t, step s = .next t)

/-- R31 to R44, R88, R90: what each control register reads as, busy or idle; a read of one changes nothing. -/
def Obligations.ControlRegisterReads : Prop :=
  ∀ (s : State) (rest : List Event),
    (∀ a v, (a, v) ∈
        [(0x000#16, 0x4D524F01#32), (0x004#16, BitVec.ofNat 32 s.cfg.rfs),
         (0x008#16, BitVec.ofNat 32 s.cfg.hlen), (0x00C#16, if s.ie then 1#32 else 0#32), (0x010#16, 0#32),
         (0x018#16, s.msgLen), (0x01C#16, s.lblLen), (0x020#16, s.blkLen), (0x024#16, s.outLen),
         (0x028#16, s.e)] →
      s.sched = .host (.read32 a) :: rest →
      step s = .next { s with sched := rest, resp := .data32 v }) ∧
    (s.sched = .host (.read32 0x014#16) :: rest →
      ∃ v : Word, step s = .next { s with sched := rest, resp := .data32 v } ∧
        v.getLsbD 0 = s.status.busy ∧ v.getLsbD 1 = s.status.done ∧ v.getLsbD 2 = s.status.ok ∧
        v.getLsbD 3 = s.status.ovr ∧ v.extractLsb' 4 4 = s.status.err.bits ∧ v.extractLsb' 8 24 = 0#24)

/-- R351: the STATUS value read after a completion with each code, with OVR clear. -/
def Obligations.StatusValueAfterCompletion : Prop :=
  ∀ t : Status, t.ovr = false →
    (t.completed .none).word = 0x06#32 ∧ (t.completed .illegalCmd).word = 0x12#32 ∧
    (t.completed .badOperand).word = 0x22#32 ∧ (t.completed .noKey).word = 0x32#32 ∧
    (t.completed .configError).word = 0x42#32 ∧ (t.completed .encodingTooLong).word = 0x52#32 ∧
    (t.completed .paddingInvalid).word = 0x62#32 ∧ (t.completed .keyInvalid).word = 0x72#32

/-- R88, R92: a host read has no side effect: only what the bus returned changes (and, for the model, the
count of free values drawn by a busy read, log 4). -/
def Obligations.HostReadHasNoSideEffect : Prop :=
  ∀ (s t : State) (x : Access) (rest : List Event), s.sched = .host x :: rest → x.isWrite = false →
    step s = .next t → t = { s with sched := rest, resp := t.resp, drawPos := t.drawPos }

/-- R37, R89, R91: a host write of STATUS clears DONE by bit 1 and OVR by bit 3, busy or idle, and changes
nothing else. -/
def Obligations.StatusWriteIsWriteOneToClear : Prop :=
  ∀ (s : State) (w : Word) (rest : List Event), s.sched = .host (.write32 0x014#16 w) :: rest →
    step s = .next
      { s with
        sched := rest
        resp := .ack
        status :=
          { busy := s.status.busy, ok := s.status.ok, err := s.status.err
            done := if w.getLsbD 1 then false else s.status.done
            ovr := if w.getLsbD 3 then false else s.status.ovr } }

/-- R35, R91: a host write of CTRL stores bit 0 as IE, busy or idle, and changes nothing else; IRQ follows
(R52, R365: IE = 0 masks it, IE = 1 while DONE = 1 raises it at once). -/
def Obligations.CtrlWriteStoresInterruptEnable : Prop :=
  ∀ (s : State) (w : Word) (rest : List Event), s.sched = .host (.write32 0x00C#16 w) :: rest →
    step s = .next { s with sched := rest, resp := .ack, ie := w.getLsbD 0 } ∧
    ∀ t, step s = .next t → t.irq = (s.status.done && w.getLsbD 0)

/-- R43, R44, R89: in an idle engine a host write of a length register or of E stores all 32 bits and changes
nothing else. -/
def Obligations.OperandRegisterWriteStoresAllBits : Prop :=
  ∀ (s : State) (w : Word) (rest : List Event), s.status.busy = false →
    (s.sched = .host (.write32 0x018#16 w) :: rest →
      step s = .next { s with sched := rest, resp := .ack, msgLen := w }) ∧
    (s.sched = .host (.write32 0x01C#16 w) :: rest →
      step s = .next { s with sched := rest, resp := .ack, lblLen := w }) ∧
    (s.sched = .host (.write32 0x020#16 w) :: rest →
      step s = .next { s with sched := rest, resp := .ack, blkLen := w }) ∧
    (s.sched = .host (.write32 0x024#16 w) :: rest →
      step s = .next { s with sched := rest, resp := .ack, outLen := w }) ∧
    (s.sched = .host (.write32 0x028#16 w) :: rest →
      step s = .next { s with sched := rest, resp := .ack, e := w })

/-- R32, R33, R34: a write of a hardwired register is ignored. Derived for a busy engine: no OVR (the
model's reading of R91 against R41, log 9). -/
def Obligations.HardwiredRegisterWriteIsIgnored : Prop :=
  ∀ (s : State) (a : Addr) (w : Word) (rest : List Event), a ∈ [0x000#16, 0x004#16, 0x008#16] →
    s.sched = .host (.write32 a w) :: rest → step s = .next { s with sched := rest, resp := .ack }

/-- R83, R84, R88, R89: in an idle engine a 32-bit buffer write stores `w[31:24]` at `a` and so on, an 8-bit
write stores its byte, and no other byte and no other state changes; an 8-bit or 32-bit read returns the
stored bytes in the same order. -/
def Obligations.BufferAccessIsBigEndian : Prop :=
  ∀ (s : State) (a : Addr) (rest : List Event), s.status.busy = false → 0x400 ≤ a.toNat → a.toNat < 0x2800 →
    (∀ w : Word, a.toNat % 4 = 0 → s.sched = .host (.write32 a w) :: rest →
      ∃ m, step s = .next { s with sched := rest, resp := .ack, mem := m } ∧
        readByte m a.toNat = w.extractLsb' 24 8 ∧ readByte m (a.toNat + 1) = w.extractLsb' 16 8 ∧
        readByte m (a.toNat + 2) = w.extractLsb' 8 8 ∧ readByte m (a.toNat + 3) = w.extractLsb' 0 8 ∧
        ∀ k, k < a.toNat ∨ a.toNat + 4 ≤ k → readByte m k = readByte s.mem k) ∧
    (∀ v : Byte, s.sched = .host (.write8 a v) :: rest →
      ∃ m, step s = .next { s with sched := rest, resp := .ack, mem := m } ∧
        readByte m a.toNat = v ∧ ∀ k, k ≠ a.toNat → readByte m k = readByte s.mem k) ∧
    (s.sched = .host (.read8 a) :: rest →
      step s = .next { s with sched := rest, resp := .data8 (readByte s.mem a.toNat) }) ∧
    (a.toNat % 4 = 0 → s.sched = .host (.read32 a) :: rest →
      ∃ w : Word, step s = .next { s with sched := rest, resp := .data32 w } ∧
        w.toNat = (readByte s.mem a.toNat).toNat * 2 ^ 24 + (readByte s.mem (a.toNat + 1)).toNat * 2 ^ 16
          + (readByte s.mem (a.toNat + 2)).toNat * 2 ^ 8 + (readByte s.mem (a.toNat + 3)).toNat)

/-- R91, R359: while busy, a host write of CMD, of a length register, of E or of a buffer or key region is
dropped and sets OVR; nothing else changes. -/
def Obligations.BusyWritesAreDroppedWithOverrun : Prop :=
  ∀ (s : State) (x : Access) (rest : List Event), s.status.busy = true → s.sched = .host x :: rest →
    x.isWrite = true → x.wellFormed = true →
    (x.wide = true → x.addr ∉ [0x000#16, 0x004#16, 0x008#16, 0x00C#16, 0x014#16]) →
    step s = .next
      { s with
        sched := rest
        resp := .ack
        status := { busy := true, done := s.status.done, ok := s.status.ok, ovr := true,
                    err := s.status.err } }

/-- R407 to R409: a host that waits for BUSY = 0 where it must never gets a bus error and never sets OVR. -/
def Obligations.DisciplinedHostNeverOverruns : Prop :=
  ∀ (s : State) (x : Access) (rest : List Event), s.sched = .host x :: rest → disciplined s x = true →
    ∃ t, step s = .next t ∧ (t.status.ovr = true → s.status.ovr = true) ∧ t.sched = rest

/-- R129, R126: `wait` polls STATUS: it ends with the first poll that reads DONE = 1; after a poll that reads DONE = 0
it stays, and the engine makes one step: of the command it runs, or the completing step of an ILLEGAL word, or,
in IDLE, none (log 12). -/
def Obligations.WaitPollsUntilDone : Prop :=
  ∀ (s : State) (rest : List Event), s.sched = .wait :: rest →
    (s.status.done = true →
      ∃ v : Word, step s = .next { s with sched := rest, resp := .data32 v } ∧ v.getLsbD 1 = true) ∧
    (s.status.done = false → ∀ i, s.fsm.op = some (.cmd i) →
      ∃ v : Word, step s = exec i { s with resp := .data32 v, grant := 1 } ∧ v.getLsbD 1 = false) ∧
    (s.status.done = false → s.fsm = Fsm.run .illegal →
      ∃ v : Word, v.getLsbD 1 = false ∧
        step s = .next
          { s with
            resp := .data32 v
            status := { busy := false, done := true, ok := false, ovr := s.status.ovr, err := .illegalCmd }
            fsm := .idle
            scratch := Scratch.zero
            grant := 0 }) ∧
    (s.status.done = false → s.fsm = .idle →
      ∃ v : Word, v.getLsbD 1 = false ∧ step s = .next { s with resp := .data32 v, grant := 0 })

/-- R401, R48: in IDLE the engine waits: with no host access nothing of the engine changes, whether it is given a
turn or no event is left (log 19). -/
def Obligations.IdleEngineWaits : Prop :=
  ∀ (s : State) (n : Nat) (rest : List Event), s.fsm = .idle →
    (s.sched = .engine n :: rest → step s = .next { s with sched := rest, grant := 0 }) ∧
    (s.sched = [] → step s = .next { s with grant := 0 })

/-! ## Engine steps and completion (spec/10_state.md R48 to R52, spec/60_exceptions.md R362, R363) -/

/-- R49: one engine step issues at most one backend request. -/
def Obligations.EngineStepIssuesAtMostOneRequest : Prop :=
  ∀ (i : Instr) (s t : State), s.grant = 1 → exec i s = .next t →
    t.trace = s.trace ∨ ∃ r, t.trace = s.trace ++ [r]

/-- R49, R94: a command may be interrupted between any two engine steps: granting `m + n` steps is granting
`m` and then `n` (log 3). -/
def Obligations.EngineStepsCompose : Prop :=
  ∀ (i : Instr) (s : State) (m n : Nat),
    ∃ u t, exec i (s.withGrant m) = .next u ∧ exec i (u.withGrant n) = .next t ∧
      exec i (s.withGrant (m + n)) = .next t

/-- R41, R52, R91: a running command does not see OVR, IE, what the bus returned, or what comes next: changing
them changes nothing else of its run. -/
def Obligations.RunningCommandIgnoresOverrunAndInterrupt : Prop :=
  ∀ (i : Instr) (s t : State) (ovr ie : Bool) (r : BusResp) (q : List Event), exec i s = .next t →
    exec i { s with status := { s.status with ovr := ovr }, ie := ie, resp := r, sched := q } =
      .next { t with status := { t.status with ovr := ovr }, ie := ie, resp := r, sched := q }

/-- R90, R101, R362: until its completion step a command changes no register, no STATUS field, no buffer and
no key byte, and it stays the command that runs. -/
def Obligations.OutputsChangeOnlyAtCompletion : Prop :=
  ∀ (i : Instr) (s t : State), s.fsm.op = some (.cmd i) → exec i s = .next t → t.fsm.isIdle = false →
    t.fsm.op = some (.cmd i) ∧ t.status = s.status ∧ t.ie = s.ie ∧ t.msgLen = s.msgLen ∧
    t.lblLen = s.lblLen ∧ t.blkLen = s.blkLen ∧ t.outLen = s.outLen ∧ t.e = s.e ∧ t.cfg = s.cfg ∧
    ∀ a, readByte t.mem a = readByte s.mem a

/-- R362: the completion step of every command: BUSY 0, DONE 1, OK = (ERR = 0), OVR unchanged, scratch zero,
and IRQ follows IE (R365). No command writes CTRL, LBLLEN, OUTLEN, E or the hardwired registers. -/
def Obligations.CompletionStep : Prop :=
  ∀ (i : Instr) (s t : State), s.fsm.op = some (.cmd i) → exec i s = .next t → t.fsm = .idle →
    t.status.busy = false ∧ t.status.done = true ∧ (t.status.ok = true ↔ t.status.err = .none) ∧
    t.status.ovr = s.status.ovr ∧ t.scratch = Scratch.zero ∧ t.irq = s.ie ∧
    t.ie = s.ie ∧ t.lblLen = s.lblLen ∧ t.outLen = s.outLen ∧ t.e = s.e ∧ t.cfg = s.cfg

/-- R351, R363: a command that completes with a code other than NONE leaves unchanged every register, buffer
and key byte that R351 does not name for the code, and what R351 names is the empty result. -/
def Obligations.FailedCommandWritesOnlyTheEmptyResult : Prop :=
  ∀ (i : Instr) (s t : State), s.fsm.op = some (.cmd i) → exec i s = .next t → t.fsm = .idle →
    (t.status.err ∈ [Code.illegalCmd, .badOperand, .noKey, .keyInvalid] →
      t.msgLen = s.msgLen ∧ t.blkLen = s.blkLen ∧ ∀ a, readByte t.mem a = readByte s.mem a) ∧
    (t.status.err ∈ [Code.configError, .paddingInvalid] →
      t.msgLen = 0#32 ∧ t.blkLen = s.blkLen ∧
      ∀ a, readByte t.mem a = if 0x400 ≤ a ∧ a < 0x800 then 0#8 else readByte s.mem a) ∧
    (t.status.err = .encodingTooLong →
      t.blkLen = 0#32 ∧ t.msgLen = s.msgLen ∧
      ∀ a, readByte t.mem a = if 0xC00 ≤ a ∧ a < 0x1000 then 0#8 else readByte s.mem a)

/-- R100: OutWrite stores the result, zero-fills the rest of its buffer, sets MSGLEN or BLKLEN for MSG or BLK
only, and changes no byte of any other buffer. -/
def Obligations.OutWriteStoresAndZeroFills : Prop :=
  ∀ (s : State) (b : Buf) (t : Bytes), t.length ≤ 1024 →
    (∀ k, k < 1024 → (s.outWrite b t).bufByte b k = t.getD k 0#8) ∧
    (∀ a, a < bufBase b ∨ bufBase b + 1024 ≤ a → readByte (s.outWrite b t).mem a = readByte s.mem a) ∧
    (s.outWrite b t).msgLen = (if b = .msg then BitVec.ofNat 32 t.length else s.msgLen) ∧
    (s.outWrite b t).blkLen = (if b = .blk then BitVec.ofNat 32 t.length else s.blkLen) ∧
    s.outWrite b t = { s with mem := (s.outWrite b t).mem, msgLen := (s.outWrite b t).msgLen,
                              blkLen := (s.outWrite b t).blkLen }

/-- R37, R38, R50, R81: the invariant holds right after reset. -/
def Obligations.InvariantHoldsAtReset : Prop := Inv State.reset ∧ GenInv State.reset

/-- R37, R38, R50, R81: every step, of host, engine or platform, keeps the invariant. -/
def Obligations.EveryStepKeepsTheInvariant : Prop :=
  ∀ s t : State, Inv s → step s = .next t → Inv t

/-- R48: the FSM leaves IDLE only when a command word is accepted, and a command ends only by completion or
reset: a step changes which command runs in no other way. -/
def Obligations.OnlyAcceptanceCompletionAndResetMoveTheFsm : Prop :=
  ∀ s t : State, Inv s → step s = .next t → t.fsm.op ≠ s.fsm.op →
    (s.fsm = .idle ∧ ∃ w rest, s.sched = .host (.write32 0x010#16 w) :: rest ∧
      t.fsm = Fsm.run (opOfWord w)) ∨
    (s.fsm ≠ .idle ∧ t.fsm = .idle ∧
      (t.status.done = true ∨ ∃ rest, s.sched = .reset :: rest))

/-! ## Backend ports (spec/40_backend_primitives.md) -/

/-- R151: after HASH.INIT, absorbs of `s1, ..., sk` (ABSORB_INT(i) counting as `BE32(i)`), then HASH.FINAL
answers `H(s1 ‖ ... ‖ sk)`, whatever the state. R151 gives ABSORB_INT for `0 ≤ i < 2^32`; for a larger `i` that the
model absorbs `BE32(i mod 2^32)` is the model's choice (log 22). -/
def Obligations.HashPortComputesH : Prop :=
  ∀ (B : Backend) (s : State) (absorbs : List (Bytes ⊕ Nat)),
    let request : Bytes ⊕ Nat → Request := fun x => x.elim .hashAbsorb .hashAbsorbInt
    let content : Bytes ⊕ Nat → Bytes := fun x => x.elim id be32
    (absorbs.foldl (fun u x => u.issue B (request x)) (s.issue B .hashInit)).answer B .hashFinal =
      digest B s.cfg.hlen (absorbs.flatMap content)

/-- R156 to R167: inside its domain every big-integer request answers the exact value. -/
def Obligations.BigIntegerAnswersAreExact : Prop :=
  ∀ (B : Backend) (s : State) (a b m x len : Nat) (t : Bytes),
    s.answer B (.fromBytes t) = fromBytes t ∧ s.answer B (.toBytes x len) = toBytes x len ∧
    fromBytes (s.answer B (.toBytes x len)) = x % 256 ^ len ∧
    s.answer B (.add a b) = a + b ∧ (b ≤ a → s.answer B (.sub a b) + b = a) ∧
    s.answer B (.mul a b) = a * b ∧ (1 ≤ m → s.answer B (.mod a m) = a % m) ∧
    (m % 2 = 1 → b < m → s.answer B (.modExp b x m) = b ^ x % m) ∧
    (1 ≤ m → Nat.gcd a m = 1 →
      s.answer B (.modInv a m) < m ∧ a * s.answer B (.modInv a m) % m = 1 % m) ∧
    s.answer B (.shr1 a) = a / 2 ∧ s.answer B (.lowBits a 1) = a % 2 ∧ s.answer B (.lowBits a 2) = a % 4 ∧
    (s.answer B (.cmp a b) = Ordering.lt ↔ a < b) ∧ (s.answer B (.cmp a b) = Ordering.eq ↔ a = b) ∧
    (s.answer B (.cmp a b) = Ordering.gt ↔ b < a) ∧
    (s.answer B (.coFactor a b) = true ↔ Nat.gcd a b ≠ 1)

/-! ## Pre-checks shared by the commands (spec/60_exceptions.md R353, R354) -/

/-- R353: BAD_OPERAND: each command completes with it in its first engine step, with no request, and writes
nothing but STATUS. -/
def Obligations.BadOperandCompletesAtOnce : Prop :=
  ∀ (s : State) (n : Nat), s.grant = n + 1 →
    let bad : State :=
      { s with
        status := { busy := false, done := true, ok := false, ovr := s.status.ovr, err := .badOperand }
        fsm := .idle, scratch := Scratch.zero, grant := 0 }
    (s.fsm = .mgfExpand .start → 1024 < s.msgLen.toNat ∨ 1024 < s.outLen.toNat →
      exec .mgfExpand s = .next bad) ∧
    (s.fsm = .oaepEncode .start → 1024 < s.msgLen.toNat ∨ 1024 < s.lblLen.toNat →
      exec .oaepEncode s = .next bad) ∧
    (s.fsm = .oaepDecode .start → s.cfg.rfs < s.blkLen.toNat ∨ 1024 < s.lblLen.toNat →
      exec .oaepDecode s = .next bad) ∧
    (s.fsm = .rsaEncrypt .start → s.blkLen.toNat ≠ s.cfg.rfs → exec .rsaEncrypt s = .next bad) ∧
    (s.fsm = .rsaDecrypt .start → s.blkLen.toNat ≠ s.cfg.rfs → exec .rsaDecrypt s = .next bad) ∧
    (s.fsm = .keyGenerate .start → s.e.toNat % 2 = 0 → exec .keyGenerate s = .next bad)

/-- R354: NO_KEY: an all-zero N for RSA_ENCRYPT, an all-zero P or Q for RSA_DECRYPT and KEY_VALIDATE; no
request, and nothing but STATUS is written. BAD_OPERAND comes first (R361). KEY_GENERATE never raises it. -/
def Obligations.NoKeyCompletesAtOnce : Prop :=
  (∀ s t : State, s.fsm.op = some (.cmd .keyGenerate) → exec .keyGenerate s = .next t → t.fsm = .idle →
    t.status.err ≠ .noKey) ∧
  ∀ (s : State) (n : Nat), s.grant = n + 1 →
    let noKey : State :=
      { s with
        status := { busy := false, done := true, ok := false, ovr := s.status.ovr, err := .noKey }
        fsm := .idle, scratch := Scratch.zero, grant := 0 }
    let zero (b : Buf) (len : Nat) : Prop := ∀ k, k < len → s.bufByte b k = 0#8
    let half := s.cfg.rfs / 2
    (s.fsm = .rsaEncrypt .start → s.blkLen.toNat = s.cfg.rfs → zero .n s.cfg.rfs →
      exec .rsaEncrypt s = .next noKey) ∧
    (s.fsm = .rsaDecrypt .start → s.blkLen.toNat = s.cfg.rfs → (zero .p half ∨ zero .q half) →
      exec .rsaDecrypt s = .next noKey) ∧
    (s.fsm = .keyValidate .start → (zero .p half ∨ zero .q half) → exec .keyValidate s = .next noKey)

/-! ## Mask generation (spec/42_mgf_oaep.md R250 to R253) -/

/-- R250, R251, R253: MGF_EXPAND completes with `BLK = MGF(MSG[0..MSGLEN), OUTLEN)`, `BLKLEN = OUTLEN`, ERR 0,
the trace of R251, and nothing else changed. -/
def Obligations.MgfExpandWritesTheMask : Prop :=
  ∀ s : State, s.fsm = .mgfExpand .start → s.msgLen.toNat ≤ 1024 → s.outLen.toNat ≤ 1024 →
    max 1 (4 * ceilDiv s.outLen.toNat s.cfg.hlen) ≤ s.grant →
    exec .mgfExpand s = .next
      { (s.outWrite .blk (mgf Config.backend s.cfg.hlen s.message s.outLen.toNat)).complete .none with
        blkLen := s.outLen
        trace := s.trace ++ mgfTrace s.cfg.hlen s.message s.outLen.toNat
        hashAcc := if s.outLen.toNat = 0 then s.hashAcc else []
        grant := 0 }

/-- R250, R252: `MGF(z, L)` has length L, its byte `k` is byte `k mod HLEN` of `H(z ‖ BE32(⌊k/HLEN⌋))`, and it is
a prefix of `MGF(z, L + k)`. -/
def Obligations.MaskStreamExtendsItself : Prop :=
  ∀ (B : Backend) (hlen : Nat) (z : Bytes) (len k : Nat), 1 ≤ hlen →
    (mgf B hlen z len).length = len ∧ mgf B hlen z len = (mgf B hlen z (len + k)).take len ∧
    (k < len →
      (mgf B hlen z len).getD k 0#8 = (digest B hlen (z ++ be32 (k / hlen))).getD (k % hlen) 0#8)

/-! ## OAEP (spec/42_mgf_oaep.md R254 to R274) -/

/-- R256, R257, R258: OAEP_ENCODE of a message that fits completes with the block EM built from the next HLEN
random bytes, BLKLEN = RFS, ERR 0, the trace of R257, and nothing else changed. -/
def Obligations.OaepEncodeWritesTheBlock : Prop :=
  ∀ s : State, s.fsm = .oaepEncode .start → s.msgLen.toNat + 2 * s.cfg.hlen + 2 ≤ s.cfg.rfs →
    s.lblLen.toNat ≤ 1024 → encodeRequests s.cfg ≤ s.grant →
    let B := Config.backend
    let seed := randomBytes B s.rngPos s.cfg.hlen
    let lhash := digest B s.cfg.hlen s.labelBytes
    let db := lhash ++ zeros (s.cfg.rfs - 2 * s.cfg.hlen - 2 - s.msgLen.toNat) ++ [0x01#8] ++ s.message
    let mDB := xorBytes db (mgf B s.cfg.hlen seed (s.cfg.rfs - 1 - s.cfg.hlen))
    let mSeed := xorBytes seed (mgf B s.cfg.hlen mDB s.cfg.hlen)
    exec .oaepEncode s = .next
      { (s.outWrite .blk ([0x00#8] ++ mSeed ++ mDB)).complete .none with
        blkLen := BitVec.ofNat 32 s.cfg.rfs
        rngPos := s.rngPos + s.cfg.hlen
        trace := s.trace ++ [.hashInit, .hashAbsorb s.labelBytes, .hashFinal] ++ [.rngRead s.cfg.hlen]
          ++ mgfTrace s.cfg.hlen seed (s.cfg.rfs - 1 - s.cfg.hlen) ++ mgfTrace s.cfg.hlen mDB s.cfg.hlen
        hashAcc := []
        grant := 0 }

/-- R255, R356: OAEP_ENCODE of a message longer than MAXMSG (which may be negative) writes the empty result and
completes with ENCODING_TOO_LONG in its first engine step, with no request and no random byte drawn. -/
def Obligations.OaepEncodeRefusesLongMessages : Prop :=
  ∀ (s : State) (n : Nat), s.fsm = .oaepEncode .start → s.grant = n + 1 →
    s.msgLen.toNat ≤ 1024 → s.lblLen.toNat ≤ 1024 → s.cfg.rfs < s.msgLen.toNat + 2 * s.cfg.hlen + 2 →
    exec .oaepEncode s = .next { (s.outWrite .blk []).complete .encodingTooLong with blkLen := 0#32, grant := 0 }

/-- R260, R355: OAEP_DECODE with `RFS < 2·HLEN + 2` writes the empty result and completes with CONFIG_ERROR in
its first engine step, with no request. -/
def Obligations.OaepDecodeRefusesNarrowBlocks : Prop :=
  ∀ (s : State) (n : Nat), s.fsm = .oaepDecode .start → s.grant = n + 1 →
    s.blkLen.toNat ≤ s.cfg.rfs → s.lblLen.toNat ≤ 1024 → s.cfg.rfs < 2 * s.cfg.hlen + 2 →
    exec .oaepDecode s = .next { (s.outWrite .msg []).complete .configError with msgLen := 0#32, grant := 0 }

/-- R262 to R270, R272: OAEP_DECODE completes with the message, ERR 0, when the label hash matches, byte 0 is 0
and the first non-zero byte after the label hash exists and is 0x01; otherwise with the empty result and
PADDING_INVALID. BLK and everything else stays. -/
def Obligations.OaepDecodeAcceptsExactlyValidBlocks : Prop :=
  ∀ s : State, s.fsm = .oaepDecode .start → s.blkLen.toNat ≤ s.cfg.rfs → s.lblLen.toNat ≤ 1024 →
    2 * s.cfg.hlen + 2 ≤ s.cfg.rfs → decodeRequests s.cfg ≤ s.grant →
    let B := Config.backend
    let h := s.cfg.hlen
    let f := zeros (s.cfg.rfs - s.blkLen.toNat) ++ s.bufBytes .blk s.blkLen.toNat
    let mSeed := (f.drop 1).take h
    let mDB := f.drop (1 + h)
    let seed := xorBytes (mgf B h mDB h) mSeed
    let db := xorBytes (mgf B h seed (s.cfg.rfs - 1 - h)) mDB
    let r := db.drop h
    ∃ t, exec .oaepDecode s = .next t ∧
      (∀ m : Bytes, db.take h = digest B h s.labelBytes → f.head? = some 0#8 →
        (∃ k, r = zeros k ++ [0x01#8] ++ m) →
        t = { (s.outWrite .msg m).complete .none with
              msgLen := BitVec.ofNat 32 m.length, trace := t.trace, hashAcc := [], grant := 0 }) ∧
      (¬ (db.take h = digest B h s.labelBytes ∧ f.head? = some 0#8 ∧
          ∃ k m, r = zeros k ++ [0x01#8] ++ m) →
        t = { (s.outWrite .msg []).complete .paddingInvalid with
              msgLen := 0#32, trace := t.trace, hashAcc := [], grant := 0 }) ∧
      t.trace = s.trace ++ [.hashInit, .hashAbsorb s.labelBytes, .hashFinal] ++ mgfTrace h mDB h
        ++ mgfTrace h seed (s.cfg.rfs - 1 - h)

/-- R272: after the checks of R260 and R261, how far OAEP_DECODE is after any number of engine steps, the kinds
of its requests and the lengths of their arguments depend only on RFS, HLEN and LBLLEN: two runs on any two
blocks and labels of the same lengths look alike at every step. -/
def Obligations.OaepDecodeTraceIsDataIndependent : Prop :=
  ∀ (s s' t t' : State), s.fsm = .oaepDecode .start → s'.fsm = .oaepDecode .start →
    s.cfg = s'.cfg → s.lblLen = s'.lblLen → s.grant = s'.grant →
    s.trace = [] → s'.trace = [] →
    s.blkLen.toNat ≤ s.cfg.rfs → s'.blkLen.toNat ≤ s'.cfg.rfs → s.lblLen.toNat ≤ 1024 →
    2 * s.cfg.hlen + 2 ≤ s.cfg.rfs →
    exec .oaepDecode s = .next t → exec .oaepDecode s' = .next t' →
    t.fsm = t'.fsm ∧ t.trace.map Request.shape = t'.trace.map Request.shape

/-- R273: the round trip: OAEP_ENCODE of a message that fits, then OAEP_DECODE of the block with the same label,
completes with ERR 0 and `MSG[0..MSGLEN)` is the message, whatever the random bytes and the hash. -/
def Obligations.OaepRoundTrip : Prop :=
  ∀ s t u : State, s.msgLen.toNat + 2 * s.cfg.hlen + 2 ≤ s.cfg.rfs → s.lblLen.toNat ≤ 1024 →
    Runs .oaepEncode s t → Runs .oaepDecode t u →
    t.fsm = .idle ∧ t.blkLen.toNat = s.cfg.rfs ∧ u.fsm = .idle ∧ u.status.err = .none ∧
    u.status.ok = true ∧ u.message = s.message

/-! ## RSA (spec/43_rsa_crt.md) -/

/-- R302, R303: inside its domain RSA_ENCRYPT completes with `BLK = ToBytes(f^e mod n, RFS)`, BLKLEN = RFS, ERR
0, its four requests, and nothing else changed. -/
def Obligations.RsaEncryptIsModularExponentiation : Prop :=
  ∀ s : State, s.fsm = .rsaEncrypt .start → s.blkLen.toNat = s.cfg.rfs → 4 ≤ s.grant →
    let f := fromBytes s.block
    let n := fromBytes (s.bufBytes .n s.cfg.rfs)
    let y := f ^ s.e.toNat % n
    f < n → n % 2 = 1 →
    exec .rsaEncrypt s = .next
      { (s.outWrite .blk (toBytes y s.cfg.rfs)).complete .none with
        blkLen := s.blkLen
        trace := s.trace ++ [.fromBytes s.block, .fromBytes (s.bufBytes .n s.cfg.rfs),
          .modExp f s.e.toNat n, .toBytes y s.cfg.rfs]
        grant := 0 }

/-- R303, R169: outside the domain (an even non-zero modulus, or `f ≥ n`) RSA_ENCRYPT still completes with ERR
0 and writes `ToBytes(y, RFS)` for some `y`; nothing else changes. -/
def Obligations.RsaEncryptOutOfDomainStillCompletes : Prop :=
  ∀ s : State, s.fsm = .rsaEncrypt .start → s.blkLen.toNat = s.cfg.rfs → 4 ≤ s.grant →
    let f := fromBytes s.block
    let n := fromBytes (s.bufBytes .n s.cfg.rfs)
    n ≠ 0 → (n % 2 = 0 ∨ n ≤ f) →
    ∃ y, exec .rsaEncrypt s = .next
      { (s.outWrite .blk (toBytes y s.cfg.rfs)).complete .none with
        blkLen := s.blkLen
        trace := s.trace ++ [.fromBytes s.block, .fromBytes (s.bufBytes .n s.cfg.rfs),
          .modExp f s.e.toNat n, .toBytes y s.cfg.rfs]
        drawPos := s.drawPos + 1
        grant := 0 }

/-- R306 to R312, R314: with odd `p` and `q` RSA_DECRYPT completes with the value of the CRT schedule in BLK,
BLKLEN = RFS, ERR 0, the 18 or 19 requests of R314, and nothing else changed. -/
def Obligations.RsaDecryptRunsTheCrtSchedule : Prop :=
  ∀ s : State, s.fsm = .rsaDecrypt .start → s.blkLen.toNat = s.cfg.rfs → 19 ≤ s.grant →
    let half := s.cfg.rfs / 2
    let g := fromBytes s.block
    let p := fromBytes (s.bufBytes .p half)
    let q := fromBytes (s.bufBytes .q half)
    let dp := fromBytes (s.bufBytes .dp half)
    let dq := fromBytes (s.bufBytes .dq half)
    let c := fromBytes (s.bufBytes .c half)
    p % 2 = 1 → q % 2 = 1 →
    exec .rsaDecrypt s = .next
      { (s.outWrite .blk (toBytes (crtResult g p q dp dq c) s.cfg.rfs)).complete .none with
        blkLen := s.blkLen
        trace := s.trace ++ decryptTrace s.block (s.bufBytes .p half) (s.bufBytes .q half)
          (s.bufBytes .dp half) (s.bufBytes .dq half) (s.bufBytes .c half) s.cfg.rfs g p q dp dq c
        grant := 0 }

/-- R305, R313, R314, R169: with any non-zero `p` and `q` RSA_DECRYPT completes with ERR 0, its 18 or 19 requests
in the order of R314, and the block of steps 4 to 6 from the values `jp` and `jq` of step 3, each exact where its
modulus is odd and any value where it is even (one free value drawn for each, log 4); the key and everything
else stays. -/
def Obligations.RsaDecryptNeverFailsOnItsOwn : Prop :=
  ∀ s : State, s.fsm = .rsaDecrypt .start → s.blkLen.toNat = s.cfg.rfs → 19 ≤ s.grant →
    let half := s.cfg.rfs / 2
    let g := fromBytes s.block
    let p := fromBytes (s.bufBytes .p half)
    let q := fromBytes (s.bufBytes .q half)
    let dp := fromBytes (s.bufBytes .dp half)
    let dq := fromBytes (s.bufBytes .dq half)
    let c := fromBytes (s.bufBytes .c half)
    p ≠ 0 → q ≠ 0 →
    ∃ jp jq, (p % 2 = 1 → jp = (g % p) ^ dp % p) ∧ (q % 2 = 1 → jq = (g % q) ^ dq % q) ∧
      exec .rsaDecrypt s = .next
        { (s.outWrite .blk (toBytes (crtCombine p q c jp jq) s.cfg.rfs)).complete .none with
          blkLen := s.blkLen
          trace := s.trace ++ decryptTraceFrom s.block (s.bufBytes .p half) (s.bufBytes .q half)
            (s.bufBytes .dp half) (s.bufBytes .dq half) (s.bufBytes .c half) s.cfg.rfs g p q dp dq c jp jq
          drawPos := s.drawPos + (1 - p % 2) + (1 - q % 2)
          grant := 0 }

/-- R315: CRT correctness: with distinct odd primes, `e·dp ≡ 1 (mod p − 1)`, `e·dq ≡ 1 (mod q − 1)` and
`c·p ≡ 1 (mod q)`, RSA_DECRYPT of `ToBytes(f^e mod p·q, RFS)` writes `ToBytes(f, RFS)` for every `f < p·q`. -/
def Obligations.RsaDecryptInvertsEncryption : Prop :=
  ∀ (s : State) (e f : Nat), s.fsm = .rsaDecrypt .start → s.blkLen.toNat = s.cfg.rfs → 19 ≤ s.grant →
    let half := s.cfg.rfs / 2
    let p := fromBytes (s.bufBytes .p half)
    let q := fromBytes (s.bufBytes .q half)
    p.Prime → q.Prime → p ≠ q → p % 2 = 1 → q % 2 = 1 →
    e * fromBytes (s.bufBytes .dp half) % (p - 1) = 1 % (p - 1) →
    e * fromBytes (s.bufBytes .dq half) % (q - 1) = 1 % (q - 1) →
    fromBytes (s.bufBytes .c half) * p % q = 1 → f < p * q →
    s.block = toBytes (f ^ e % (p * q)) s.cfg.rfs →
    ∃ t, exec .rsaDecrypt s = .next t ∧ t.fsm = .idle ∧ t.status.err = .none ∧
      t.block = toBytes f s.cfg.rfs ∧ t.blkLen.toNat = s.cfg.rfs

/-- R316: the plaintext depends on the ciphertext only modulo `p·q`: of two states at the start of RSA_DECRYPT
with the same configuration and the same key with odd `p` and `q`, one with a block of `g` (`g ≥ p·q` or not) and
one with the block of `g mod p·q`, RSA_DECRYPT of both completes with ERR 0 and the same BLK, and every request
of both is in its domain: no free value is drawn. -/
def Obligations.DecryptionDependsOnCiphertextModN : Prop :=
  ∀ s s' : State, s.fsm = .rsaDecrypt .start → s'.fsm = .rsaDecrypt .start → s.cfg = s'.cfg →
    s.blkLen.toNat = s.cfg.rfs → s'.blkLen.toNat = s'.cfg.rfs → 19 ≤ s.grant → 19 ≤ s'.grant →
    let half := s.cfg.rfs / 2
    let p := fromBytes (s.bufBytes .p half)
    let q := fromBytes (s.bufBytes .q half)
    (∀ b ∈ [Buf.p, .q, .dp, .dq, .c], s.bufBytes b half = s'.bufBytes b half) →
    p % 2 = 1 → q % 2 = 1 → fromBytes s'.block = fromBytes s.block % (p * q) →
    ∃ t t', exec .rsaDecrypt s = .next t ∧ exec .rsaDecrypt s' = .next t' ∧
      t.bufBytes .blk 1024 = t'.bufBytes .blk 1024 ∧ t.blkLen = t'.blkLen ∧
      t.status.err = .none ∧ t'.status.err = .none ∧ t.fsm = .idle ∧ t'.fsm = .idle ∧
      t.drawPos = s.drawPos ∧ t'.drawPos = s'.drawPos

/-- R318: the cipher round trip: with a key that satisfies R216's laws 1, 3, 4 and 5, for a block of RFS bytes
whose first byte is 0, RSA_ENCRYPT followed by RSA_DECRYPT gives back the block. -/
def Obligations.CipherRoundTrip : Prop :=
  ∀ s t u : State,
    let half := s.cfg.rfs / 2
    let p := fromBytes (s.bufBytes .p half)
    let q := fromBytes (s.bufBytes .q half)
    let n := fromBytes (s.bufBytes .n s.cfg.rfs)
    p.Prime → q.Prime → p ≠ q → p % 2 = 1 → q % 2 = 1 → n = p * q → 256 ^ (s.cfg.rfs - 1) ≤ n →
    s.e.toNat * fromBytes (s.bufBytes .dp half) % (p - 1) = 1 % (p - 1) →
    s.e.toNat * fromBytes (s.bufBytes .dq half) % (q - 1) = 1 % (q - 1) →
    fromBytes (s.bufBytes .c half) * p % q = 1 →
    s.blkLen.toNat = s.cfg.rfs → s.bufByte .blk 0 = 0#8 →
    Runs .rsaEncrypt s t → Runs .rsaDecrypt t u →
    t.status.err = .none ∧ u.status.err = .none ∧ u.fsm = .idle ∧ u.blkLen = s.blkLen ∧ u.block = s.block

/-! ## The key FSM (spec/41_key_fsm.md) -/

/-- R203 to R215: KEY_GENERATE with an odd E either completes, for every large enough number of engine steps,
with ERR 0, the six regions of the key that FindPrime, R210, R211 and R212 give, all written together, and the
requests of R214 in order (those of both searches, then the closing), or, when the search finds no pair of
primes, runs for ever with no register, buffer or key byte changed. -/
def Obligations.KeyGenerateWritesTheKeyOrSearchesForEver : Prop :=
  ∀ s : State, s.fsm = .keyGenerate .start → s.e.toNat % 2 = 1 →
    let B := Config.backend
    let e := s.e.toNat
    let finds : Nat → Nat → DrawPoint → List Request → Prop := fun p q d' tr =>
      ∃ d trP trQ, FindsPrime B s.cfg e none ⟨s.rngPos, s.drawPos⟩ p d trP ∧
        FindsPrime B s.cfg e (some p) d q d' trQ ∧ tr = trP ++ trQ
    (∃ p q d' tr, finds p q d' tr ∧ ∃ n, ∀ g, n ≤ g →
      exec .keyGenerate (s.withGrant g) = .next
        { (generatedRegions s p q (crtExponent p e) (crtExponent q e)
            (inverseAt B d'.draw p q)).complete .none with
          rngPos := d'.rng
          drawPos := d'.draw + inverseDraws p q
          trace := s.trace ++ tr ++ closingTrace s.cfg e p q (inverseAt B d'.draw p q)
          grant := 0 }) ∨
    ((¬ ∃ p q d' tr, finds p q d' tr) ∧ ∀ g, ∃ t,
      exec .keyGenerate (s.withGrant g) = .next t ∧ t.fsm.op = some (.cmd .keyGenerate) ∧
      t = { s with fsm := t.fsm, scratch := t.scratch, trace := t.trace, rngPos := t.rngPos,
                   drawPos := t.drawPos, hashAcc := t.hashAcc, grant := 0 })

/-- R203, R214: for any backends, when FindPrime finds the two primes, KEY_GENERATE completes with them, and its
trace is the requests of both searches and of the closing, in the order of R214. -/
def Obligations.KeyGenerateCompletesWhenPrimesAreFound : Prop :=
  ∀ (B : Backend) (s : State) (p q : Nat) (d d' : DrawPoint) (trP trQ : List Request),
    s.fsm = .keyGenerate .start → s.e.toNat % 2 = 1 →
    FindsPrime B s.cfg s.e.toNat none ⟨s.rngPos, s.drawPos⟩ p d trP →
    FindsPrime B s.cfg s.e.toNat (some p) d q d' trQ →
    ∃ n, ∀ g, n ≤ g →
      runGranted (generateStep B) (s.withGrant g) =
        { (generatedRegions s p q (crtExponent p s.e.toNat) (crtExponent q s.e.toNat)
            (inverseAt B d'.draw p q)).complete .none with
          rngPos := d'.rng
          drawPos := d'.draw + inverseDraws p q
          trace := s.trace ++ trP ++ trQ ++ closingTrace s.cfg s.e.toNat p q (inverseAt B d'.draw p q)
          grant := 0 }

/-- R204 to R207, R209: every step keeps the key FSM's promise: while KEY_GENERATE probes, the candidate is 3
modulo 4, has its top bit set and stays below `256^HRFS`, and past the searches so are `p` and `q`, and they
differ. -/
def Obligations.EveryStepKeepsCandidatesInRange : Prop :=
  ∀ s t : State, GenInv s → step s = .next t → GenInv t

/-- R216: the laws of a completed KEY_GENERATE under PRIME_EXACT, for the primes FindPrime returns and the values
R210, R211 and R212 compute from them: primality, residue and width, co-primality with `e`, the range and the
oddness of `n`, the CRT exponents modulo `x − 1`, the coefficient, and exact serialisation. -/
def Obligations.GeneratedKeyObeysTheKeyLaws : Prop :=
  ∀ (B : Backend) (c : Params) (e p q : Nat) (d0 d d' : DrawPoint) (trP trQ : List Request),
    PrimeExact B → e % 2 = 1 →
    FindsPrime B c e none d0 p d trP → FindsPrime B c e (some p) d q d' trQ →
    let n := p * q
    let dp := crtExponent p e
    let dq := crtExponent q e
    let cv := inverseAt B d'.draw p q
    p.Prime ∧ q.Prime ∧ p ≠ q ∧ halfWidth c p ∧ halfWidth c q ∧
    Nat.gcd (p - 1) e = 1 ∧ Nat.gcd (q - 1) e = 1 ∧ Nat.gcd ((p - 1) * (q - 1)) e = 1 ∧
    n % 2 = 1 ∧ 2 ^ (8 * c.rfs - 2) ≤ n ∧ n < 2 ^ (8 * c.rfs) ∧ 256 ^ (c.rfs - 1) ≤ n ∧
    dp % 2 = 1 ∧ 0 < dp ∧ dp < p - 1 ∧ e * dp % (p - 1) = 1 % (p - 1) ∧
    dq % 2 = 1 ∧ 0 < dq ∧ dq < q - 1 ∧ e * dq % (q - 1) = 1 % (q - 1) ∧
    0 < cv ∧ cv < q ∧ cv * p % q = 1 ∧
    fromBytes (toBytes n c.rfs) = n ∧ fromBytes (toBytes p (c.rfs / 2)) = p ∧
    fromBytes (toBytes q (c.rfs / 2)) = q ∧ fromBytes (toBytes dp (c.rfs / 2)) = dp ∧
    fromBytes (toBytes dq (c.rfs / 2)) = dq ∧ fromBytes (toBytes cv (c.rfs / 2)) = cv

/-- R215, the corner case `RFS = 2`, `E = 87646755`: under PRIME_EXACT KEY_GENERATE never completes, whatever
the random bytes: BUSY stays after any number of engine steps. -/
def Obligations.KeyGenerateHangsOnHostileExponent : Prop :=
  ∀ (B : Backend) (s : State) (n : Nat), PrimeExact B → s.fsm = .keyGenerate .start → s.cfg.rfs = 2 →
    s.e = 87646755#32 → s.status.busy = true →
    (runGranted (generateStep B) (s.withGrant n)).status.busy = true

/-- R218, R219, R220: KEY_VALIDATE makes the checks V1 to V12 in their order and stops at the first that fails: its
trace is the six conversions and the requests of the checks up to and including the failing one (log 16 for
which comparisons are requests), the draws move by the primality tests made, and the code is NONE exactly when
every check passes, otherwise KEY_INVALID. No register, buffer or key byte changes. -/
def Obligations.KeyValidateVerdict : Prop :=
  ∀ s : State, s.fsm = .keyValidate .start → 34 ≤ s.grant →
    let half := s.cfg.rfs / 2
    let n := fromBytes (s.bufBytes .n s.cfg.rfs)
    let p := fromBytes (s.bufBytes .p half)
    let q := fromBytes (s.bufBytes .q half)
    let dp := fromBytes (s.bufBytes .dp half)
    let dq := fromBytes (s.bufBytes .dq half)
    let c := fromBytes (s.bufBytes .c half)
    p ≠ 0 → q ≠ 0 →
    let checks := validateChecks Config.backend s.cfg s.drawPos s.e.toNat n p q dp dq c
    let code := if checks.all (·.2) then Code.none else Code.keyInvalid
    let d := (upToFailure checks).foldl (DrawPoint.after Config.backend) ⟨s.rngPos, s.drawPos⟩
    (code = Code.none ↔ validNumbers s.cfg s.e.toNat n p q dp dq c ∧
      primesAccepted Config.backend s.drawPos p q) ∧
    exec .keyValidate s = .next
      { s.complete code with
        rngPos := d.rng
        drawPos := d.draw
        trace := s.trace ++ [.fromBytes (s.bufBytes .n s.cfg.rfs), .fromBytes (s.bufBytes .p half),
          .fromBytes (s.bufBytes .q half), .fromBytes (s.bufBytes .dp half), .fromBytes (s.bufBytes .dq half),
          .fromBytes (s.bufBytes .c half)] ++ upToFailure checks
        grant := 0 }

/-- R219, R200: under PRIME_EXACT a key that KEY_VALIDATE accepts satisfies every key invariant of R200, and the
exponents are inverses modulo `x − 1`. -/
def Obligations.ValidatedKeySatisfiesTheInvariants : Prop :=
  ∀ (B : Backend) (c : Params) (draw e n p q dp dq cv : Nat), PrimeExact B →
    validNumbers c e n p q dp dq cv → primesAccepted B draw p q →
    p.Prime ∧ q.Prime ∧ p ≠ q ∧ p % 4 = 3 ∧ q % 4 = 3 ∧ n = p * q ∧ n % 2 = 1 ∧
    Nat.gcd e ((p - 1) * (q - 1)) = 1 ∧
    e * dp % ((p - 1) / 2) = 1 % ((p - 1) / 2) ∧ e * dq % ((q - 1) / 2) = 1 % ((q - 1) / 2) ∧
    e * dp % (p - 1) = 1 % (p - 1) ∧ e * dq % (q - 1) = 1 % (q - 1) ∧
    cv * p % q = 1 ∧ 256 ^ (c.rfs - 1) ≤ n

/-- R221, R222: KEY_KILL completes with ERR 0, every byte of P, Q, DP, DQ and C is zero, and N, E, the data
buffers, the length registers and everything else stay; no request is issued. -/
def Obligations.KeyKillZeroesThePrivateKey : Prop :=
  ∀ (s : State) (n : Nat), s.fsm = .keyKill → s.grant = n + 1 →
    ∃ m, exec .keyKill s = .next { s.complete .none with mem := m, grant := 0 } ∧
      ∀ a, readByte m a = if 0x1400 ≤ a ∧ a < 0x2800 then 0#8 else readByte s.mem a

/-! ## The whole engine -/

/-- R131, R273, R315, R318: `seal` then `open`: with a key that satisfies R216's laws, OAEP_ENCODE,
RSA_ENCRYPT, RSA_DECRYPT and OAEP_DECODE in sequence end with ERR 0 and the message in MSG. -/
def Obligations.SealThenOpenRecoversTheMessage : Prop :=
  ∀ s t1 t2 t3 t4 : State,
    let half := s.cfg.rfs / 2
    let p := fromBytes (s.bufBytes .p half)
    let q := fromBytes (s.bufBytes .q half)
    let n := fromBytes (s.bufBytes .n s.cfg.rfs)
    p.Prime → q.Prime → p ≠ q → p % 2 = 1 → q % 2 = 1 → n = p * q → 256 ^ (s.cfg.rfs - 1) ≤ n →
    s.e.toNat * fromBytes (s.bufBytes .dp half) % (p - 1) = 1 % (p - 1) →
    s.e.toNat * fromBytes (s.bufBytes .dq half) % (q - 1) = 1 % (q - 1) →
    fromBytes (s.bufBytes .c half) * p % q = 1 →
    s.msgLen.toNat + 2 * s.cfg.hlen + 2 ≤ s.cfg.rfs → s.lblLen.toNat ≤ 1024 →
    Runs .oaepEncode s t1 → Runs .rsaEncrypt t1 t2 → Runs .rsaDecrypt t2 t3 → Runs .oaepDecode t3 t4 →
    t4.fsm = .idle ∧ t4.status.err = .none ∧ t4.message = s.message
end

