-- ==== Sys2Proof/Laws/State.lean ====
section
/-! SUPPORT. One lemma per field per update of State, so that no later proof unfolds a record update. -/

namespace Sys2Proof.Machine

/-! ## Fields after issuing a request -/

@[simp] theorem State.issue_cfg (B : Backend) (s : State) (r : Request) : (s.issue B r).cfg = s.cfg := rfl
@[simp] theorem State.issue_ie (B : Backend) (s : State) (r : Request) : (s.issue B r).ie = s.ie := rfl
@[simp] theorem State.issue_status (B : Backend) (s : State) (r : Request) : (s.issue B r).status = s.status := rfl
@[simp] theorem State.issue_msgLen (B : Backend) (s : State) (r : Request) : (s.issue B r).msgLen = s.msgLen := rfl
@[simp] theorem State.issue_lblLen (B : Backend) (s : State) (r : Request) : (s.issue B r).lblLen = s.lblLen := rfl
@[simp] theorem State.issue_blkLen (B : Backend) (s : State) (r : Request) : (s.issue B r).blkLen = s.blkLen := rfl
@[simp] theorem State.issue_outLen (B : Backend) (s : State) (r : Request) : (s.issue B r).outLen = s.outLen := rfl
@[simp] theorem State.issue_e (B : Backend) (s : State) (r : Request) : (s.issue B r).e = s.e := rfl
@[simp] theorem State.issue_mem (B : Backend) (s : State) (r : Request) : (s.issue B r).mem = s.mem := rfl
@[simp] theorem State.issue_fsm (B : Backend) (s : State) (r : Request) : (s.issue B r).fsm = s.fsm := rfl
@[simp] theorem State.issue_scratch (B : Backend) (s : State) (r : Request) : (s.issue B r).scratch = s.scratch := rfl
@[simp] theorem State.issue_hashAcc (B : Backend) (s : State) (r : Request) : (s.issue B r).hashAcc = r.hashAcc s.hashAcc := rfl
@[simp] theorem State.issue_rngPos (B : Backend) (s : State) (r : Request) : (s.issue B r).rngPos = s.rngPos + r.rngTaken B s.drawPos := rfl
@[simp] theorem State.issue_drawPos (B : Backend) (s : State) (r : Request) : (s.issue B r).drawPos = s.drawPos + r.draws := rfl
@[simp] theorem State.issue_sched (B : Backend) (s : State) (r : Request) : (s.issue B r).sched = s.sched := rfl
@[simp] theorem State.issue_grant (B : Backend) (s : State) (r : Request) : (s.issue B r).grant = s.grant := rfl
@[simp] theorem State.issue_resp (B : Backend) (s : State) (r : Request) : (s.issue B r).resp = s.resp := rfl
@[simp] theorem State.issue_trace (B : Backend) (s : State) (r : Request) : (s.issue B r).trace = s.trace ++ [r] := rfl

/-! ## Fields after OutWrite -/

@[simp] theorem State.outWrite_cfg (s : State) (b : Buf) (t : Bytes) : (s.outWrite b t).cfg = s.cfg := rfl
@[simp] theorem State.outWrite_ie (s : State) (b : Buf) (t : Bytes) : (s.outWrite b t).ie = s.ie := rfl
@[simp] theorem State.outWrite_status (s : State) (b : Buf) (t : Bytes) : (s.outWrite b t).status = s.status := rfl
@[simp] theorem State.outWrite_msgLen (s : State) (b : Buf) (t : Bytes) : (s.outWrite b t).msgLen = if b = .msg then BitVec.ofNat 32 t.length else s.msgLen := rfl
@[simp] theorem State.outWrite_lblLen (s : State) (b : Buf) (t : Bytes) : (s.outWrite b t).lblLen = s.lblLen := rfl
@[simp] theorem State.outWrite_blkLen (s : State) (b : Buf) (t : Bytes) : (s.outWrite b t).blkLen = if b = .blk then BitVec.ofNat 32 t.length else s.blkLen := rfl
@[simp] theorem State.outWrite_outLen (s : State) (b : Buf) (t : Bytes) : (s.outWrite b t).outLen = s.outLen := rfl
@[simp] theorem State.outWrite_e (s : State) (b : Buf) (t : Bytes) : (s.outWrite b t).e = s.e := rfl
@[simp] theorem State.outWrite_mem (s : State) (b : Buf) (t : Bytes) : (s.outWrite b t).mem = writeBytes s.mem (bufBase b) (outImage t) := rfl
@[simp] theorem State.outWrite_fsm (s : State) (b : Buf) (t : Bytes) : (s.outWrite b t).fsm = s.fsm := rfl
@[simp] theorem State.outWrite_scratch (s : State) (b : Buf) (t : Bytes) : (s.outWrite b t).scratch = s.scratch := rfl
@[simp] theorem State.outWrite_hashAcc (s : State) (b : Buf) (t : Bytes) : (s.outWrite b t).hashAcc = s.hashAcc := rfl
@[simp] theorem State.outWrite_rngPos (s : State) (b : Buf) (t : Bytes) : (s.outWrite b t).rngPos = s.rngPos := rfl
@[simp] theorem State.outWrite_drawPos (s : State) (b : Buf) (t : Bytes) : (s.outWrite b t).drawPos = s.drawPos := rfl
@[simp] theorem State.outWrite_sched (s : State) (b : Buf) (t : Bytes) : (s.outWrite b t).sched = s.sched := rfl
@[simp] theorem State.outWrite_grant (s : State) (b : Buf) (t : Bytes) : (s.outWrite b t).grant = s.grant := rfl
@[simp] theorem State.outWrite_resp (s : State) (b : Buf) (t : Bytes) : (s.outWrite b t).resp = s.resp := rfl
@[simp] theorem State.outWrite_trace (s : State) (b : Buf) (t : Bytes) : (s.outWrite b t).trace = s.trace := rfl

/-! ## Fields after the completion step -/

@[simp] theorem State.complete_cfg (s : State) (c : Code) : (s.complete c).cfg = s.cfg := rfl
@[simp] theorem State.complete_ie (s : State) (c : Code) : (s.complete c).ie = s.ie := rfl
@[simp] theorem State.complete_status (s : State) (c : Code) : (s.complete c).status = s.status.completed c := rfl
@[simp] theorem State.complete_msgLen (s : State) (c : Code) : (s.complete c).msgLen = s.msgLen := rfl
@[simp] theorem State.complete_lblLen (s : State) (c : Code) : (s.complete c).lblLen = s.lblLen := rfl
@[simp] theorem State.complete_blkLen (s : State) (c : Code) : (s.complete c).blkLen = s.blkLen := rfl
@[simp] theorem State.complete_outLen (s : State) (c : Code) : (s.complete c).outLen = s.outLen := rfl
@[simp] theorem State.complete_e (s : State) (c : Code) : (s.complete c).e = s.e := rfl
@[simp] theorem State.complete_mem (s : State) (c : Code) : (s.complete c).mem = s.mem := rfl
@[simp] theorem State.complete_fsm (s : State) (c : Code) : (s.complete c).fsm = .idle := rfl
@[simp] theorem State.complete_scratch (s : State) (c : Code) : (s.complete c).scratch = Scratch.zero := rfl
@[simp] theorem State.complete_hashAcc (s : State) (c : Code) : (s.complete c).hashAcc = s.hashAcc := rfl
@[simp] theorem State.complete_rngPos (s : State) (c : Code) : (s.complete c).rngPos = s.rngPos := rfl
@[simp] theorem State.complete_drawPos (s : State) (c : Code) : (s.complete c).drawPos = s.drawPos := rfl
@[simp] theorem State.complete_sched (s : State) (c : Code) : (s.complete c).sched = s.sched := rfl
@[simp] theorem State.complete_grant (s : State) (c : Code) : (s.complete c).grant = s.grant := rfl
@[simp] theorem State.complete_resp (s : State) (c : Code) : (s.complete c).resp = s.resp := rfl
@[simp] theorem State.complete_trace (s : State) (c : Code) : (s.complete c).trace = s.trace := rfl

/-! ## Fields after accepting a command word -/

@[simp] theorem State.accept_cfg (s : State) (w : Word) : (s.accept w).cfg = s.cfg := rfl
@[simp] theorem State.accept_ie (s : State) (w : Word) : (s.accept w).ie = s.ie := rfl
@[simp] theorem State.accept_status (s : State) (w : Word) : (s.accept w).status = s.status.accepted := rfl
@[simp] theorem State.accept_msgLen (s : State) (w : Word) : (s.accept w).msgLen = s.msgLen := rfl
@[simp] theorem State.accept_lblLen (s : State) (w : Word) : (s.accept w).lblLen = s.lblLen := rfl
@[simp] theorem State.accept_blkLen (s : State) (w : Word) : (s.accept w).blkLen = s.blkLen := rfl
@[simp] theorem State.accept_outLen (s : State) (w : Word) : (s.accept w).outLen = s.outLen := rfl
@[simp] theorem State.accept_e (s : State) (w : Word) : (s.accept w).e = s.e := rfl
@[simp] theorem State.accept_mem (s : State) (w : Word) : (s.accept w).mem = s.mem := rfl
@[simp] theorem State.accept_fsm (s : State) (w : Word) : (s.accept w).fsm = Fsm.run (opOfWord w) := rfl
@[simp] theorem State.accept_scratch (s : State) (w : Word) : (s.accept w).scratch = s.scratch := rfl
@[simp] theorem State.accept_hashAcc (s : State) (w : Word) : (s.accept w).hashAcc = s.hashAcc := rfl
@[simp] theorem State.accept_rngPos (s : State) (w : Word) : (s.accept w).rngPos = s.rngPos := rfl
@[simp] theorem State.accept_drawPos (s : State) (w : Word) : (s.accept w).drawPos = s.drawPos := rfl
@[simp] theorem State.accept_sched (s : State) (w : Word) : (s.accept w).sched = s.sched := rfl
@[simp] theorem State.accept_grant (s : State) (w : Word) : (s.accept w).grant = s.grant := rfl
@[simp] theorem State.accept_resp (s : State) (w : Word) : (s.accept w).resp = s.resp := rfl
@[simp] theorem State.accept_trace (s : State) (w : Word) : (s.accept w).trace = [] := rfl

/-! ## Fields after a write of STATUS -/

@[simp] theorem State.writeStatus_cfg (s : State) (w : Word) : (s.writeStatus w).cfg = s.cfg := rfl
@[simp] theorem State.writeStatus_ie (s : State) (w : Word) : (s.writeStatus w).ie = s.ie := rfl
@[simp] theorem State.writeStatus_status (s : State) (w : Word) : (s.writeStatus w).status = s.status.w1c w := rfl
@[simp] theorem State.writeStatus_msgLen (s : State) (w : Word) : (s.writeStatus w).msgLen = s.msgLen := rfl
@[simp] theorem State.writeStatus_lblLen (s : State) (w : Word) : (s.writeStatus w).lblLen = s.lblLen := rfl
@[simp] theorem State.writeStatus_blkLen (s : State) (w : Word) : (s.writeStatus w).blkLen = s.blkLen := rfl
@[simp] theorem State.writeStatus_outLen (s : State) (w : Word) : (s.writeStatus w).outLen = s.outLen := rfl
@[simp] theorem State.writeStatus_e (s : State) (w : Word) : (s.writeStatus w).e = s.e := rfl
@[simp] theorem State.writeStatus_mem (s : State) (w : Word) : (s.writeStatus w).mem = s.mem := rfl
@[simp] theorem State.writeStatus_fsm (s : State) (w : Word) : (s.writeStatus w).fsm = s.fsm := rfl
@[simp] theorem State.writeStatus_scratch (s : State) (w : Word) : (s.writeStatus w).scratch = s.scratch := rfl
@[simp] theorem State.writeStatus_hashAcc (s : State) (w : Word) : (s.writeStatus w).hashAcc = s.hashAcc := rfl
@[simp] theorem State.writeStatus_rngPos (s : State) (w : Word) : (s.writeStatus w).rngPos = s.rngPos := rfl
@[simp] theorem State.writeStatus_drawPos (s : State) (w : Word) : (s.writeStatus w).drawPos = s.drawPos := rfl
@[simp] theorem State.writeStatus_sched (s : State) (w : Word) : (s.writeStatus w).sched = s.sched := rfl
@[simp] theorem State.writeStatus_grant (s : State) (w : Word) : (s.writeStatus w).grant = s.grant := rfl
@[simp] theorem State.writeStatus_resp (s : State) (w : Word) : (s.writeStatus w).resp = s.resp := rfl
@[simp] theorem State.writeStatus_trace (s : State) (w : Word) : (s.writeStatus w).trace = s.trace := rfl

/-! ## Fields after the reset event -/

@[simp] theorem State.resetEvent_cfg (s : State) : s.resetEvent.cfg = s.cfg := rfl
@[simp] theorem State.resetEvent_ie (s : State) : s.resetEvent.ie = false := rfl
@[simp] theorem State.resetEvent_status (s : State) : s.resetEvent.status = State.reset.status := rfl
@[simp] theorem State.resetEvent_msgLen (s : State) : s.resetEvent.msgLen = 0#32 := rfl
@[simp] theorem State.resetEvent_lblLen (s : State) : s.resetEvent.lblLen = 0#32 := rfl
@[simp] theorem State.resetEvent_blkLen (s : State) : s.resetEvent.blkLen = 0#32 := rfl
@[simp] theorem State.resetEvent_outLen (s : State) : s.resetEvent.outLen = 0#32 := rfl
@[simp] theorem State.resetEvent_e (s : State) : s.resetEvent.e = 0#32 := rfl
@[simp] theorem State.resetEvent_mem (s : State) : s.resetEvent.mem = [] := rfl
@[simp] theorem State.resetEvent_fsm (s : State) : s.resetEvent.fsm = .idle := rfl
@[simp] theorem State.resetEvent_scratch (s : State) : s.resetEvent.scratch = Scratch.zero := rfl
@[simp] theorem State.resetEvent_hashAcc (s : State) : s.resetEvent.hashAcc = s.hashAcc := rfl
@[simp] theorem State.resetEvent_rngPos (s : State) : s.resetEvent.rngPos = s.rngPos := rfl
@[simp] theorem State.resetEvent_drawPos (s : State) : s.resetEvent.drawPos = s.drawPos := rfl
@[simp] theorem State.resetEvent_sched (s : State) : s.resetEvent.sched = s.sched := rfl
@[simp] theorem State.resetEvent_grant (s : State) : s.resetEvent.grant = 0 := rfl
@[simp] theorem State.resetEvent_resp (s : State) : s.resetEvent.resp = .none := rfl
@[simp] theorem State.resetEvent_trace (s : State) : s.resetEvent.trace = [] := rfl

/-! ## Fields after the bus's answer to a write -/

@[simp] theorem State.ack_cfg (s : State) : s.ack.cfg = s.cfg := rfl
@[simp] theorem State.ack_ie (s : State) : s.ack.ie = s.ie := rfl
@[simp] theorem State.ack_status (s : State) : s.ack.status = s.status := rfl
@[simp] theorem State.ack_msgLen (s : State) : s.ack.msgLen = s.msgLen := rfl
@[simp] theorem State.ack_lblLen (s : State) : s.ack.lblLen = s.lblLen := rfl
@[simp] theorem State.ack_blkLen (s : State) : s.ack.blkLen = s.blkLen := rfl
@[simp] theorem State.ack_outLen (s : State) : s.ack.outLen = s.outLen := rfl
@[simp] theorem State.ack_e (s : State) : s.ack.e = s.e := rfl
@[simp] theorem State.ack_mem (s : State) : s.ack.mem = s.mem := rfl
@[simp] theorem State.ack_fsm (s : State) : s.ack.fsm = s.fsm := rfl
@[simp] theorem State.ack_scratch (s : State) : s.ack.scratch = s.scratch := rfl
@[simp] theorem State.ack_hashAcc (s : State) : s.ack.hashAcc = s.hashAcc := rfl
@[simp] theorem State.ack_rngPos (s : State) : s.ack.rngPos = s.rngPos := rfl
@[simp] theorem State.ack_drawPos (s : State) : s.ack.drawPos = s.drawPos := rfl
@[simp] theorem State.ack_sched (s : State) : s.ack.sched = s.sched := rfl
@[simp] theorem State.ack_grant (s : State) : s.ack.grant = s.grant := rfl
@[simp] theorem State.ack_resp (s : State) : s.ack.resp = .ack := rfl
@[simp] theorem State.ack_trace (s : State) : s.ack.trace = s.trace := rfl

/-! ## Fields after a poll of STATUS -/

@[simp] theorem State.poll_cfg (s : State) : s.poll.cfg = s.cfg := rfl
@[simp] theorem State.poll_ie (s : State) : s.poll.ie = s.ie := rfl
@[simp] theorem State.poll_status (s : State) : s.poll.status = s.status := rfl
@[simp] theorem State.poll_msgLen (s : State) : s.poll.msgLen = s.msgLen := rfl
@[simp] theorem State.poll_lblLen (s : State) : s.poll.lblLen = s.lblLen := rfl
@[simp] theorem State.poll_blkLen (s : State) : s.poll.blkLen = s.blkLen := rfl
@[simp] theorem State.poll_outLen (s : State) : s.poll.outLen = s.outLen := rfl
@[simp] theorem State.poll_e (s : State) : s.poll.e = s.e := rfl
@[simp] theorem State.poll_mem (s : State) : s.poll.mem = s.mem := rfl
@[simp] theorem State.poll_fsm (s : State) : s.poll.fsm = s.fsm := rfl
@[simp] theorem State.poll_scratch (s : State) : s.poll.scratch = s.scratch := rfl
@[simp] theorem State.poll_hashAcc (s : State) : s.poll.hashAcc = s.hashAcc := rfl
@[simp] theorem State.poll_rngPos (s : State) : s.poll.rngPos = s.rngPos := rfl
@[simp] theorem State.poll_drawPos (s : State) : s.poll.drawPos = s.drawPos := rfl
@[simp] theorem State.poll_sched (s : State) : s.poll.sched = s.sched := rfl
@[simp] theorem State.poll_grant (s : State) : s.poll.grant = s.grant := rfl
@[simp] theorem State.poll_resp (s : State) : s.poll.resp = .data32 (s.readReg .status) := rfl
@[simp] theorem State.poll_trace (s : State) : s.poll.trace = s.trace := rfl

/-! ## Fields after granting engine steps -/

@[simp] theorem State.withGrant_cfg (s : State) (n : Nat) : (s.withGrant n).cfg = s.cfg := rfl
@[simp] theorem State.withGrant_ie (s : State) (n : Nat) : (s.withGrant n).ie = s.ie := rfl
@[simp] theorem State.withGrant_status (s : State) (n : Nat) : (s.withGrant n).status = s.status := rfl
@[simp] theorem State.withGrant_msgLen (s : State) (n : Nat) : (s.withGrant n).msgLen = s.msgLen := rfl
@[simp] theorem State.withGrant_lblLen (s : State) (n : Nat) : (s.withGrant n).lblLen = s.lblLen := rfl
@[simp] theorem State.withGrant_blkLen (s : State) (n : Nat) : (s.withGrant n).blkLen = s.blkLen := rfl
@[simp] theorem State.withGrant_outLen (s : State) (n : Nat) : (s.withGrant n).outLen = s.outLen := rfl
@[simp] theorem State.withGrant_e (s : State) (n : Nat) : (s.withGrant n).e = s.e := rfl
@[simp] theorem State.withGrant_mem (s : State) (n : Nat) : (s.withGrant n).mem = s.mem := rfl
@[simp] theorem State.withGrant_fsm (s : State) (n : Nat) : (s.withGrant n).fsm = s.fsm := rfl
@[simp] theorem State.withGrant_scratch (s : State) (n : Nat) : (s.withGrant n).scratch = s.scratch := rfl
@[simp] theorem State.withGrant_hashAcc (s : State) (n : Nat) : (s.withGrant n).hashAcc = s.hashAcc := rfl
@[simp] theorem State.withGrant_rngPos (s : State) (n : Nat) : (s.withGrant n).rngPos = s.rngPos := rfl
@[simp] theorem State.withGrant_drawPos (s : State) (n : Nat) : (s.withGrant n).drawPos = s.drawPos := rfl
@[simp] theorem State.withGrant_sched (s : State) (n : Nat) : (s.withGrant n).sched = s.sched := rfl
@[simp] theorem State.withGrant_grant (s : State) (n : Nat) : (s.withGrant n).grant = n := rfl
@[simp] theorem State.withGrant_resp (s : State) (n : Nat) : (s.withGrant n).resp = s.resp := rfl
@[simp] theorem State.withGrant_trace (s : State) (n : Nat) : (s.withGrant n).trace = s.trace := rfl

/-! ## Fields after restarting an attempt -/

@[simp] theorem restartAttempt_cfg (w : Side) (s : State) : (restartAttempt w s).cfg = s.cfg := rfl
@[simp] theorem restartAttempt_ie (w : Side) (s : State) : (restartAttempt w s).ie = s.ie := rfl
@[simp] theorem restartAttempt_status (w : Side) (s : State) : (restartAttempt w s).status = s.status := rfl
@[simp] theorem restartAttempt_msgLen (w : Side) (s : State) : (restartAttempt w s).msgLen = s.msgLen := rfl
@[simp] theorem restartAttempt_lblLen (w : Side) (s : State) : (restartAttempt w s).lblLen = s.lblLen := rfl
@[simp] theorem restartAttempt_blkLen (w : Side) (s : State) : (restartAttempt w s).blkLen = s.blkLen := rfl
@[simp] theorem restartAttempt_outLen (w : Side) (s : State) : (restartAttempt w s).outLen = s.outLen := rfl
@[simp] theorem restartAttempt_e (w : Side) (s : State) : (restartAttempt w s).e = s.e := rfl
@[simp] theorem restartAttempt_mem (w : Side) (s : State) : (restartAttempt w s).mem = s.mem := rfl
@[simp] theorem restartAttempt_fsm (w : Side) (s : State) : (restartAttempt w s).fsm = .keyGenerate (.draw w) := rfl
@[simp] theorem restartAttempt_scratch (w : Side) (s : State) : (restartAttempt w s).scratch = { s.scratch with gen := { s.scratch.gen with raw := [], x := 0, x1 := 0 } } := rfl
@[simp] theorem restartAttempt_hashAcc (w : Side) (s : State) : (restartAttempt w s).hashAcc = s.hashAcc := rfl
@[simp] theorem restartAttempt_rngPos (w : Side) (s : State) : (restartAttempt w s).rngPos = s.rngPos := rfl
@[simp] theorem restartAttempt_drawPos (w : Side) (s : State) : (restartAttempt w s).drawPos = s.drawPos := rfl
@[simp] theorem restartAttempt_sched (w : Side) (s : State) : (restartAttempt w s).sched = s.sched := rfl
@[simp] theorem restartAttempt_grant (w : Side) (s : State) : (restartAttempt w s).grant = s.grant := rfl
@[simp] theorem restartAttempt_resp (w : Side) (s : State) : (restartAttempt w s).resp = s.resp := rfl
@[simp] theorem restartAttempt_trace (w : Side) (s : State) : (restartAttempt w s).trace = s.trace := rfl

end Sys2Proof.Machine
end

