-- ==== Sys2Proof/Laws/Bytes.lean ====
section
/-! SUPPORT. Byte strings and big-endian integers: lengths, the round trip of ToBytes and FromBytes, XOR,
`cteq`, and slices of a buffer. -/

namespace Sys2Proof.Machine

@[simp] theorem zeros_length (k : Nat) : (zeros k).length = k := by simp [zeros]

@[simp] theorem toBytes_length (x len : Nat) : (toBytes x len).length = len := by simp [toBytes]

@[simp] theorem be32_length (i : Nat) : (be32 i).length = 4 := by simp [be32]

@[simp] theorem readBytes_length (m : List Host.Cell) (a len : Nat) : (readBytes m a len).length = len := by
  simp [readBytes]

@[simp] theorem digest_length (B : Backend) (hlen : Nat) (s : Bytes) : (digest B hlen s).length = hlen := by
  simp [digest]

@[simp] theorem randomBytes_length (B : Backend) (pos k : Nat) : (randomBytes B pos k).length = k := by
  simp [randomBytes]

@[simp] theorem xorBytes_length (s t : Bytes) : (xorBytes s t).length = min s.length t.length := by
  simp [xorBytes]

@[simp] theorem forceTopBit_length (s : Bytes) : (forceTopBit s).length = s.length := by
  cases s <;> rfl

/-- XOR with the same mask twice gives the string back. -/
theorem xorBytes_cancel (s t : Bytes) (h : s.length ≤ t.length) : xorBytes t (xorBytes s t) = s := by
  induction s generalizing t with
  | nil => simp [xorBytes]
  | cons b s ih =>
    cases t with
    | nil => simp at h
    | cons c t =>
      simp only [xorBytes, List.zipWith_cons_cons, List.cons.injEq]
      refine ⟨?_, ih t (by simpa using h)⟩
      rw [BitVec.xor_comm b c, ← BitVec.xor_assoc, BitVec.xor_self, BitVec.zero_xor]

theorem xorBytes_comm (s t : Bytes) : xorBytes s t = xorBytes t s := by
  induction s generalizing t with
  | nil => simp [xorBytes]
  | cons b s ih =>
    cases t with
    | nil => simp [xorBytes]
    | cons c t => simp only [xorBytes, List.zipWith_cons_cons, BitVec.xor_comm b c] ; exact congrArg _ (ih t)

theorem xorBytes_append (a b c d : Bytes) (h : a.length = c.length) :
    xorBytes (a ++ b) (c ++ d) = xorBytes a c ++ xorBytes b d := by
  simp [xorBytes, List.zipWith_append h]

theorem foldl_or_eq_zero (l : Bytes) (acc : Byte) :
    l.foldl (fun acc d => acc ||| d) acc = 0#8 ↔ acc = 0#8 ∧ ∀ d ∈ l, d = 0#8 := by
  induction l generalizing acc with
  | nil => simp
  | cons d l ih =>
    rw [List.foldl_cons, ih]
    have h0 : acc ||| d = 0#8 ↔ acc = 0#8 ∧ d = 0#8 := BitVec.or_eq_zero_iff
    rw [h0]; simp [and_assoc]

/-- `cteq` is equality of strings of one length (40_backend_primitives.md R171). -/
theorem cteq_iff (s t : Bytes) (h : s.length = t.length) : cteq s t = true ↔ s = t := by
  rw [cteq, beq_iff_eq, foldl_or_eq_zero]
  simp only [true_and]
  induction s generalizing t with
  | nil => cases t with
    | nil => simp
    | cons _ _ => simp at h
  | cons b s ih =>
    cases t with
    | nil => simp at h
    | cons c t =>
      have hx : b ^^^ c = 0#8 ↔ b = c := BitVec.xor_eq_zero_iff
      simp only [List.zipWith_cons_cons, List.mem_cons, forall_eq_or_imp, List.cons.injEq, hx]
      rw [ih t (by simpa using h)]

/-! ## Integers -/

theorem fromBytes_foldl (s : Bytes) (acc : Nat) :
    s.foldl (fun acc b => acc * 256 + b.toNat) acc = acc * 256 ^ s.length + fromBytes s := by
  induction s generalizing acc with
  | nil => simp [fromBytes]
  | cons b t ih =>
    rw [fromBytes, List.foldl_cons, List.foldl_cons, ih, ih]
    simp only [List.length_cons, Nat.pow_succ]
    ring

@[simp] theorem fromBytes_nil : fromBytes [] = 0 := rfl

@[simp] theorem fromBytes_cons (b : Byte) (t : Bytes) :
    fromBytes (b :: t) = b.toNat * 256 ^ t.length + fromBytes t := by
  rw [fromBytes, List.foldl_cons, fromBytes_foldl]; simp

theorem fromBytes_append (s t : Bytes) :
    fromBytes (s ++ t) = fromBytes s * 256 ^ t.length + fromBytes t := by
  rw [fromBytes, List.foldl_append, fromBytes_foldl]; rfl

/-- A string of `L` bytes is below `256^L` (10_state.md R47). -/
theorem fromBytes_lt (s : Bytes) : fromBytes s < 256 ^ s.length := by
  induction s with
  | nil => simp
  | cons b t ih =>
    rw [fromBytes_cons, List.length_cons, Nat.pow_succ]
    have := b.isLt
    nlinarith

theorem toBytes_succ (x len : Nat) :
    toBytes x (len + 1) = BitVec.ofNat 8 (x / 256 ^ len) :: toBytes x len := by
  simp only [toBytes, List.range_succ_eq_map, List.map_cons, List.map_map]
  congr 1
  apply List.map_congr_left
  intro i hi
  simp only [Function.comp]
  rw [show len + 1 - 1 - (i + 1) = len - 1 - i by omega]

/-- FromBytes after ToBytes: the value modulo `256^L` (00_scope.md R16). -/
theorem fromBytes_toBytes (x len : Nat) : fromBytes (toBytes x len) = x % 256 ^ len := by
  induction len with
  | zero => simp [toBytes, Nat.mod_one]
  | succ n ih =>
    have h := Nat.mod_mul (x := x) (a := 256 ^ n) (b := 256)
    rw [toBytes_succ, fromBytes_cons, ih, toBytes_length, BitVec.toNat_ofNat, show 256 ^ (n + 1) = 256 ^ n * 256 from pow_succ 256 n, h]
    rw [Nat.mul_comm (256 ^ n), Nat.add_comm]

theorem toBytes_fromBytes (s : Bytes) : toBytes (fromBytes s) s.length = s := by
  induction s with
  | nil => rfl
  | cons b t ih =>
    rw [List.length_cons, toBytes_succ, fromBytes_cons]
    have ht := fromBytes_lt t
    have hb : (b.toNat * 256 ^ t.length + fromBytes t) / 256 ^ t.length = b.toNat := by
      rw [Nat.mul_comm, Nat.mul_add_div (by positivity), Nat.div_eq_of_lt ht]; rfl
    rw [hb, BitVec.ofNat_toNat, BitVec.setWidth_eq]
    congr 1
    calc toBytes (b.toNat * 256 ^ t.length + fromBytes t) t.length
        = toBytes (fromBytes t) t.length := by
          simp only [toBytes]
          apply List.map_congr_left
          intro i hi
          have hi : i < t.length := List.mem_range.1 hi
          apply BitVec.eq_of_toNat_eq
          simp only [BitVec.toNat_ofNat]
          have hpow : 256 ^ t.length = 256 ^ (t.length - 1 - i) * (256 * 256 ^ i) := by
            rw [← Nat.pow_succ', ← Nat.pow_add]; congr 1; omega
          rw [hpow, show b.toNat * (256 ^ (t.length - 1 - i) * (256 * 256 ^ i)) + fromBytes t
            = 256 ^ (t.length - 1 - i) * (256 * (256 ^ i * b.toNat)) + fromBytes t by ring,
            Nat.mul_add_div (by positivity)]
          norm_num [Nat.add_mod, Nat.mul_mod_right]
      _ = t := ih

theorem allZero_iff (s : Bytes) : allZero s = true ↔ fromBytes s = 0 := by
  induction s with
  | nil => simp [allZero]
  | cons b t ih =>
    have h : allZero (b :: t) = ((b == 0#8) && allZero t) := rfl
    rw [h, Bool.and_eq_true, ih, fromBytes_cons, beq_iff_eq]
    constructor
    · rintro ⟨rfl, h0⟩; simp [h0]
    · intro h
      have h1 : b.toNat * 256 ^ t.length = 0 := by omega
      have h2 : b.toNat = 0 := by
        rcases Nat.mul_eq_zero.1 h1 with h | h
        · exact h
        · exact absurd h (by positivity)
      exact ⟨BitVec.eq_of_toNat_eq (by simpa using h2), by omega⟩

/-! ## Build parameters -/

theorem params_bounds (c : Params) :
    c.rfs % 2 = 0 ∧ 2 ≤ c.rfs ∧ c.rfs ≤ 1024 ∧ 1 ≤ c.hlen ∧ c.hlen ≤ 64 := by
  have := c.legal
  simp only [legalParams, Bool.and_eq_true, beq_iff_eq, decide_eq_true_eq] at this
  tauto

theorem hrfs_pos (c : Params) : 1 ≤ hrfs c := by have := params_bounds c; simp only [hrfs]; omega

theorem two_hrfs (c : Params) : 2 * hrfs c = c.rfs := by have := params_bounds c; simp only [hrfs]; omega

theorem ceilDiv_le (a b : Nat) (hb : 1 ≤ b) : a ≤ ceilDiv a b * b := by
  have := Nat.lt_div_mul_add (a := a + b - 1) (b := b) (by omega)
  simp only [ceilDiv]; omega

theorem ceilDiv_pos (a b : Nat) (ha : 1 ≤ a) (hb : 1 ≤ b) : 1 ≤ ceilDiv a b := by
  rw [ceilDiv, Nat.le_div_iff_mul_le (by omega)]; omega

end Sys2Proof.Machine
end

