-- ==== Sys2Proof/Laws/Backend.lean ====
section
/-! SUPPORT. The big-integer backend's answers are the exact functions of spec/40_backend_primitives.md
inside their domains, and a request changes nothing else. -/

namespace Sys2Proof.Machine

theorem powModFuel_eq (fuel b x m : Nat) (h : x ≤ fuel) : powModFuel fuel b x m = b ^ x % m := by
  induction fuel generalizing b x with
  | zero => obtain rfl : x = 0 := by omega
            simp [powModFuel]
  | succ fuel ih =>
    rw [powModFuel]
    split
    · next hx => simp [hx]
    · next hx =>
      have hsq : ∀ k, (b * b % m) ^ k % m = b ^ (2 * k) % m := by
        intro k; rw [← Nat.pow_mod, pow_mul, pow_two]
      split
      · next hodd =>
        rw [ih _ _ (by omega), hsq, Nat.mod_mul_mod, ← pow_succ]
        congr 2; omega
      · next heven =>
        rw [ih _ _ (by omega), hsq]
        congr 2; omega

/-- MODEXP computes `b^x mod m` (40_backend_primitives.md R162). -/
theorem powMod_eq (b x m : Nat) : powMod b x m = b ^ x % m := powModFuel_eq x b x m (le_refl _)

theorem bezoutFuel_spec (a m : Int) (fuel r0 r1 : Nat) (s0 s1 : Int) (h : r1 < fuel)
    (h0 : (r0 : Int) ≡ s0 * a [ZMOD m]) (h1 : (r1 : Int) ≡ s1 * a [ZMOD m]) :
    (Nat.gcd r0 r1 : Int) ≡ bezoutFuel fuel r0 r1 s0 s1 * a [ZMOD m] := by
  induction fuel generalizing r0 r1 s0 s1 with
  | zero => omega
  | succ fuel ih =>
    rw [bezoutFuel]
    split
    · next hr => simpa [hr] using h0
    · next hr =>
      have hlt : r0 % r1 < r1 := Nat.mod_lt _ (by omega)
      have hstep : ((r0 % r1 : Nat) : Int) ≡ (s0 - (r0 / r1 : Nat) * s1) * a [ZMOD m] := by
        have e : ((r0 % r1 : Nat) : Int) = (r0 : Int) - (r0 / r1 : Nat) * (r1 : Int) := by
          have := Nat.div_add_mod r0 r1
          have : (r0 : Int) = (r1 : Int) * (r0 / r1 : Nat) + (r0 % r1 : Nat) := by exact_mod_cast this.symm
          linarith
        rw [e, sub_mul, mul_assoc]
        exact h0.sub (h1.mul_left _)
      have := ih r1 (r0 % r1) s1 (s0 - (r0 / r1 : Nat) * s1) (by omega) h1 hstep
      rwa [Nat.gcd_comm r1, ← Nat.gcd_rec, Nat.gcd_comm] at this

/-- MODINV computes the inverse in `0 ≤ x < m` (40_backend_primitives.md R163). -/
theorem modInverse_spec (a m : Nat) (hm : 1 ≤ m) (h : Nat.gcd a m = 1) :
    modInverse a m < m ∧ a * modInverse a m % m = 1 % m := by
  have hm0 : (0 : Int) < m := by exact_mod_cast hm
  set z := bezoutFuel (m + 1) a m 1 0 with hz
  have hb : (1 : Int) ≡ z * a [ZMOD m] := by
    have := bezoutFuel_spec a m (m + 1) a m 1 0 (by omega) (by simp [Int.ModEq])
      (by simp [Int.ModEq])
    rwa [h] at this
  have hnn : 0 ≤ z % (m : Int) := Int.emod_nonneg _ (by omega)
  have hlt : z % (m : Int) < m := Int.emod_lt_of_pos _ hm0
  have hcast : ((modInverse a m : Nat) : Int) = z % m := by
    rw [modInverse, Int.toNat_of_nonneg hnn]
  refine ⟨by have := hcast; omega, ?_⟩
  have : ((a * modInverse a m : Nat) : Int) ≡ ((1 : Nat) : Int) [ZMOD m] := by
    push_cast
    rw [hcast]
    calc (a : Int) * (z % m) ≡ a * z [ZMOD m] := (Int.mod_modEq z m).mul_left _
      _ = z * a := by ring
      _ ≡ 1 [ZMOD m] := hb.symm
  exact (Int.natCast_modEq_iff.1 this)

/-- A request outside its domain, or a primality test, draws one free value; every other draws none. -/
theorem Request.draws_eq_zero_of_inDomain (r : Request) (h : r.inDomain) (hp : ∀ a, r ≠ .isPrime a) :
    r.draws = 0 := by
  cases r <;> simp_all [Request.draws, Request.inDomain]

end Sys2Proof.Machine
end

