-- ==== Sys2Proof/Laws/Engine.lean ====
section
/-! SUPPORT. Running engine steps (`engineLoop`, `runGranted`): unfolding, composing, stopping at a
completion, and carrying a property along. -/

namespace Sys2Proof.Machine

/-- Nothing moves after a completion. -/
theorem engineLoop_idle (f : State → State) (n : Nat) (s : State) (h : s.fsm.isIdle = true) :
    engineLoop f n s = s := by
  cases n <;> simp [engineLoop, h]

/-- One engine step of a running command. -/
theorem engineLoop_succ (f : State → State) (n : Nat) (s : State) (h : s.fsm.isIdle = false) :
    engineLoop f (n + 1) s = engineLoop f n (f s) := by
  simp [engineLoop, h]

/-- Granting steps in two parts is granting them at once (20_memory.md R94: the host may act between any
two engine steps). -/
theorem engineLoop_add (f : State → State) (m n : Nat) (s : State) :
    engineLoop f (m + n) s = engineLoop f n (engineLoop f m s) := by
  induction m generalizing s with
  | zero => simp [engineLoop]
  | succ m ih =>
    cases h : s.fsm.isIdle with
    | true => simp [engineLoop_idle f _ s h]
    | false => rw [Nat.add_right_comm, engineLoop_succ f _ s h, engineLoop_succ f _ s h, ih]

/-- A command that is complete after `k` steps is the same after more. -/
theorem engineLoop_done (f : State → State) {k n : Nat} {s u : State} (h : engineLoop f k s = u)
    (hu : u.fsm.isIdle = true) (hk : k ≤ n) : engineLoop f n s = u := by
  obtain ⟨m, rfl⟩ := Nat.exists_eq_add_of_le hk
  rw [engineLoop_add, h, engineLoop_idle f m u hu]

/-- A property that every step of a running command keeps holds after any number of steps. -/
theorem engineLoop_keeps (f : State → State) (P : State → Prop)
    (hf : ∀ s, s.fsm.isIdle = false → P s → P (f s)) (n : Nat) (s : State) (hs : P s) :
    P (engineLoop f n s) := by
  induction n generalizing s with
  | zero => exact hs
  | succ n ih =>
    cases h : s.fsm.isIdle with
    | true => rwa [engineLoop_idle f _ s h]
    | false => rw [engineLoop_succ f n s h]; exact ih _ (hf s h hs)

/-- Two step functions that agree on every running state that a property holds of run alike. -/
theorem engineLoop_map (f : State → State) (g : State → State) (P : State → Prop)
    (hidle : ∀ s, (g s).fsm.isIdle = s.fsm.isIdle)
    (hP : ∀ s, s.fsm.isIdle = false → P s → P (f s))
    (hf : ∀ s, s.fsm.isIdle = false → P s → f (g s) = g (f s)) (n : Nat) (s : State) (hs : P s) :
    engineLoop f n (g s) = g (engineLoop f n s) := by
  induction n generalizing s with
  | zero => rfl
  | succ n ih =>
    cases h : s.fsm.isIdle with
    | true => rw [engineLoop_idle f _ s h, engineLoop_idle f _ (g s) (by rw [hidle, h])]
    | false =>
      rw [engineLoop_succ f n s h, engineLoop_succ f n (g s) (by rw [hidle, h]), hf s h hs]
      exact ih _ (hP s h hs)

/-- Where the granted steps end: the loop's result, with the grant used up. -/
theorem runGranted_eq (f : State → State) {s u : State} (h : engineLoop f s.grant s = u) :
    runGranted f s = u.withGrant 0 := by
  rw [runGranted, h]; rfl

/-- Every command of the machine runs the granted engine steps of its own step function, with the engine's
backends. -/
def commandStep (B : Backend) : Instr → State → State
  | .mgfExpand => expandStep B
  | .oaepEncode => encodeStep B
  | .oaepDecode => decodeStep B
  | .rsaEncrypt => encryptStep B
  | .rsaDecrypt => decryptStep B
  | .keyGenerate => generateStep B
  | .keyValidate => validateStep B
  | .keyKill => killStep

theorem exec_eq (i : Instr) (s : State) :
    exec i s = .next (runGranted (commandStep Config.backend i) s) := by
  cases i <;> rfl

/-- `isIdle` says IDLE. -/
theorem isIdle_iff (f : Fsm) : f.isIdle = true ↔ f = .idle := by cases f <;> simp [Fsm.isIdle]

/-- A running FSM has an `op`. -/
theorem op_none_iff (f : Fsm) : f.op = none ↔ f = .idle := by cases f <;> simp [Fsm.op]

theorem isIdle_of_op {f : Fsm} {o : Op} (h : f.op = some o) : f.isIdle = false := by
  cases f <;> simp_all [Fsm.op, Fsm.isIdle]

end Sys2Proof.Machine
end

