-- ==== Sys2Proof/Laws/Command.lean ====
section
/-! SUPPORT. What one engine step of a running command can do, said once for all eight commands: it issues at
most one request and goes on inside the command, or it makes its OutWrites and completes. -/

namespace Sys2Proof.Machine

/-- Several OutWrites, in order. -/
def State.outWrites (s : State) (l : List (Buf × Bytes)) : State :=
  l.foldl (fun u x => u.outWrite x.1 x.2) s

/-- At most one request. -/
def State.issueOpt (B : Backend) (s : State) : Option Request → State
  | none => s
  | some r => s.issue B r

/-- What a completion with a code may write: a success its results, ENCODING_TOO_LONG the empty block,
CONFIG_ERROR and PADDING_INVALID the empty message, every other code nothing (60_exceptions.md R351). -/
def outputsOf (c : Code) (l : List (Buf × Bytes)) : Prop :=
  match c with
  | .none => True
  | .illegalCmd => l = []
  | .badOperand => l = []
  | .noKey => l = []
  | .configError => l = [(.msg, [])]
  | .encodingTooLong => l = [(.blk, [])]
  | .paddingInvalid => l = [(.msg, [])]
  | .keyInvalid => l = []

/-- OutWrite does not look at scratch. -/
theorem State.outWrite_withScratch (s : State) (sc : Scratch) (b : Buf) (t : Bytes) :
    ({ s with scratch := sc } : State).outWrite b t = { s.outWrite b t with scratch := sc } := rfl

/-- The completion step forgets scratch (60_exceptions.md R362 item 4). -/
theorem State.complete_withScratch (s : State) (sc : Scratch) (c : Code) :
    ({ s with scratch := sc } : State).complete c = s.complete c := rfl

/-- One engine step of a running command. -/
inductive Moves (B : Backend) (s : State) : State → Prop
  | go (r : Request) (f : Fsm) (sc : Scratch) (hf : f.op = s.fsm.op) :
      Moves B s { s.issue B r with fsm := f, scratch := sc }
  | done (r : Option Request) (l : List (Buf × Bytes)) (c : Code) (hl : outputsOf c l) :
      Moves B s (((s.issueOpt B r).outWrites l).complete c)

theorem mgfStep_moves (B : Backend) (at_ : MgfPoint → Fsm) (finish : Bytes → State → State) (p : MgfPoint)
    (s : State) (ha : ∀ p, (at_ p).op = s.fsm.op) (hf : ∀ t, Moves B s (finish t (s.issue B .hashFinal))) :
    Moves B s (mgfStep B at_ finish p s) := by
  cases p with
  | init => exact .go .hashInit _ s.scratch (ha _)
  | absorb => exact .go (.hashAbsorb _) _ s.scratch (ha _)
  | absorbInt => exact .go (.hashAbsorbInt _) _ s.scratch (ha _)
  | final =>
    simp only [mgfStep]
    split
    · exact .go .hashFinal _ { s.scratch with
        mgf := { s.scratch.mgf with t := _, i := s.scratch.mgf.i + 1 } } (ha _)
    · exact hf _

theorem hashStep_moves (B : Backend) (at_ : HashPoint → Fsm) (t : Bytes) (finish : Bytes → State → State)
    (p : HashPoint) (s : State) (ha : ∀ p, (at_ p).op = s.fsm.op)
    (hf : ∀ t, Moves B s (finish t (s.issue B .hashFinal))) : Moves B s (hashStep B at_ t finish p s) := by
  cases p with
  | absorb => exact .go (.hashAbsorb _) _ s.scratch (ha _)
  | final => exact hf _

theorem expandStep_moves (B : Backend) (s : State) (h : s.fsm.op = some (.cmd .mgfExpand)) :
    Moves B s (expandStep B s) := by
  rcases hf : s.fsm with _ | _ | pt | pt | pt | pt | pt | pt | pt | _ <;> simp [hf, Fsm.op] at h
  cases pt with
  | start =>
    simp only [expandStep, hf]
    split
    · exact .done none [] .badOperand rfl
    · split
      · exact .done none [(.blk, [])] .none trivial
      · exact .go .hashInit _ { s.scratch with mgf := _ } (by rw [hf]; rfl)
  | mgf p =>
    simp only [expandStep, hf]
    exact mgfStep_moves B _ _ p s (fun _ => by rw [hf]; rfl)
      fun t => .done (some .hashFinal) [(.blk, t)] .none trivial

theorem encodeStep_moves (B : Backend) (s : State) (h : s.fsm.op = some (.cmd .oaepEncode)) :
    Moves B s (encodeStep B s) := by
  rcases hf : s.fsm with _ | _ | pt | pt | pt | pt | pt | pt | pt | _ <;> simp [hf, Fsm.op] at h
  cases pt with
  | start =>
    simp only [encodeStep, hf]
    split
    · exact .done none [] .badOperand rfl
    · split
      · exact .done none [(.blk, [])] .encodingTooLong rfl
      · exact .go .hashInit _ s.scratch (by rw [hf]; rfl)
  | label p =>
    simp only [encodeStep, hf]
    exact hashStep_moves B _ _ _ p s (fun _ => by rw [hf]; rfl) fun t =>
      .go .hashFinal _ { s.scratch with oaep := { s.scratch.oaep with lhash := t, db := _ } }
        (by rw [hf]; rfl)
  | seed =>
    simp only [encodeStep, hf]
    exact .go (.rngRead s.cfg.hlen) _ { s.scratch with oaep := { s.scratch.oaep with seed := _ }, mgf := _ }
      (by rw [hf]; rfl)
  | dbMask p =>
    simp only [encodeStep, hf]
    exact mgfStep_moves B _ _ p s (fun _ => by rw [hf]; rfl) fun t =>
      .go .hashFinal _ { s.scratch with
        oaep := { s.scratch.oaep with dbMask := t, mDB := xorBytes s.scratch.oaep.db t }
        mgf := _ } (by rw [hf]; rfl)
  | seedMask p =>
    simp only [encodeStep, hf]
    exact mgfStep_moves B _ _ p s (fun _ => by rw [hf]; rfl) fun t =>
      .done (some .hashFinal) [(.blk, [0x00#8] ++ xorBytes s.scratch.oaep.seed t ++ s.scratch.oaep.mDB)]
        .none trivial

theorem decodeStep_moves (B : Backend) (s : State) (h : s.fsm.op = some (.cmd .oaepDecode)) :
    Moves B s (decodeStep B s) := by
  rcases hf : s.fsm with _ | _ | pt | pt | pt | pt | pt | pt | pt | _ <;> simp [hf, Fsm.op] at h
  cases pt with
  | start =>
    simp only [decodeStep, hf]
    split
    · exact .done none [] .badOperand rfl
    · split
      · exact .done none [(.msg, [])] .configError rfl
      · exact .go .hashInit _ s.scratch (by rw [hf]; rfl)
  | label p =>
    simp only [decodeStep, hf]
    exact hashStep_moves B _ _ _ p s (fun _ => by rw [hf]; rfl) fun t =>
      .go .hashFinal _ { s.scratch with
        oaep := { s.scratch.oaep with lhash := t, f := _, mSeed := _, mDB := _ }
        mgf := _ } (by rw [hf]; rfl)
  | seedMask p =>
    simp only [decodeStep, hf]
    exact mgfStep_moves B _ _ p s (fun _ => by rw [hf]; rfl) fun t =>
      .go .hashFinal _ { s.scratch with
        oaep := { s.scratch.oaep with sMask := t, seed := xorBytes t s.scratch.oaep.mSeed }
        mgf := _ } (by rw [hf]; rfl)
  | dbMask p =>
    simp only [decodeStep, hf]
    refine mgfStep_moves B _ _ p s (fun _ => by rw [hf]; rfl) fun t => ?_
    simp only [decodeFinish]
    split
    · next m _ => exact .done (some .hashFinal) [(.msg, m)] .none trivial
    · exact .done (some .hashFinal) [(.msg, [])] .paddingInvalid rfl

theorem encryptStep_moves (B : Backend) (s : State) (h : s.fsm.op = some (.cmd .rsaEncrypt)) :
    Moves B s (encryptStep B s) := by
  rcases hf : s.fsm with _ | _ | pt | pt | pt | pt | pt | pt | pt | _ <;> simp [hf, Fsm.op] at h
  cases pt <;> simp only [encryptStep, hf]
  case start =>
    split
    · exact .done none [] .badOperand rfl
    · split
      · exact .done none [] .noKey rfl
      · exact .go _ _ { s.scratch with rsa := { s.scratch.rsa with f := _ } } (by rw [hf]; rfl)
  case readN => exact .go _ _ { s.scratch with key := { s.scratch.key with nv := _ } } (by rw [hf]; rfl)
  case modExp => exact .go _ _ { s.scratch with rsa := { s.scratch.rsa with y := _ } } (by rw [hf]; rfl)
  case serialize => exact .done (some _) [(.blk, _)] .none trivial

theorem decryptStep_moves (B : Backend) (s : State) (h : s.fsm.op = some (.cmd .rsaDecrypt)) :
    Moves B s (decryptStep B s) := by
  rcases hf : s.fsm with _ | _ | pt | pt | pt | pt | pt | pt | pt | _ <;> simp [hf, Fsm.op] at h
  have hop : ∀ p, (Fsm.rsaDecrypt p).op = s.fsm.op := fun p => by rw [hf]; rfl
  cases pt <;> simp only [decryptStep, hf]
  case start =>
    split
    · exact .done none [] .badOperand rfl
    · split
      · exact .done none [] .noKey rfl
      · exact .go _ _ { s.scratch with rsa := { s.scratch.rsa with g := _ } } (hop _)
  case readP => exact .go _ _ { s.scratch with key := { s.scratch.key with pv := _ } } (hop _)
  case readQ => exact .go _ _ { s.scratch with key := { s.scratch.key with qv := _ } } (hop _)
  case readDp => exact .go _ _ { s.scratch with key := { s.scratch.key with dpv := _ } } (hop _)
  case readDq => exact .go _ _ { s.scratch with key := { s.scratch.key with dqv := _ } } (hop _)
  case readC => exact .go _ _ { s.scratch with key := { s.scratch.key with cv := _ } } (hop _)
  case reduceP => exact .go _ _ { s.scratch with rsa := { s.scratch.rsa with jp := _ } } (hop _)
  case reduceQ => exact .go _ _ { s.scratch with rsa := { s.scratch.rsa with jq := _ } } (hop _)
  case expP => exact .go _ _ { s.scratch with rsa := { s.scratch.rsa with jp := _ } } (hop _)
  case expQ => exact .go _ _ { s.scratch with rsa := { s.scratch.rsa with jq := _ } } (hop _)
  case crossReduce => exact .go _ _ { s.scratch with rsa := { s.scratch.rsa with a := _ } } (hop _)
  case compare => exact .go _ _ s.scratch (by split <;> exact hop _)
  case adjust => exact .go _ _ { s.scratch with rsa := { s.scratch.rsa with jq := _ } } (hop _)
  case subtract => exact .go _ _ { s.scratch with rsa := { s.scratch.rsa with jq := _ } } (hop _)
  case mulC => exact .go _ _ { s.scratch with rsa := { s.scratch.rsa with t := _ } } (hop _)
  case reduceH => exact .go _ _ { s.scratch with rsa := { s.scratch.rsa with h := _ } } (hop _)
  case mulP => exact .go _ _ { s.scratch with rsa := { s.scratch.rsa with t := _ } } (hop _)
  case addJp => exact .go _ _ { s.scratch with rsa := { s.scratch.rsa with r := _ } } (hop _)
  case serialize => exact .done (some _) [(.blk, _)] .none trivial

theorem drawCandidate_moves (B : Backend) (w : Side) (s : State) (h : s.fsm.op = some (.cmd .keyGenerate)) :
    Moves B s (drawCandidate B w s) :=
  .go _ _ { s.scratch with gen := { s.scratch.gen with raw := _ } } h.symm

theorem restartAttempt_moves (B : Backend) (w : Side) (s : State) (r : Request)
    (h : s.fsm.op = some (.cmd .keyGenerate)) : Moves B s (restartAttempt w (s.issue B r)) :=
  .go r _ { s.scratch with gen := { s.scratch.gen with raw := [], x := 0, x1 := 0 } } h.symm

theorem primeFound_moves (B : Backend) (w : Side) (s : State) (r : Request)
    (h : s.fsm.op = some (.cmd .keyGenerate)) : Moves B s (primeFound w (s.issue B r)) := by
  cases w
  · exact .go r _ { s.scratch with key := { s.scratch.key with pv := _ } } h.symm
  · exact .go r _ { s.scratch with key := { s.scratch.key with qv := _ } } h.symm

theorem exponentFound_moves (B : Backend) (w : Side) (d : Nat) (s : State) (r : Request)
    (h : s.fsm.op = some (.cmd .keyGenerate)) : Moves B s (exponentFound w d (s.issue B r)) := by
  cases w
  · exact .go r _ { s.scratch with
      gen := { s.scratch.gen with d := d }, key := { s.scratch.key with dpv := d } } h.symm
  · exact .go r _ { s.scratch with
      gen := { s.scratch.gen with d := d }, key := { s.scratch.key with dqv := d } } h.symm

theorem serializeField_moves (B : Backend) (k : KeyField) (t : Bytes) (s : State) (r : Request)
    (h : s.fsm.op = some (.cmd .keyGenerate)) : Moves B s (serializeField k t (s.issue B r)) := by
  cases k
  · exact .go r _ { s.scratch with gen := { s.scratch.gen with sN := t } } h.symm
  · exact .go r _ { s.scratch with gen := { s.scratch.gen with sP := t } } h.symm
  · exact .go r _ { s.scratch with gen := { s.scratch.gen with sQ := t } } h.symm
  · exact .go r _ { s.scratch with gen := { s.scratch.gen with sDP := t } } h.symm
  · exact .go r _ { s.scratch with gen := { s.scratch.gen with sDQ := t } } h.symm
  · have h := Moves.done (B := B) (s := s) (some r) [(.n, s.scratch.gen.sN), (.p, s.scratch.gen.sP),
      (.q, s.scratch.gen.sQ), (.dp, s.scratch.gen.sDP), (.dq, s.scratch.gen.sDQ), (.c, t)] .none trivial
    simpa only [serializeField, generateFinish, State.outWrite_withScratch, State.complete_withScratch,
      State.outWrites, List.foldl, State.issueOpt, State.issue_scratch] using h

theorem generateStep_moves (B : Backend) (s : State) (h : s.fsm.op = some (.cmd .keyGenerate)) :
    Moves B s (generateStep B s) := by
  have h' := h
  rcases hf : s.fsm with _ | _ | pt | pt | pt | pt | pt | pt | pt | _ <;> simp [hf, Fsm.op] at h
  have hop : ∀ p, (Fsm.keyGenerate p).op = s.fsm.op := fun p => by rw [hf]; rfl
  cases pt <;> simp only [generateStep, hf]
  case start => split; exacts [.done none [] .badOperand rfl, drawCandidate_moves B _ s h']
  case draw w => exact drawCandidate_moves B w s h'
  case fromBytes w => exact .go _ _ { s.scratch with gen := { s.scratch.gen with x := _ } } (hop _)
  case lowBits w => exact .go _ _ s.scratch (by split <;> exact hop _)
  case increment w => exact .go _ _ { s.scratch with gen := { s.scratch.gen with x := _ } } (hop _)
  case bound w => split; exacts [.go _ _ s.scratch (hop _), restartAttempt_moves B w s _ h']
  case probe w => exact .go (.isPrime s.scratch.gen.x) _ s.scratch (by split <;> exact hop _)
  case advance w => exact .go _ _ { s.scratch with gen := { s.scratch.gen with x := _ } } (hop _)
  case subOne w => exact .go _ _ { s.scratch with gen := { s.scratch.gen with x1 := _ } } (hop _)
  case coFactor w =>
    split
    · exact restartAttempt_moves B w s _ h'
    · cases w
      · exact primeFound_moves B .p s _ h'
      · exact .go _ _ s.scratch (hop _)
  case distinct => split; exacts [restartAttempt_moves B .q s _ h', primeFound_moves B .q s _ h']
  case modulus => exact .go _ _ { s.scratch with key := { s.scratch.key with nv := _ } } (hop _)
  case halfSub w => exact .go _ _ { s.scratch with gen := { s.scratch.gen with x1 := _ } } (hop _)
  case halve w => exact .go _ _ { s.scratch with gen := { s.scratch.gen with t := _ } } (hop _)
  case inverse w => exact .go _ _ { s.scratch with gen := { s.scratch.gen with d := _ } } (hop _)
  case parity w => split; exacts [.go _ _ s.scratch (hop _), exponentFound_moves B w _ s _ h']
  case adjust w => exact exponentFound_moves B w _ s _ h'
  case coefficient => exact .go _ _ { s.scratch with key := { s.scratch.key with cv := _ } } (hop _)
  case serialize k => exact serializeField_moves B k _ s _ h'

theorem require_moves (B : Backend) (c : Bool) (pt : ValidatePoint) (s : State) (r : Request)
    (h : s.fsm.op = some (.cmd .keyValidate)) : Moves B s (require c pt (s.issue B r)) := by
  cases c
  · exact .done (some r) [] .keyInvalid rfl
  · exact .go r _ s.scratch h.symm

theorem validateStep_moves (B : Backend) (s : State) (h : s.fsm.op = some (.cmd .keyValidate)) :
    Moves B s (validateStep B s) := by
  have h' := h
  rcases hf : s.fsm with _ | _ | pt | pt | pt | pt | pt | pt | pt | _ <;> simp [hf, Fsm.op] at h
  have hop : ∀ p, (Fsm.keyValidate p).op = s.fsm.op := fun p => by rw [hf]; rfl
  cases pt <;> simp only [validateStep, hf]
  case start =>
    split
    · exact .done none [] .noKey rfl
    · exact .go _ _ { s.scratch with key := { s.scratch.key with nv := _ } } (hop _)
  case read k => exact .go _ _ { s.scratch with key := _ } (hop _)
  case residue w => exact require_moves B _ _ s _ h'
  case prime w => exact require_moves B _ _ s _ h'
  case subOne w => exact .go _ _ { s.scratch with val := { s.scratch.val with t := _ } } (hop _)
  case coFactor w => exact require_moves B _ _ s _ h'
  case product => exact .go _ _ { s.scratch with val := { s.scratch.val with t := _ } } (hop _)
  case modulus => exact require_moves B _ _ s _ h'
  case distinct => exact require_moves B _ _ s _ h'
  case mulC => exact .go _ _ { s.scratch with val := { s.scratch.val with t := _ } } (hop _)
  case coefficient => exact require_moves B _ _ s _ h'
  case halfSub w => exact .go _ _ { s.scratch with val := { s.scratch.val with t := _ } } (hop _)
  case halve w => exact .go _ _ { s.scratch with val := { s.scratch.val with tp := _ } } (hop _)
  case parity w => exact require_moves B _ _ s _ h'
  case mulE w => exact .go _ _ { s.scratch with val := { s.scratch.val with t := _ } } (hop _)
  case reduceE w => exact .go _ _ { s.scratch with val := { s.scratch.val with u := _ } } (hop _)
  case reduceOne w => exact .go _ _ { s.scratch with val := { s.scratch.val with v := _ } } (hop _)
  case congruent w => exact require_moves B _ _ s _ h'
  case width => split; exacts [.done (some _) [] .keyInvalid rfl, .done (some _) [] .none trivial]

theorem killStep_moves (B : Backend) (s : State) (h : s.fsm.op = some (.cmd .keyKill)) :
    Moves B s (killStep s) := by
  rcases hf : s.fsm with _ | _ | pt | pt | pt | pt | pt | pt | pt | _ <;> simp [hf, Fsm.op] at h
  simp only [killStep, hf]
  exact .done none [(.p, []), (.q, []), (.dp, []), (.dq, []), (.c, [])] .none trivial

/-- Everything one engine step of a running command can do (10_state.md R49, 60_exceptions.md R362). -/
theorem commandStep_moves (B : Backend) (i : Instr) (s : State) (h : s.fsm.op = some (.cmd i)) :
    Moves B s (commandStep B i s) := by
  cases i
  · exact expandStep_moves B s h
  · exact encodeStep_moves B s h
  · exact decodeStep_moves B s h
  · exact encryptStep_moves B s h
  · exact decryptStep_moves B s h
  · exact generateStep_moves B s h
  · exact validateStep_moves B s h
  · exact killStep_moves B s h

/-- A command's step does nothing in a state whose engine runs something else (log 13). -/
theorem commandStep_other (B : Backend) (i : Instr) (s : State) (h : s.fsm.op ≠ some (.cmd i)) :
    commandStep B i s = s := by
  rcases hf : s.fsm with _ | _ | pt | pt | pt | pt | pt | pt | pt | _ <;> cases i <;>
    simp [hf, Fsm.op] at h <;>
    simp [commandStep, expandStep, encodeStep, decodeStep, encryptStep, decryptStep, generateStep,
      validateStep, killStep, hf]

end Sys2Proof.Machine
end

