-- ==== Sys2Proof/Laws/Memory.lean ====
section
/-! SUPPORT. The storage of the window: reading after writing, and the canonical form kept by every
operation. -/

namespace Sys2Proof.Machine

theorem readByte_append (l r : List Host.Cell) (a : Nat) :
    readByte (l ++ r) a = if a ∈ l.map Prod.fst then readByte l a else readByte r a := by
  induction l with
  | nil => simp
  | cons c t ih =>
    obtain ⟨k, v⟩ := c
    by_cases h : k = a
    · simp [readByte, h]
    · simp [readByte, h, ih, Ne.symm h]

theorem readByte_of_notMem (l : List Host.Cell) (a : Nat) (h : a ∉ l.map Prod.fst) :
    readByte l a = unlistedByte := by
  induction l with
  | nil => rfl
  | cons c t ih =>
    obtain ⟨k, v⟩ := c
    simp only [List.map_cons, List.mem_cons, not_or] at h
    simp [readByte, Ne.symm h.1, ih h.2]

theorem readByte_filter (p : Nat → Bool) (m : List Host.Cell) (a : Nat) :
    readByte (m.filter fun c => p c.1) a = if p a then readByte m a else unlistedByte := by
  induction m with
  | nil => simp [readByte]
  | cons c t ih =>
    obtain ⟨k, v⟩ := c
    by_cases hk : k = a
    · subst hk
      cases hp : p k <;> simp [hp, readByte, ih]
    · cases hp : p k <;> simp [hp, readByte, hk, ih]

theorem cellsFrom_addr (a : Nat) (s : Bytes) : ∀ c ∈ cellsFrom a s, a ≤ c.1 ∧ c.1 < a + s.length := by
  induction s generalizing a with
  | nil => simp [cellsFrom]
  | cons b t ih =>
    intro c hc
    simp only [cellsFrom] at hc
    split at hc
    · have := ih (a + 1) c hc; simp only [List.length_cons]; omega
    · rcases List.mem_cons.1 hc with rfl | hc
      · simp
      · have := ih (a + 1) c hc; simp only [List.length_cons]; omega

theorem readByte_cellsFrom (a : Nat) (s : Bytes) (k : Nat) :
    readByte (cellsFrom a s) k = if a ≤ k then s.getD (k - a) unlistedByte else unlistedByte := by
  induction s generalizing a with
  | nil => simp [cellsFrom, readByte]
  | cons b t ih =>
    simp only [cellsFrom]
    rcases Nat.lt_trichotomy k a with h | h | h
    · have h1 : ¬ a ≤ k := by omega
      have h2 : ¬ a + 1 ≤ k := by omega
      have h3 : a ≠ k := by omega
      split <;> simp [readByte, ih, h2, h3]
    · subst h
      have h2 : ¬ k + 1 ≤ k := by omega
      split
      · next hb => simp [ih, hb]
      · simp [readByte]
    · obtain ⟨d, rfl⟩ := Nat.exists_eq_add_of_lt h
      have h1 : a ≤ a + d + 1 := by omega
      have h2 : a + 1 ≤ a + d + 1 := by omega
      have h3 : a ≠ a + d + 1 := by omega
      have h4 : a + d + 1 - (a + 1) = d := by omega
      have h5 : a + d + 1 - a = d + 1 := by omega
      split <;> simp [readByte, ih, h2, h3, h4, h5]

/-- Reading after a write: the written bytes where they were written, every other byte as before. -/
theorem readByte_writeBytes (m : List Host.Cell) (a : Nat) (s : Bytes) (k : Nat) :
    readByte (writeBytes m a s) k =
      if a ≤ k ∧ k < a + s.length then s.getD (k - a) unlistedByte else readByte m k := by
  have hpre : ∀ c ∈ m.filter (fun c => decide (c.1 < a)), c.1 < a := by
    intro c hc; simpa using (List.mem_filter.1 hc).2
  rw [writeBytes, List.append_assoc, readByte_append]
  by_cases h1 : k < a
  · have hn : ¬ (a ≤ k ∧ k < a + s.length) := by omega
    rw [if_neg hn]
    split
    · rw [readByte_filter (fun x => decide (x < a))]; simp [h1]
    · next hmem =>
      have hk : readByte m k = unlistedByte := by
        have := readByte_filter (fun x => decide (x < a)) m k
        rw [readByte_of_notMem _ _ hmem] at this
        simpa [h1] using this.symm
      rw [readByte_append, hk]
      split
      · rw [readByte_cellsFrom]; simp [show ¬ a ≤ k by omega]
      · rw [readByte_filter (fun x => decide (a + s.length ≤ x))]; simp [show ¬ a + s.length ≤ k by omega]
  · rw [if_neg (by
      intro hmem
      obtain ⟨c, hc, rfl⟩ := List.mem_map.1 hmem
      exact h1 (hpre c hc))]
    rw [readByte_append]
    by_cases h2 : k < a + s.length
    · rw [if_pos (show a ≤ k ∧ k < a + s.length by omega)]
      split
      · rw [readByte_cellsFrom, if_pos (by omega)]
      · next hmem =>
        have := readByte_cellsFrom a s k
        rw [readByte_of_notMem _ _ hmem, if_pos (by omega)] at this
        rw [readByte_filter (fun x => decide (a + s.length ≤ x)), ← this]
        simp [show ¬ a + s.length ≤ k by omega]
    · have hc : k ∉ (cellsFrom a s).map Prod.fst := by
        intro hmem
        obtain ⟨c, hc, rfl⟩ := List.mem_map.1 hmem
        have := cellsFrom_addr a s c hc
        omega
      rw [if_neg (show ¬ (a ≤ k ∧ k < a + s.length) by omega), if_neg hc]
      rw [readByte_filter (fun x => decide (a + s.length ≤ x))]; simp [show a + s.length ≤ k by omega]

/-! ## The canonical form -/

theorem memWfFrom_mono {hi lo lo' : Nat} (h : lo' ≤ lo) : ∀ m, memWfFrom hi lo m = true → memWfFrom hi lo' m = true
  | [], _ => rfl
  | (k, v) :: t, hm => by
    simp only [memWfFrom, Bool.and_eq_true, decide_eq_true_eq] at hm ⊢
    exact ⟨⟨⟨by omega, hm.1.1.2⟩, hm.1.2⟩, hm.2⟩

theorem memWfFrom_filter (p : Host.Cell → Bool) {hi lo : Nat} (m : List Host.Cell)
    (hm : memWfFrom hi lo m = true) : memWfFrom hi lo (m.filter p) = true := by
  induction m generalizing lo with
  | nil => simpa using hm
  | cons c t ih =>
    obtain ⟨k, v⟩ := c
    simp only [memWfFrom, Bool.and_eq_true, decide_eq_true_eq] at hm
    by_cases hp : p (k, v)
    · rw [List.filter_cons_of_pos hp]
      simp only [memWfFrom, Bool.and_eq_true, decide_eq_true_eq]
      exact ⟨hm.1, ih hm.2⟩
    · rw [List.filter_cons_of_neg hp]
      exact memWfFrom_mono (by omega) _ (ih hm.2)

theorem memWfFrom_append {hi lo mid : Nat} (l r : List Host.Cell) (hl : memWfFrom hi lo l = true)
    (hlt : ∀ c ∈ l, c.1 < mid) (hr : memWfFrom hi mid r = true) (hlo : lo ≤ mid) :
    memWfFrom hi lo (l ++ r) = true := by
  induction l generalizing lo with
  | nil => exact memWfFrom_mono hlo _ hr
  | cons c t ih =>
    obtain ⟨k, v⟩ := c
    simp only [memWfFrom, Bool.and_eq_true, decide_eq_true_eq, List.cons_append] at hl ⊢
    have hk : k < mid := hlt (k, v) (by simp)
    exact ⟨hl.1, ih hl.2 (fun c hc => hlt c (by simp [hc])) (by omega)⟩

theorem memWfFrom_restrict {hi lo lo' : Nat} (m : List Host.Cell) (hm : memWfFrom hi lo m = true)
    (hlt : ∀ c ∈ m, lo' ≤ c.1) : memWfFrom hi lo' m = true := by
  cases m with
  | nil => rfl
  | cons c t =>
    obtain ⟨k, v⟩ := c
    simp only [memWfFrom, Bool.and_eq_true, decide_eq_true_eq] at hm ⊢
    exact ⟨⟨⟨hlt (k, v) (by simp), hm.1.1.2⟩, hm.1.2⟩, hm.2⟩

theorem memWfFrom_cellsFrom {hi : Nat} (a : Nat) (s : Bytes) (h : a + s.length ≤ hi) :
    memWfFrom hi a (cellsFrom a s) = true := by
  induction s generalizing a with
  | nil => rfl
  | cons b t ih =>
    have h' : a + 1 + t.length ≤ hi := by simp only [List.length_cons] at h; omega
    simp only [cellsFrom]
    split
    · exact memWfFrom_mono (by omega) _ (ih (a + 1) h')
    · next hb =>
      simp only [memWfFrom, Bool.and_eq_true, decide_eq_true_eq, bne_iff_ne, ne_eq]
      exact ⟨⟨⟨le_refl _, by omega⟩, hb⟩, ih (a + 1) h'⟩

/-- A write inside the buffers and key regions keeps the canonical form. -/
theorem writeBytes_wf (m : List Host.Cell) (a : Nat) (s : Bytes) (hm : Memory.wf m = true)
    (hlo : 0x400 ≤ a) (hhi : a + s.length ≤ 0x2800) : Memory.wf (writeBytes m a s) = true := by
  unfold Memory.wf at hm ⊢
  rw [writeBytes, List.append_assoc]
  refine memWfFrom_append (mid := a) _ _ (memWfFrom_filter _ m hm) ?_ ?_ hlo
  · intro c hc; simpa using (List.mem_filter.1 hc).2
  · refine memWfFrom_append (mid := a + s.length) _ _ (memWfFrom_cellsFrom a s hhi) ?_ ?_ (by omega)
    · intro c hc; exact (cellsFrom_addr a s c hc).2
    · refine memWfFrom_restrict _ (memWfFrom_filter _ m hm) ?_
      intro c hc; simpa using (List.mem_filter.1 hc).2

/-- Reset's storage, with nothing listed, is in canonical form. -/
theorem reset_wf : Memory.wf State.reset.mem = true := rfl

/-! ## Equal contents are equal lists -/

theorem memWfFrom_lo {hi lo : Nat} (m : List Host.Cell) (hm : memWfFrom hi lo m = true) :
    ∀ c ∈ m, lo ≤ c.1 := by
  induction m generalizing lo with
  | nil => simp
  | cons c t ih =>
    obtain ⟨k, v⟩ := c
    simp only [memWfFrom, Bool.and_eq_true, decide_eq_true_eq] at hm
    intro c hc
    rcases List.mem_cons.1 hc with rfl | hc
    · exact hm.1.1.1
    · have := ih hm.2 c hc; omega

theorem readByte_below {hi lo a : Nat} (m : List Host.Cell) (hm : memWfFrom hi lo m = true) (h : a < lo) :
    readByte m a = unlistedByte :=
  readByte_of_notMem m a (by
    intro hmem
    obtain ⟨c, hc, rfl⟩ := List.mem_map.1 hmem
    exact absurd (memWfFrom_lo m hm c hc) (by omega))

/-- Two canonical storages that read alike are equal. -/
theorem memWfFrom_ext {hi lo : Nat} (m m' : List Host.Cell) (hm : memWfFrom hi lo m = true)
    (hm' : memWfFrom hi lo m' = true) (h : ∀ a, readByte m a = readByte m' a) : m = m' := by
  induction m generalizing m' lo with
  | nil =>
    cases m' with
    | nil => rfl
    | cons c t =>
      obtain ⟨k, v⟩ := c
      simp only [memWfFrom, Bool.and_eq_true, decide_eq_true_eq, bne_iff_ne, ne_eq] at hm'
      have := h k
      simp [readByte] at this
      exact absurd this.symm hm'.1.2
  | cons c t ih =>
    obtain ⟨k, v⟩ := c
    simp only [memWfFrom, Bool.and_eq_true, decide_eq_true_eq, bne_iff_ne, ne_eq] at hm
    cases m' with
    | nil =>
      have := h k
      simp [readByte] at this
      exact absurd this hm.1.2
    | cons c' t' =>
      obtain ⟨k', v'⟩ := c'
      simp only [memWfFrom, Bool.and_eq_true, decide_eq_true_eq, bne_iff_ne, ne_eq] at hm'
      have hk : k = k' := by
        rcases Nat.lt_trichotomy k k' with hlt | heq | hgt
        · have := h k
          simp only [readByte, if_true, show ¬ k' = k by omega, if_false] at this
          rw [readByte_below t' hm'.2 (by omega)] at this
          exact absurd this hm.1.2
        · exact heq
        · have := h k'
          simp only [readByte, if_true, show ¬ k = k' by omega, if_false] at this
          rw [readByte_below t hm.2 (by omega)] at this
          exact absurd this.symm hm'.1.2
      subst hk
      have hv : v = v' := by have := h k; simpa [readByte] using this
      subst hv
      congr 1
      refine ih t' hm.2 hm'.2 ?_
      intro a
      by_cases ha : k = a
      · subst ha
        rw [readByte_below t hm.2 (by omega), readByte_below t' hm'.2 (by omega)]
      · have := h a; simpa [readByte, ha] using this

end Sys2Proof.Machine
end

