-- ==== Sys2Proof/Laws/Outputs.lean ====
section
/-! SUPPORT. What OutWrite and the completion step leave in storage: the bytes of one buffer, every other byte,
and the canonical form. -/

namespace Sys2Proof.Machine

@[simp] theorem outImage_length (t : Bytes) : (outImage t).length = bufCap := by
  simp [outImage, zeros, bufCap]
  omega

theorem outImage_getD (t : Bytes) (k : Nat) (ht : t.length ≤ bufCap) :
    (outImage t).getD k 0#8 = t.getD k 0#8 := by
  rw [outImage, List.take_of_length_le ht]
  rcases Nat.lt_or_ge k t.length with h | h
  · rw [List.getD, List.getElem?_append_left h, List.getD]
  · simp only [List.getD, zeros]
    rw [List.getElem?_append_right h, List.getElem?_eq_none h, List.getElem?_replicate]
    split <;> rfl

theorem outImage_getElem (t : Bytes) (k : Nat) (h : k < (outImage t).length) (ht : t.length ≤ bufCap) :
    (outImage t)[k] = t.getD k 0#8 := by
  rw [← outImage_getD t k ht, List.getD, List.getElem?_eq_getElem h]; rfl

/-- One byte after OutWrite (20_memory.md R100). -/
theorem readByte_outWrite (s : State) (b : Buf) (t : Bytes) (ht : t.length ≤ bufCap) (a : Nat) :
    readByte (s.outWrite b t).mem a
      = if bufBase b ≤ a ∧ a < bufBase b + bufCap then t.getD (a - bufBase b) 0#8 else readByte s.mem a := by
  rw [State.outWrite_mem, readByte_writeBytes, outImage_length]
  split
  · next h => exact outImage_getD t _ ht
  · rfl

/-- The empty result zeroes its buffer. -/
theorem readByte_outWrite_nil (s : State) (b : Buf) (a : Nat) :
    readByte (s.outWrite b []).mem a
      = if bufBase b ≤ a ∧ a < bufBase b + bufCap then 0#8 else readByte s.mem a := by
  rw [readByte_outWrite s b [] (by simp) a]; rfl

theorem bufBase_bounds (b : Buf) : 0x400 ≤ bufBase b ∧ bufBase b + bufCap ≤ 0x2800 := by
  cases b <;> simp [bufBase, bufCap]

/-- OutWrite keeps the canonical form. -/
theorem outWrite_wf (s : State) (b : Buf) (t : Bytes) (h : Memory.wf s.mem = true) :
    Memory.wf (s.outWrite b t).mem = true := by
  have := bufBase_bounds b
  exact writeBytes_wf s.mem _ _ h (by omega) (by rw [outImage_length]; omega)

theorem outWrites_wf (l : List (Buf × Bytes)) (s : State) (h : Memory.wf s.mem = true) :
    Memory.wf (s.outWrites l).mem = true := by
  induction l generalizing s with
  | nil => exact h
  | cons x l ih => exact ih _ (outWrite_wf s x.1 x.2 h)

/-- OutWrites change storage, MSGLEN and BLKLEN only. -/
theorem outWrites_frame (l : List (Buf × Bytes)) (s : State) :
    s.outWrites l = { s with mem := (s.outWrites l).mem, msgLen := (s.outWrites l).msgLen,
                             blkLen := (s.outWrites l).blkLen } := by
  induction l generalizing s with
  | nil => rfl
  | cons x l ih =>
    have h := ih (s.outWrite x.1 x.2)
    rw [State.outWrites, List.foldl_cons]
    exact h

/-- At most one request changes the trace and the backends only. -/
theorem issueOpt_frame (B : Backend) (s : State) (r : Option Request) :
    s.issueOpt B r = { s with trace := (s.issueOpt B r).trace, hashAcc := (s.issueOpt B r).hashAcc,
                              rngPos := (s.issueOpt B r).rngPos, drawPos := (s.issueOpt B r).drawPos } := by
  cases r <;> rfl

/-- The bytes of a buffer slice. -/
theorem bufBytes_ext (s t : State) (b : Buf) (len : Nat)
    (h : ∀ k, k < len → s.bufByte b k = t.bufByte b k) : s.bufBytes b len = t.bufBytes b len := by
  simp only [State.bufBytes, readBytes]
  apply List.map_congr_left
  intro k hk
  exact h k (List.mem_range.1 hk)

/-- What OutWrite stored reads back. -/
theorem bufBytes_outWrite_same (s : State) (b : Buf) (t : Bytes) (ht : t.length ≤ bufCap) :
    (s.outWrite b t).bufBytes b t.length = t := by
  apply List.ext_getElem
  · exact readBytes_length _ _ _
  · intro k h1 h2
    simp only [State.bufBytes, readBytes, List.getElem_map, List.getElem_range]
    rw [readByte_outWrite s b t ht, if_pos ⟨by omega, by omega⟩]
    simp [List.getD, h2]

/-- A slice of another buffer is as before. -/
theorem bufBytes_outWrite_other (s : State) (b b' : Buf) (t : Bytes) (len : Nat) (hb : b ≠ b')
    (hl : len ≤ bufCap) : (s.outWrite b t).bufBytes b' len = s.bufBytes b' len := by
  apply bufBytes_ext
  intro k hk
  simp only [State.bufByte, State.outWrite_mem, readByte_writeBytes, outImage_length]
  rw [if_neg]
  cases b <;> cases b' <;> simp_all [bufBase, bufCap] <;> omega

end Sys2Proof.Machine
end

