-- ==== Sys2Proof/Laws/Run.lean ====
section
/-! SUPPORT. What running a command does, from what one engine step does: a run inside the command, and a run
to its completion. -/

namespace Sys2Proof.Machine

/-- A run inside one command changes only the FSM's point, scratch, the trace and the backends. -/
structure RunsOn (s t : State) : Prop where
  op : t.fsm.op = s.fsm.op
  frame : t = { s with fsm := t.fsm, scratch := t.scratch, trace := t.trace, hashAcc := t.hashAcc,
                       rngPos := t.rngPos, drawPos := t.drawPos }

theorem RunsOn.refl (s : State) : RunsOn s s := ⟨rfl, rfl⟩

theorem RunsOn.trans {s t u : State} (h : RunsOn s t) (h' : RunsOn t u) : RunsOn s u :=
  ⟨h'.op.trans h.op, by rw [h'.frame, h.frame]⟩

theorem runsOn_go (B : Backend) (s : State) (r : Request) (f : Fsm) (sc : Scratch) (h : f.op = s.fsm.op) :
    RunsOn s { s.issue B r with fsm := f, scratch := sc } := ⟨h, rfl⟩

/-- A run that completes: some run inside the command, then the completion step. -/
inductive Completes (s : State) : State → Prop
  | mk (u : State) (l : List (Buf × Bytes)) (c : Code) (hu : RunsOn s u) (hl : outputsOf c l) :
      Completes s ((u.outWrites l).complete c)

theorem completes_done (B : Backend) (s u : State) (h : RunsOn s u) (r : Option Request)
    (l : List (Buf × Bytes)) (c : Code) (hl : outputsOf c l) :
    Completes s (((u.issueOpt B r).outWrites l).complete c) := by
  refine .mk (u.issueOpt B r) l c (h.trans ?_) hl
  cases r
  · exact RunsOn.refl u
  · exact ⟨rfl, rfl⟩

/-- Any number of engine steps of a running command: it is still inside, or it has completed. -/
theorem engineLoop_run (B : Backend) (i : Instr) (n : Nat) (s : State) (h : s.fsm.op = some (.cmd i)) :
    RunsOn s (engineLoop (commandStep B i) n s) ∨ Completes s (engineLoop (commandStep B i) n s) := by
  have key := engineLoop_keeps (commandStep B i) (fun t => RunsOn s t ∨ Completes s t) ?_ n s
    (.inl (RunsOn.refl s))
  · exact key
  · rintro t ht (hr | hc)
    · have hop : t.fsm.op = some (.cmd i) := hr.op.trans h
      have hm := commandStep_moves B i t hop
      generalize commandStep B i t = v at hm ⊢
      cases hm with
      | go r f sc hf => exact .inl (hr.trans (runsOn_go B t r f sc hf))
      | done r l c hl => exact .inr (completes_done B s t hr r l c hl)
    · cases hc with
      | mk u l c hu hl => simp [Fsm.isIdle, State.complete] at ht

/-- In a state whose engine runs something else, or nothing, a command's step function changes nothing
(log 13). -/
theorem engineLoop_other (B : Backend) (i : Instr) (n : Nat) (s : State) (h : s.fsm.op ≠ some (.cmd i)) :
    engineLoop (commandStep B i) n s = s := by
  induction n with
  | zero => rfl
  | succ n ih =>
    cases hi : s.fsm.isIdle with
    | true => exact engineLoop_idle _ _ _ hi
    | false => rw [engineLoop_succ _ _ _ hi, commandStep_other B i s h, ih]

/-- `exec` of the running command: still inside, or completed; either way the grant is used up. -/
theorem exec_run (i : Instr) (s t : State) (h : s.fsm.op = some (.cmd i)) (ht : exec i s = .next t) :
    ∃ u, (RunsOn s u ∨ Completes s u) ∧ t = { u with grant := 0 } := by
  rw [exec_eq, runGranted] at ht
  cases ht
  exact ⟨_, engineLoop_run Config.backend i s.grant s h, rfl⟩

/-- The completion state's fields (60_exceptions.md R362). -/
theorem completes_fields {s t : State} (h : Completes s t) :
    ∃ c, t.status = s.status.completed c ∧ t.fsm = .idle ∧ t.scratch = Scratch.zero ∧
      t = { t with cfg := s.cfg, ie := s.ie, lblLen := s.lblLen, outLen := s.outLen, e := s.e,
                   sched := s.sched, grant := s.grant, resp := s.resp } := by
  cases h with
  | mk u l c hu hl =>
    refine ⟨c, ?_, rfl, rfl, ?_⟩
    · rw [State.complete_status, outWrites_frame, hu.frame]
    · rw [outWrites_frame l u, hu.frame]; rfl

/-- A command's completion keeps the canonical form of the storage. -/
theorem completes_wf {s t : State} (h : Completes s t) (hm : Memory.wf s.mem = true) :
    Memory.wf t.mem = true := by
  cases h with
  | mk u l c hu hl =>
    rw [State.complete_mem]
    exact outWrites_wf l u (by rw [hu.frame]; exact hm)

end Sys2Proof.Machine
end

