-- ==== Sys2Proof/Laws/Rsa.lean ====
section
/-! SUPPORT. RSA_DECRYPT as a run: each engine step, the CRT schedule, and the state after all of them. -/

namespace Sys2Proof.Machine

/-- A state inside RSA_DECRYPT, from the state the command started in. -/
def rsaAt (s : State) (f : Fsm) (k : KeyScratch) (x : RsaScratch) (tr : List Request) : State :=
  { s with fsm := f, scratch := { s.scratch with key := k, rsa := x }, trace := s.trace ++ tr }

section
variable (B : Backend) (s : State) (k : KeyScratch) (x : RsaScratch) (tr : List Request)

theorem decrypt_reduceP (h : 1 ≤ k.pv):
    decryptStep B (rsaAt s (.rsaDecrypt .reduceP) k x tr)
      = rsaAt s (.rsaDecrypt .reduceQ) k { x with jp := x.g % k.pv } (tr ++ [.mod x.g k.pv]) := by
  simp [decryptStep, rsaAt, State.issue, State.answer, Request.hashAcc, Request.rngTaken, Request.draws, h]

theorem decrypt_reduceQ (h : 1 ≤ k.qv):
    decryptStep B (rsaAt s (.rsaDecrypt .reduceQ) k x tr)
      = rsaAt s (.rsaDecrypt .expP) k { x with jq := x.g % k.qv } (tr ++ [.mod x.g k.qv]) := by
  simp [decryptStep, rsaAt, State.issue, State.answer, Request.hashAcc, Request.rngTaken, Request.draws, h]

/-- What step 3 answers for a modulus: exact where it is odd, any value where it is even
(43_rsa_crt.md R309, 40_backend_primitives.md R169). -/
def stepThree (B : Backend) (draw j d m : Nat) : Nat := if m % 2 = 1 then j ^ d % m else B.bigAny draw

theorem decrypt_expP (hb : x.jp < k.pv) :
    decryptStep B (rsaAt s (.rsaDecrypt .expP) k x tr)
      = rsaAt { s with drawPos := s.drawPos + (1 - k.pv % 2) } (.rsaDecrypt .expQ) k
          { x with jp := stepThree B s.drawPos x.jp k.dpv k.pv } (tr ++ [.modExp x.jp k.dpv k.pv]) := by
  rcases Nat.mod_two_eq_zero_or_one k.pv with h | h <;>
    simp [decryptStep, rsaAt, stepThree, State.issue, State.answer, Request.hashAcc, Request.rngTaken,
      Request.draws, h, hb, powMod_eq]

theorem decrypt_expQ (hb : x.jq < k.qv) :
    decryptStep B (rsaAt s (.rsaDecrypt .expQ) k x tr)
      = rsaAt { s with drawPos := s.drawPos + (1 - k.qv % 2) } (.rsaDecrypt .crossReduce) k
          { x with jq := stepThree B s.drawPos x.jq k.dqv k.qv } (tr ++ [.modExp x.jq k.dqv k.qv]) := by
  rcases Nat.mod_two_eq_zero_or_one k.qv with h | h <;>
    simp [decryptStep, rsaAt, stepThree, State.issue, State.answer, Request.hashAcc, Request.rngTaken,
      Request.draws, h, hb, powMod_eq]

theorem decrypt_crossReduce (h : 1 ≤ k.qv):
    decryptStep B (rsaAt s (.rsaDecrypt .crossReduce) k x tr)
      = rsaAt s (.rsaDecrypt .compare) k { x with a := x.jp % k.qv } (tr ++ [.mod x.jp k.qv]) := by
  simp [decryptStep, rsaAt, State.issue, State.answer, Request.hashAcc, Request.rngTaken, Request.draws, h]

theorem decrypt_compare_adjust (h : x.jq < x.a):
    decryptStep B (rsaAt s (.rsaDecrypt .compare) k x tr)
      = rsaAt s (.rsaDecrypt .adjust) k x (tr ++ [.cmp x.a x.jq]) := by
  simp [decryptStep, rsaAt, State.issue, State.answer, Request.hashAcc, Request.rngTaken, Request.draws, h, compare_gt_iff_gt]

theorem decrypt_compare_subtract (h : ¬ x.jq < x.a):
    decryptStep B (rsaAt s (.rsaDecrypt .compare) k x tr)
      = rsaAt s (.rsaDecrypt .subtract) k x (tr ++ [.cmp x.a x.jq]) := by
  simp [decryptStep, rsaAt, State.issue, State.answer, Request.hashAcc, Request.rngTaken, Request.draws, h, compare_gt_iff_gt]

theorem decrypt_adjust :
    decryptStep B (rsaAt s (.rsaDecrypt .adjust) k x tr)
      = rsaAt s (.rsaDecrypt .subtract) k { x with jq := x.jq + k.qv } (tr ++ [.add x.jq k.qv]) := by
  simp [decryptStep, rsaAt, State.issue, State.answer, Request.hashAcc, Request.rngTaken, Request.draws]

theorem decrypt_subtract (h : x.a ≤ x.jq):
    decryptStep B (rsaAt s (.rsaDecrypt .subtract) k x tr)
      = rsaAt s (.rsaDecrypt .mulC) k { x with jq := x.jq - x.a } (tr ++ [.sub x.jq x.a]) := by
  simp [decryptStep, rsaAt, State.issue, State.answer, Request.hashAcc, Request.rngTaken, Request.draws, h]

theorem decrypt_mulC :
    decryptStep B (rsaAt s (.rsaDecrypt .mulC) k x tr)
      = rsaAt s (.rsaDecrypt .reduceH) k { x with t := x.jq * k.cv } (tr ++ [.mul x.jq k.cv]) := by
  simp [decryptStep, rsaAt, State.issue, State.answer, Request.hashAcc, Request.rngTaken, Request.draws]

theorem decrypt_reduceH (h : 1 ≤ k.qv):
    decryptStep B (rsaAt s (.rsaDecrypt .reduceH) k x tr)
      = rsaAt s (.rsaDecrypt .mulP) k { x with h := x.t % k.qv } (tr ++ [.mod x.t k.qv]) := by
  simp [decryptStep, rsaAt, State.issue, State.answer, Request.hashAcc, Request.rngTaken, Request.draws, h]

theorem decrypt_mulP :
    decryptStep B (rsaAt s (.rsaDecrypt .mulP) k x tr)
      = rsaAt s (.rsaDecrypt .addJp) k { x with t := x.h * k.pv } (tr ++ [.mul x.h k.pv]) := by
  simp [decryptStep, rsaAt, State.issue, State.answer, Request.hashAcc, Request.rngTaken, Request.draws]

theorem decrypt_addJp :
    decryptStep B (rsaAt s (.rsaDecrypt .addJp) k x tr)
      = rsaAt s (.rsaDecrypt .serialize) k { x with r := x.t + x.jp } (tr ++ [.add x.t x.jp]) := by
  simp [decryptStep, rsaAt, State.issue, State.answer, Request.hashAcc, Request.rngTaken, Request.draws]

/-- One engine step at a time. -/
theorem engineLoop_step (f : State → State) (n : Nat) {s u : State} (hs : s.fsm.isIdle = false) (h : f s = u) :
    engineLoop f (n + 1) s = engineLoop f n u := by rw [engineLoop_succ f n s hs, h]

/-- RSA_DECRYPT's engine steps 1 to 6: the conversions of the block and the key (43_rsa_crt.md R314). -/
theorem decrypt_reads (hs : s.fsm = .rsaDecrypt .start) (hb : s.blkLen.toNat = s.cfg.rfs)
    (hp : allZero (s.keyBytes .p) = false) (hq : allZero (s.keyBytes .q) = false) :
    engineLoop (decryptStep B) 6 s
      = rsaAt s (.rsaDecrypt .reduceP)
          { s.scratch.key with
            pv := fromBytes (s.keyBytes .p), qv := fromBytes (s.keyBytes .q)
            dpv := fromBytes (s.keyBytes .dp), dqv := fromBytes (s.keyBytes .dq)
            cv := fromBytes (s.keyBytes .c) }
          { s.scratch.rsa with g := fromBytes s.block }
          [.fromBytes s.block, .fromBytes (s.keyBytes .p), .fromBytes (s.keyBytes .q),
            .fromBytes (s.keyBytes .dp), .fromBytes (s.keyBytes .dq), .fromBytes (s.keyBytes .c)] := by
  have h1 : decryptStep B s
      = rsaAt s (.rsaDecrypt .readP) s.scratch.key { s.scratch.rsa with g := fromBytes s.block }
          [.fromBytes s.block] := by
    simp [decryptStep, hs, hb, hp, hq, rsaAt, State.issue, State.answer, Request.hashAcc, Request.rngTaken,
      Request.draws]
  rw [engineLoop_step _ _ (by rw [hs]; rfl) h1]
  simp [engineLoop, decryptStep, rsaAt, State.issue, State.answer, Request.hashAcc, Request.rngTaken,
    Request.draws, Fsm.isIdle, State.keyBytes, State.bufBytes]

/-- RSA_DECRYPT's engine steps of steps 2 and 3, with non-zero `p` and `q` (43_rsa_crt.md R308, R309, requests
7 to 10 of R314). -/
theorem decrypt_exponents (hp : 1 ≤ k.pv) (hq : 1 ≤ k.qv) :
    engineLoop (decryptStep B) 4 (rsaAt s (.rsaDecrypt .reduceP) k x tr)
      = rsaAt { s with drawPos := s.drawPos + (1 - k.pv % 2) + (1 - k.qv % 2) } (.rsaDecrypt .crossReduce) k
          { x with
            jp := stepThree B s.drawPos (x.g % k.pv) k.dpv k.pv
            jq := stepThree B (s.drawPos + (1 - k.pv % 2)) (x.g % k.qv) k.dqv k.qv }
          (tr ++ [.mod x.g k.pv, .mod x.g k.qv, .modExp (x.g % k.pv) k.dpv k.pv,
            .modExp (x.g % k.qv) k.dqv k.qv]) := by
  rw [engineLoop_step _ _ rfl (decrypt_reduceP B s k x tr hp),
    engineLoop_step _ _ rfl (decrypt_reduceQ B s k _ _ hq),
    engineLoop_step _ _ rfl (decrypt_expP B s k _ _ (Nat.mod_lt _ hp)),
    engineLoop_step _ _ rfl (decrypt_expQ B _ k _ _ (Nat.mod_lt _ hq))]
  simp [engineLoop]

/-- RSA_DECRYPT's engine steps of steps 4 and 5, from any values of step 3, with a non-zero `q`
(43_rsa_crt.md R310, R311, requests 11 to 17 of R314): the result is `crtCombine`. -/
theorem decrypt_combine (hq : 1 ≤ k.qv) :
    ∃ x', x'.r = crtCombine k.pv k.qv k.cv x.jp x.jq ∧
      engineLoop (decryptStep B) (if x.jq < x.jp % k.qv then 8 else 7)
          (rsaAt s (.rsaDecrypt .crossReduce) k x tr)
        = rsaAt s (.rsaDecrypt .serialize) k x'
            (tr ++ (combineTrace s.cfg.rfs k.pv k.qv k.cv x.jp x.jq).dropLast) := by
  have ha : x.jp % k.qv < k.qv := Nat.mod_lt _ hq
  have tail : ∀ (x' : RsaScratch) (tr' : List Request), x'.a ≤ x'.jq →
      engineLoop (decryptStep B) 5 (rsaAt s (.rsaDecrypt .subtract) k x' tr')
        = rsaAt s (.rsaDecrypt .serialize) k
            { x' with
              jq := x'.jq - x'.a, h := (x'.jq - x'.a) * k.cv % k.qv
              t := (x'.jq - x'.a) * k.cv % k.qv * k.pv
              r := (x'.jq - x'.a) * k.cv % k.qv * k.pv + x'.jp }
            (tr' ++ [.sub x'.jq x'.a, .mul (x'.jq - x'.a) k.cv, .mod ((x'.jq - x'.a) * k.cv) k.qv,
              .mul ((x'.jq - x'.a) * k.cv % k.qv) k.pv, .add ((x'.jq - x'.a) * k.cv % k.qv * k.pv) x'.jp]) := by
    intro x' tr' hx
    rw [engineLoop_step _ _ rfl (decrypt_subtract B s k x' tr' hx), engineLoop_step _ _ rfl (decrypt_mulC ..),
      engineLoop_step _ _ rfl (decrypt_reduceH B s k _ _ hq), engineLoop_step _ _ rfl (decrypt_mulP ..),
      engineLoop_step _ _ rfl (decrypt_addJp ..)]
    simp [engineLoop]
  by_cases hlt : x.jq < x.jp % k.qv
  · rw [if_pos hlt, engineLoop_step _ _ rfl (decrypt_crossReduce B s k x tr hq),
      engineLoop_step _ _ rfl (decrypt_compare_adjust B s k _ _ hlt), engineLoop_step _ _ rfl (decrypt_adjust ..),
      tail _ _ (by show x.jp % k.qv ≤ x.jq + k.qv; omega)]
    refine ⟨_, ?_, congrArg (rsaAt s _ k _) (by simp [combineTrace, hlt])⟩
    simp [crtCombine, hlt]
  · rw [if_neg hlt, engineLoop_step _ _ rfl (decrypt_crossReduce B s k x tr hq),
      engineLoop_step _ _ rfl (decrypt_compare_subtract B s k _ _ hlt),
      tail _ _ (by show x.jp % k.qv ≤ x.jq; omega)]
    refine ⟨_, ?_, congrArg (rsaAt s _ k _) (by simp [combineTrace, hlt])⟩
    simp [crtCombine, hlt]

/-- RSA_DECRYPT's last engine step (43_rsa_crt.md R312, R313). -/
theorem decrypt_serialize :
    engineLoop (decryptStep B) 1 (rsaAt s (.rsaDecrypt .serialize) k x tr)
      = { (s.outWrite .blk (toBytes x.r s.cfg.rfs)).complete .none with
          trace := s.trace ++ (tr ++ [.toBytes x.r s.cfg.rfs]) } := by
  rw [engineLoop_succ _ _ _ rfl, engineLoop]
  simp [decryptStep, rsaAt, State.issue, State.answer, Request.hashAcc, Request.rngTaken, Request.draws,
    State.outWrite, State.complete]

theorem combineTrace_last (rfs p q c jp jq : Nat) :
    combineTrace rfs p q c jp jq
      = (combineTrace rfs p q c jp jq).dropLast ++ [.toBytes (crtCombine p q c jp jq) rfs] := by
  by_cases h : jq < jp % q <;> simp [combineTrace, crtCombine, h]

end

/-- Everything RSA_DECRYPT does with non-zero `p` and `q`: 18 or 19 engine steps to the completion
(43_rsa_crt.md R306 to R314). -/
theorem decrypt_run (B : Backend) (s : State) (hs : s.fsm = .rsaDecrypt .start)
    (hb : s.blkLen.toNat = s.cfg.rfs) {p q : Nat} (ep : fromBytes (s.keyBytes .p) = p)
    (eq : fromBytes (s.keyBytes .q) = q) (hp : p ≠ 0) (hq : q ≠ 0) :
    let g := fromBytes s.block
    let dp := fromBytes (s.keyBytes .dp)
    let dq := fromBytes (s.keyBytes .dq)
    let c := fromBytes (s.keyBytes .c)
    let jp := stepThree B s.drawPos (g % p) dp p
    let jq := stepThree B (s.drawPos + (1 - p % 2)) (g % q) dq q
    ∃ n, n ≤ 19 ∧ engineLoop (decryptStep B) n s =
      { (s.outWrite .blk (toBytes (crtCombine p q c jp jq) s.cfg.rfs)).complete .none with
        trace := s.trace ++ decryptTraceFrom s.block (s.keyBytes .p) (s.keyBytes .q) (s.keyBytes .dp)
          (s.keyBytes .dq) (s.keyBytes .c) s.cfg.rfs g p q dp dq c jp jq
        drawPos := s.drawPos + (1 - p % 2) + (1 - q % 2) } := by
  intro g dp dq c jp jq
  have hzp : allZero (s.keyBytes .p) = false := by rw [Bool.eq_false_iff, ne_eq, allZero_iff, ep]; exact hp
  have hzq : allZero (s.keyBytes .q) = false := by rw [Bool.eq_false_iff, ne_eq, allZero_iff, eq]; exact hq
  have h1 := decrypt_reads B s hs hb hzp hzq
  rw [ep, eq] at h1
  have h2 := (engineLoop_add (decryptStep B) 6 4 s).trans ((congrArg _ h1).trans
    (decrypt_exponents B s _ _ _ (Nat.pos_of_ne_zero hp) (Nat.pos_of_ne_zero hq)))
  obtain ⟨x', er, h3⟩ := decrypt_combine B { s with drawPos := s.drawPos + (1 - p % 2) + (1 - q % 2) }
    { s.scratch.key with pv := p, qv := q, dpv := dp, dqv := dq, cv := c }
    { s.scratch.rsa with g := g, jp := jp, jq := jq }
    ([.fromBytes s.block, .fromBytes (s.keyBytes .p), .fromBytes (s.keyBytes .q), .fromBytes (s.keyBytes .dp),
      .fromBytes (s.keyBytes .dq), .fromBytes (s.keyBytes .c)]
      ++ [.mod g p, .mod g q, .modExp (g % p) dp p, .modExp (g % q) dq q]) (Nat.pos_of_ne_zero hq)
  have h4 := (engineLoop_add (decryptStep B) _ _ s).trans ((congrArg _ h2).trans h3)
  have h5 := (engineLoop_add (decryptStep B) _ 1 s).trans ((congrArg _ h4).trans (decrypt_serialize ..))
  refine ⟨_, ?_, h5.trans ?_⟩
  · split <;> omega
  · rw [er, decryptTraceFrom, combineTrace_last]
    simp [State.outWrite, State.complete]

end Sys2Proof.Machine
end

