-- ==== Sys2Proof/Laws/KeyFsm.lean ====
section
/-! SUPPORT. KEY_GENERATE as runs: the candidate of an attempt, the upward search, FindPrime, and the closing
arithmetic, for any backends. -/

namespace Sys2Proof.Machine

/-- Some number of engine steps leads from one state to another. -/
def Reaches (f : State → State) (s t : State) : Prop := ∃ n, engineLoop f n s = t

theorem Reaches.refl (f : State → State) (s : State) : Reaches f s s := ⟨0, rfl⟩

theorem Reaches.trans {f : State → State} {s t u : State} (h : Reaches f s t) (h' : Reaches f t u) :
    Reaches f s u := by
  obtain ⟨m, rfl⟩ := h
  obtain ⟨n, rfl⟩ := h'
  exact ⟨m + n, engineLoop_add f m n s⟩

theorem Reaches.step {f : State → State} {s t u : State} (hs : s.fsm.isIdle = false) (h : f s = t)
    (h' : Reaches f t u) : Reaches f s u := by
  obtain ⟨n, rfl⟩ := h'
  exact ⟨n + 1, engineLoop_step f n hs h⟩

/-- Once completed, completed for every larger number of engine steps. -/
theorem Reaches.done {f : State → State} {s t : State} (h : Reaches f s t) (ht : t.fsm.isIdle = true) :
    ∃ n, ∀ g, n ≤ g → engineLoop f g s = t := by
  obtain ⟨n, hn⟩ := h
  exact ⟨n, fun g hg => engineLoop_done f hn ht hg⟩

/-- A state inside KEY_GENERATE, from the state the command started in. -/
def genAt (s : State) (f : GeneratePoint) (k : KeyScratch) (x : GenScratch) (tr : List Request)
    (d : DrawPoint) : State :=
  { s with
    fsm := .keyGenerate f, scratch := { s.scratch with key := k, gen := x }, trace := tr
    rngPos := d.rng, drawPos := d.draw }

section
variable (B : Backend) (s : State) (k : KeyScratch) (x : GenScratch) (tr : List Request) (d : DrawPoint)
  (w : Side)

/-- The prime that FindPrime avoids on a side (41_key_fsm.md R203, R209). -/
def avoided (k : KeyScratch) : Side → Option Nat
  | .p => none
  | .q => some k.pv

/-- Where an accepted prime leads (41_key_fsm.md R203). -/
def afterPrime (s : State) (w : Side) (k : KeyScratch) (x : GenScratch) (tr : List Request)
    (d : DrawPoint) : State :=
  match w with
  | .p => genAt s (.draw .q) { k with pv := x.x } x tr d
  | .q => genAt s .modulus { k with qv := x.x } x tr d

theorem generate_draw :
    generateStep B (genAt s (.draw w) k x tr d)
      = genAt s (.fromBytes w) k { x with raw := forceTopBit (randomBytes B d.rng (hrfs s.cfg)) }
          (tr ++ [.rngRead (hrfs s.cfg)]) (d.read (hrfs s.cfg)) := by
  simp [generateStep, drawCandidate, genAt, State.issue, State.answer, Request.hashAcc, Request.rngTaken,
    Request.draws, DrawPoint.read]

theorem generate_fromBytes :
    generateStep B (genAt s (.fromBytes w) k x tr d)
      = genAt s (.lowBits w) k { x with x := fromBytes x.raw } (tr ++ [.fromBytes x.raw]) d := by
  simp [generateStep, genAt, State.issue, State.answer, Request.hashAcc, Request.rngTaken, Request.draws]

theorem generate_lowBits_three (h : x.x % 4 = 3) :
    generateStep B (genAt s (.lowBits w) k x tr d) = genAt s (.bound w) k x (tr ++ [.lowBits x.x 2]) d := by
  simp [generateStep, genAt, State.issue, State.answer, Request.hashAcc, Request.rngTaken, Request.draws, h]

theorem generate_lowBits_other (h : x.x % 4 ≠ 3) :
    generateStep B (genAt s (.lowBits w) k x tr d)
      = genAt s (.increment w) k x (tr ++ [.lowBits x.x 2]) d := by
  simp [generateStep, genAt, State.issue, State.answer, Request.hashAcc, Request.rngTaken, Request.draws, h]

theorem generate_increment :
    generateStep B (genAt s (.increment w) k x tr d)
      = genAt s (.lowBits w) k { x with x := x.x + 1 } (tr ++ [.add x.x 1]) d := by
  simp [generateStep, genAt, State.issue, State.answer, Request.hashAcc, Request.rngTaken, Request.draws]

theorem generate_bound_in (h : x.x < halfBound s.cfg) :
    generateStep B (genAt s (.bound w) k x tr d)
      = genAt s (.probe w) k x (tr ++ [.cmp x.x (halfBound s.cfg)]) d := by
  simp [generateStep, genAt, State.issue, State.answer, Request.hashAcc, Request.rngTaken, Request.draws, h,
    compare_lt_iff_lt]

theorem generate_bound_out (h : halfBound s.cfg ≤ x.x) :
    generateStep B (genAt s (.bound w) k x tr d)
      = genAt s (.draw w) k { x with raw := [], x := 0, x1 := 0 } (tr ++ [.cmp x.x (halfBound s.cfg)]) d := by
  simp [generateStep, genAt, restartAttempt, State.issue, State.answer, Request.hashAcc, Request.rngTaken,
    Request.draws, compare_lt_iff_lt, Nat.not_lt.2 h]

theorem generate_probe_hit (h : B.primeAnswer d.draw x.x = true) :
    generateStep B (genAt s (.probe w) k x tr d)
      = genAt s (.subOne w) k x (tr ++ [.isPrime x.x]) (d.probed B x.x) := by
  simp [generateStep, genAt, State.issue, State.answer, Request.hashAcc, Request.rngTaken, Request.draws, h,
    DrawPoint.probed]

theorem generate_probe_miss (h : B.primeAnswer d.draw x.x = false) :
    generateStep B (genAt s (.probe w) k x tr d)
      = genAt s (.advance w) k x (tr ++ [.isPrime x.x]) (d.probed B x.x) := by
  simp [generateStep, genAt, State.issue, State.answer, Request.hashAcc, Request.rngTaken, Request.draws, h,
    DrawPoint.probed]

theorem generate_advance :
    generateStep B (genAt s (.advance w) k x tr d)
      = genAt s (.bound w) k { x with x := x.x + 4 } (tr ++ [.add x.x 4]) d := by
  simp [generateStep, genAt, State.issue, State.answer, Request.hashAcc, Request.rngTaken, Request.draws]

theorem generate_subOne (h : 1 ≤ x.x) :
    generateStep B (genAt s (.subOne w) k x tr d)
      = genAt s (.coFactor w) k { x with x1 := x.x - 1 } (tr ++ [.sub x.x 1]) d := by
  simp [generateStep, genAt, State.issue, State.answer, Request.hashAcc, Request.rngTaken, Request.draws, h]

theorem generate_coFactor_bad (h : Nat.gcd x.x1 s.e.toNat ≠ 1) :
    generateStep B (genAt s (.coFactor w) k x tr d)
      = genAt s (.draw w) k { x with raw := [], x := 0, x1 := 0 } (tr ++ [.coFactor x.x1 s.e.toNat]) d := by
  simp [generateStep, genAt, restartAttempt, State.issue, State.answer, Request.hashAcc, Request.rngTaken,
    Request.draws, h]

theorem generate_coFactor_p (h : Nat.gcd x.x1 s.e.toNat = 1) :
    generateStep B (genAt s (.coFactor .p) k x tr d)
      = afterPrime s .p k x (tr ++ [.coFactor x.x1 s.e.toNat]) d := by
  simp [generateStep, genAt, primeFound, afterPrime, State.issue, State.answer, Request.hashAcc,
    Request.rngTaken, Request.draws, h]

theorem generate_coFactor_q (h : Nat.gcd x.x1 s.e.toNat = 1) :
    generateStep B (genAt s (.coFactor .q) k x tr d)
      = genAt s .distinct k x (tr ++ [.coFactor x.x1 s.e.toNat]) d := by
  simp [generateStep, genAt, State.issue, State.answer, Request.hashAcc, Request.rngTaken, Request.draws, h]

theorem generate_distinct_same (h : x.x = k.pv) :
    generateStep B (genAt s .distinct k x tr d)
      = genAt s (.draw .q) k { x with raw := [], x := 0, x1 := 0 } (tr ++ [.cmp x.x k.pv]) d := by
  simp [generateStep, genAt, restartAttempt, State.issue, State.answer, Request.hashAcc, Request.rngTaken,
    Request.draws, h]

theorem generate_distinct_other (h : x.x ≠ k.pv) :
    generateStep B (genAt s .distinct k x tr d) = afterPrime s .q k x (tr ++ [.cmp x.x k.pv]) d := by
  simp [generateStep, genAt, primeFound, afterPrime, State.issue, State.answer, Request.hashAcc,
    Request.rngTaken, Request.draws, h]

/-- One increment of R205's raise, at the front of its requests. -/
theorem residueTrace_step {x : Nat} (h : x % 4 ≠ 3) :
    residueTrace x = [.lowBits x 2, .add x 1] ++ residueTrace (x + 1) := by
  rw [residueTrace, show 3 - x % 4 = (3 - (x + 1) % 4) + 1 by omega, List.range_succ_eq_map,
    show residueUp x = residueUp (x + 1) by simp only [residueUp]; omega]
  simp [residueTrace, List.flatMap_map, Nat.add_assoc, Nat.add_comm 1]

theorem residueTrace_three {x : Nat} (h : x % 4 = 3) : residueTrace x = [.lowBits x 2] := by
  simp [residueTrace, residueUp, h]

/-- R205's raise to 3 modulo 4: at most three increments. -/
theorem generate_raise :
    Reaches (generateStep B) (genAt s (.lowBits w) k x tr d)
      (genAt s (.bound w) k { x with x := residueUp x.x } (tr ++ residueTrace x.x) d) := by
  have key : ∀ n (x : GenScratch) (tr : List Request), 3 - x.x % 4 = n →
      Reaches (generateStep B) (genAt s (.lowBits w) k x tr d)
        (genAt s (.bound w) k { x with x := residueUp x.x } (tr ++ residueTrace x.x) d) := by
    intro n
    induction n with
    | zero =>
      intro x tr h
      have e : { x with x := residueUp x.x } = x := by
        rw [show residueUp x.x = x.x by rw [residueUp]; omega]
      rw [e, residueTrace_three (by omega)]
      exact .step rfl (generate_lowBits_three B s k x tr d w (by omega)) (Reaches.refl _ _)
    | succ n ih =>
      intro x tr h
      have h' := ih { x with x := x.x + 1 } (tr ++ [.lowBits x.x 2] ++ [.add x.x 1]) (by
        show 3 - (x.x + 1) % 4 = n; omega)
      rw [show residueUp (x.x + 1) = residueUp x.x by simp only [residueUp]; omega] at h'
      rw [residueTrace_step (by omega)]
      refine .step rfl (generate_lowBits_other B s k x tr d w (by omega)) (.step rfl
        (generate_increment ..) ?_)
      simpa using h'
  exact key _ x tr rfl

/-- An attempt's first candidate (41_key_fsm.md R204, R205). -/
theorem generate_candidate :
    ∃ x', x'.x = firstCandidate B s.cfg d ∧
      Reaches (generateStep B) (genAt s (.draw w) k x tr d)
        (genAt s (.bound w) k x' (tr ++ candidateTrace B s.cfg d) (d.read (hrfs s.cfg))) := by
  have h := generate_raise B s k
    { x with raw := forceTopBit (randomBytes B d.rng (hrfs s.cfg))
             x := fromBytes (forceTopBit (randomBytes B d.rng (hrfs s.cfg))) }
    (tr ++ [.rngRead (hrfs s.cfg)] ++ [.fromBytes (forceTopBit (randomBytes B d.rng (hrfs s.cfg)))])
    (d.read (hrfs s.cfg)) w
  rw [List.append_assoc, List.append_assoc] at h
  exact ⟨_, rfl, .step rfl (generate_draw ..) (.step rfl (generate_fromBytes ..)
    (by rw [List.append_assoc]; exact h))⟩

/-- The upward search ends with an accepted candidate, or by starting a new attempt (41_key_fsm.md R206,
R207). -/
theorem generate_search {y : Nat} {r : Option Nat} {d' : DrawPoint} {tr' : List Request}
    (h : Probes B s.cfg y d r d' tr') (hx : x.x = y) :
    ∃ x', Reaches (generateStep B) (genAt s (.bound w) k x tr d)
      (match r with
        | some z => genAt s (.subOne w) k { x' with x := z } (tr ++ tr') d'
        | none => genAt s (.draw w) k x' (tr ++ tr') d') := by
  induction h generalizing x tr with
  | bound hb =>
    subst hx
    exact ⟨_, .step rfl (generate_bound_out B s k x tr _ w hb) (Reaches.refl _ _)⟩
  | hit hb ha =>
    subst hx
    refine ⟨x, .step rfl (generate_bound_in B s k x tr _ w hb)
      (.step rfl (generate_probe_hit B s k x _ _ w ha) ?_)⟩
    rw [List.append_assoc]
    exact Reaches.refl _ _
  | @miss _ _ r _ _ hb ha _ ih =>
    subst hx
    obtain ⟨x', h⟩ := ih { x with x := x.x + 4 }
      (tr ++ [.cmp x.x (halfBound s.cfg)] ++ [.isPrime x.x] ++ [.add x.x 4]) rfl
    refine ⟨x', .step rfl (generate_bound_in B s k x tr _ w hb)
      (.step rfl (generate_probe_miss B s k x _ _ w ha) (.step rfl (generate_advance ..) ?_))⟩
    cases r <;> simpa using h

/-- The candidates of a search are 3 modulo 4, as its start is, and a hit is below the bound. -/
theorem probes_hit {c : Params} {y z : Nat} {d' : DrawPoint} {r : Option Nat} {tr : List Request}
    (h : Probes B c y d r d' tr) (hr : r = some z) (hy : y % 4 = 3) :
    z % 4 = 3 ∧ y ≤ z ∧ z < halfBound c := by
  induction h with
  | bound => simp at hr
  | hit hb _ => cases hr; exact ⟨hy, le_refl _, hb⟩
  | miss _ _ _ ih => obtain ⟨a, b, c⟩ := ih hr (by omega); exact ⟨a, by omega, c⟩

/-- A search's hit was answered `true` at some draw. -/
theorem probes_answer {c : Params} {y z : Nat} {d' : DrawPoint} {r : Option Nat} {tr : List Request}
    (h : Probes B c y d r d' tr) (hr : r = some z) : ∃ n, B.primeAnswer n z = true := by
  induction h with
  | bound => simp at hr
  | hit _ ha => cases hr; exact ⟨_, ha⟩
  | miss _ _ _ ih => exact ih hr

theorem firstCandidate_mod (c : Params) : firstCandidate B c d % 4 = 3 := by
  simp only [firstCandidate, residueUp]; omega

/-- An accepted candidate leads on; a rejected one starts a new attempt (41_key_fsm.md R208, R209). -/
theorem generate_accept (hx : x.x % 4 = 3) (h : acceptable s.e.toNat (avoided k w) x.x) :
    ∃ x', x'.x = x.x ∧ Reaches (generateStep B) (genAt s (.subOne w) k x tr d)
      (afterPrime s w k x' (tr ++ checkTrace s.e.toNat (avoided k w) x.x) d) := by
  have h1 := generate_subOne B s k x tr d w (by omega)
  cases w with
  | p =>
    refine ⟨{ x with x1 := x.x - 1 }, rfl, .step rfl h1
      (.step rfl (generate_coFactor_p B s k _ _ d h.1) ?_)⟩
    simpa [checkTrace, avoided] using Reaches.refl _ _
  | q =>
    have hne : x.x ≠ k.pv := by have := h.2; simp only [avoided] at this; intro e; exact this (by rw [e])
    refine ⟨{ x with x1 := x.x - 1 }, rfl, .step rfl h1
      (.step rfl (generate_coFactor_q B s k _ _ d h.1)
        (.step rfl (generate_distinct_other B s k _ _ d hne) ?_))⟩
    simpa [checkTrace, avoided, h.1] using Reaches.refl _ _

theorem generate_reject (hx : x.x % 4 = 3) (h : ¬ acceptable s.e.toNat (avoided k w) x.x) :
    ∃ x', Reaches (generateStep B) (genAt s (.subOne w) k x tr d)
      (genAt s (.draw w) k x' (tr ++ checkTrace s.e.toNat (avoided k w) x.x) d) := by
  have h1 := generate_subOne B s k x tr d w (by omega)
  by_cases hg : Nat.gcd (x.x - 1) s.e.toNat = 1
  · have hav : avoided k w = some x.x := by
      by_contra hne; exact h ⟨hg, hne⟩
    cases w with
    | p => simp [avoided] at hav
    | q =>
      have he : x.x = k.pv := by simpa [avoided] using hav.symm
      have h2 := generate_distinct_same B s k { x with x1 := x.x - 1 }
        (tr ++ [.sub x.x 1] ++ [.coFactor (x.x - 1) s.e.toNat]) d he
      refine ⟨{ x with raw := [], x := 0, x1 := 0 }, .step rfl h1
        (.step rfl (generate_coFactor_q B s k _ _ d hg) (.step rfl h2 ?_))⟩
      simpa [checkTrace, avoided, hg] using Reaches.refl _ _
  · have h2 := generate_coFactor_bad B s k { x with x1 := x.x - 1 } (tr ++ [.sub x.x 1]) d w hg
    refine ⟨{ x with raw := [], x := 0, x1 := 0 }, .step rfl h1 (.step rfl h2 ?_)⟩
    cases w <;> simpa [checkTrace, avoided, hg] using Reaches.refl _ _

/-- FindPrime, when it returns (41_key_fsm.md R203). -/
theorem generate_findsPrime {y : Nat} {d' : DrawPoint} {tr' : List Request}
    (h : FindsPrime B s.cfg s.e.toNat (avoided k w) d y d' tr') :
    ∃ x', x'.x = y ∧
      Reaches (generateStep B) (genAt s (.draw w) k x tr d) (afterPrime s w k x' (tr ++ tr') d') := by
  generalize hav : avoided k w = av at h
  induction h generalizing x tr with
  | @found d y d' trP hp ha =>
    obtain ⟨x1, e1, h1⟩ := generate_candidate B s k x tr _ w
    obtain ⟨x2, h2⟩ := generate_search B s k x1 _ _ w hp e1
    obtain ⟨x3, e3, h3⟩ := generate_accept B s k { x2 with x := y } (tr ++ candidateTrace B s.cfg d ++ trP) _ w
      (probes_hit B _ hp rfl (firstCandidate_mod B _ _)).1 (hav ▸ ha)
    exact ⟨x3, e3, by simpa [hav] using h1.trans (h2.trans h3)⟩
  | @tooWide d y d' d'' trP trN hp _ ih =>
    obtain ⟨x1, e1, h1⟩ := generate_candidate B s k x tr _ w
    obtain ⟨x2, h2⟩ := generate_search B s k x1 _ _ w hp e1
    obtain ⟨x3, e3, h3⟩ := ih x2 (tr ++ candidateTrace B s.cfg d ++ trP)
    exact ⟨x3, e3, by simpa using h1.trans (h2.trans h3)⟩
  | @rejected d z y d' d'' trP trN hp hr _ ih =>
    obtain ⟨x1, e1, h1⟩ := generate_candidate B s k x tr _ w
    obtain ⟨x2, h2⟩ := generate_search B s k x1 _ _ w hp e1
    obtain ⟨x3, h3⟩ := generate_reject B s k { x2 with x := y } (tr ++ candidateTrace B s.cfg d ++ trP) _ w
      (probes_hit B _ hp rfl (firstCandidate_mod B _ _)).1 (hav ▸ hr)
    obtain ⟨x4, e4, h4⟩ := ih x3 (tr ++ candidateTrace B s.cfg d ++ trP ++ checkTrace s.e.toNat av y)
    rw [hav] at h3
    exact ⟨x4, e4, by simpa using h1.trans (h2.trans (h3.trans h4))⟩

/-! ### The closing arithmetic -/

theorem generate_modulus :
    generateStep B (genAt s .modulus k x tr d)
      = genAt s (.halfSub .p) { k with nv := k.pv * k.qv } x (tr ++ [.mul k.pv k.qv]) d := by
  simp [generateStep, genAt, State.issue, State.answer, Request.hashAcc, Request.rngTaken, Request.draws]

theorem generate_halfSub (h : 1 ≤ k.prime w) :
    generateStep B (genAt s (.halfSub w) k x tr d)
      = genAt s (.halve w) k { x with x1 := k.prime w - 1 } (tr ++ [.sub (k.prime w) 1]) d := by
  simp [generateStep, genAt, State.issue, State.answer, Request.hashAcc, Request.rngTaken, Request.draws, h]

theorem generate_halve :
    generateStep B (genAt s (.halve w) k x tr d)
      = genAt s (.inverse w) k { x with t := x.x1 / 2 } (tr ++ [.shr1 x.x1]) d := by
  simp [generateStep, genAt, State.issue, State.answer, Request.hashAcc, Request.rngTaken, Request.draws]

theorem generate_inverse (h : 1 ≤ x.t) (hg : Nat.gcd s.e.toNat x.t = 1) :
    generateStep B (genAt s (.inverse w) k x tr d)
      = genAt s (.parity w) k { x with d := modInverse s.e.toNat x.t }
          (tr ++ [.modInv s.e.toNat x.t]) d := by
  simp [generateStep, genAt, State.issue, State.answer, Request.hashAcc, Request.rngTaken, Request.draws, h, hg]

/-- Where the exponent of a side leads (41_key_fsm.md R203). -/
def afterExponent (s : State) (w : Side) (k : KeyScratch) (y : Nat) (x : GenScratch) (tr : List Request)
    (d : DrawPoint) : State :=
  match w with
  | .p => genAt s (.halfSub .q) { k with dpv := y } { x with d := y } tr d
  | .q => genAt s .coefficient { k with dqv := y } { x with d := y } tr d

theorem generate_parity_odd (h : x.d % 2 ≠ 0) :
    generateStep B (genAt s (.parity w) k x tr d) = afterExponent s w k x.d x (tr ++ [.lowBits x.d 1]) d := by
  have h' : x.d % 2 = 1 := by omega
  cases w <;> simp [generateStep, genAt, exponentFound, afterExponent, State.issue, State.answer,
    Request.hashAcc, Request.rngTaken, Request.draws, h']

theorem generate_parity_even (h : x.d % 2 = 0) :
    generateStep B (genAt s (.parity w) k x tr d) = genAt s (.adjust w) k x (tr ++ [.lowBits x.d 1]) d := by
  simp [generateStep, genAt, State.issue, State.answer, Request.hashAcc, Request.rngTaken, Request.draws, h]

theorem generate_adjust :
    generateStep B (genAt s (.adjust w) k x tr d)
      = afterExponent s w k (x.d + x.t) x (tr ++ [.add x.d x.t]) d := by
  cases w <;> simp [generateStep, genAt, exponentFound, afterExponent, State.issue, State.answer,
    Request.hashAcc, Request.rngTaken, Request.draws]

/-- CrtExp on a side, up to where its value is used (41_key_fsm.md R211). -/
theorem generate_exponent (h3 : k.prime w % 4 = 3) (hg : Nat.gcd (k.prime w - 1) s.e.toNat = 1) :
    ∃ x', Reaches (generateStep B) (genAt s (.halfSub w) k x tr d)
      (afterExponent s w k (crtExponent (k.prime w) s.e.toNat) x'
        (tr ++ exponentTrace (k.prime w) s.e.toNat) d) := by
  have ht : 1 ≤ (k.prime w - 1) / 2 := by omega
  have hdvd : (k.prime w - 1) / 2 ∣ k.prime w - 1 := Nat.div_dvd_of_dvd (by omega)
  have hco : Nat.gcd s.e.toNat ((k.prime w - 1) / 2) = 1 :=
    Nat.Coprime.coprime_dvd_right hdvd (Nat.Coprime.symm hg)
  have h1 := generate_halfSub B s k x tr d w (by omega)
  have h2 := generate_halve B s k { x with x1 := k.prime w - 1 } (tr ++ [.sub (k.prime w) 1]) d w
  have h4 := generate_inverse B s k { x with x1 := k.prime w - 1, t := (k.prime w - 1) / 2 }
    (tr ++ [.sub (k.prime w) 1] ++ [.shr1 (k.prime w - 1)]) d w ht hco
  by_cases hpar : modInverse s.e.toNat ((k.prime w - 1) / 2) % 2 = 0
  · rw [show crtExponent (k.prime w) s.e.toNat
        = modInverse s.e.toNat ((k.prime w - 1) / 2) + (k.prime w - 1) / 2 by simp [crtExponent, hpar]]
    refine ⟨{ x with
        x1 := k.prime w - 1, t := (k.prime w - 1) / 2, d := modInverse s.e.toNat ((k.prime w - 1) / 2) },
      .step rfl h1 (.step rfl h2 (.step rfl h4 (.step rfl (generate_parity_even B s k _ _ d w hpar)
      (.step rfl (generate_adjust ..) ?_))))⟩
    simpa [exponentTrace, hpar] using Reaches.refl _ _
  · rw [show crtExponent (k.prime w) s.e.toNat = modInverse s.e.toNat ((k.prime w - 1) / 2) by
      simp [crtExponent, hpar]]
    refine ⟨{ x with
        x1 := k.prime w - 1, t := (k.prime w - 1) / 2, d := modInverse s.e.toNat ((k.prime w - 1) / 2) },
      .step rfl h1 (.step rfl h2 (.step rfl h4 (.step rfl (generate_parity_odd B s k _ _ d w hpar)
      ?_)))⟩
    simpa [exponentTrace, hpar] using Reaches.refl _ _

theorem generate_coefficient :
    generateStep B (genAt s .coefficient k x tr d)
      = genAt s (.serialize .n) { k with cv := inverseAt B d.draw k.pv k.qv } x
          (tr ++ [.modInv k.pv k.qv]) { d with draw := d.draw + inverseDraws k.pv k.qv } := by
  simp [generateStep, genAt, State.issue, State.answer, Request.hashAcc, Request.rngTaken, inverseAt,
    inverseDraws]
  rfl

theorem generate_serialize_n :
    generateStep B (genAt s (.serialize .n) k x tr d)
      = genAt s (.serialize .p) k { x with sN := toBytes k.nv s.cfg.rfs }
          (tr ++ [.toBytes k.nv s.cfg.rfs]) d := by
  simp [generateStep, genAt, serializeField, State.issue, State.answer, Request.hashAcc, Request.rngTaken,
    Request.draws, KeyScratch.get, KeyField.width]

theorem generate_serialize_p :
    generateStep B (genAt s (.serialize .p) k x tr d)
      = genAt s (.serialize .q) k { x with sP := toBytes k.pv (hrfs s.cfg) }
          (tr ++ [.toBytes k.pv (hrfs s.cfg)]) d := by
  simp [generateStep, genAt, serializeField, State.issue, State.answer, Request.hashAcc, Request.rngTaken,
    Request.draws, KeyScratch.get, KeyField.width]

theorem generate_serialize_q :
    generateStep B (genAt s (.serialize .q) k x tr d)
      = genAt s (.serialize .dp) k { x with sQ := toBytes k.qv (hrfs s.cfg) }
          (tr ++ [.toBytes k.qv (hrfs s.cfg)]) d := by
  simp [generateStep, genAt, serializeField, State.issue, State.answer, Request.hashAcc, Request.rngTaken,
    Request.draws, KeyScratch.get, KeyField.width]

theorem generate_serialize_dp :
    generateStep B (genAt s (.serialize .dp) k x tr d)
      = genAt s (.serialize .dq) k { x with sDP := toBytes k.dpv (hrfs s.cfg) }
          (tr ++ [.toBytes k.dpv (hrfs s.cfg)]) d := by
  simp [generateStep, genAt, serializeField, State.issue, State.answer, Request.hashAcc, Request.rngTaken,
    Request.draws, KeyScratch.get, KeyField.width]

theorem generate_serialize_dq :
    generateStep B (genAt s (.serialize .dq) k x tr d)
      = genAt s (.serialize .c) k { x with sDQ := toBytes k.dqv (hrfs s.cfg) }
          (tr ++ [.toBytes k.dqv (hrfs s.cfg)]) d := by
  simp [generateStep, genAt, serializeField, State.issue, State.answer, Request.hashAcc, Request.rngTaken,
    Request.draws, KeyScratch.get, KeyField.width]

/-- The completion writes the six regions together (41_key_fsm.md R213). -/
theorem generate_serialize_c :
    generateStep B (genAt s (.serialize .c) k x tr d)
      = { ((((((s.outWrite .n x.sN).outWrite .p x.sP).outWrite .q x.sQ).outWrite .dp x.sDP).outWrite
            .dq x.sDQ).outWrite .c (toBytes k.cv (hrfs s.cfg))).complete .none with
          rngPos := d.rng, drawPos := d.draw, trace := tr ++ [.toBytes k.cv (hrfs s.cfg)] } := by
  simp [generateStep, genAt, serializeField, generateFinish, State.issue, State.answer, Request.hashAcc,
    Request.rngTaken, Request.draws, KeyScratch.get, KeyField.width, State.outWrite, State.complete]

/-- The coefficient, the six conversions and the completion (41_key_fsm.md R203, R212, R213). -/
theorem generate_close :
    Reaches (generateStep B) (genAt s .coefficient k x tr d)
      { ((((((s.outWrite .n (toBytes k.nv s.cfg.rfs)).outWrite .p (toBytes k.pv (hrfs s.cfg))).outWrite
          .q (toBytes k.qv (hrfs s.cfg))).outWrite .dp (toBytes k.dpv (hrfs s.cfg))).outWrite
          .dq (toBytes k.dqv (hrfs s.cfg))).outWrite
          .c (toBytes (inverseAt B d.draw k.pv k.qv) (hrfs s.cfg))).complete .none with
        rngPos := d.rng, drawPos := d.draw + inverseDraws k.pv k.qv
        trace := tr ++ serializeTrace s.cfg k.nv k.pv k.qv k.dpv k.dqv (inverseAt B d.draw k.pv k.qv) } := by
  refine .step rfl (generate_coefficient ..) (.step rfl (generate_serialize_n ..)
    (.step rfl (generate_serialize_p ..) (.step rfl (generate_serialize_q ..)
      (.step rfl (generate_serialize_dp ..) (.step rfl (generate_serialize_dq ..)
        (.step rfl (generate_serialize_c ..) ?_))))))
  simpa [serializeTrace] using Reaches.refl _ _

end

end Sys2Proof.Machine
end

