-- ==== Sys2Proof/Laws/KeyValidate.lean ====
section
/-! SUPPORT. KEY_VALIDATE as a run: each check of 41_key_fsm.md R218 once, and how checks chain up to the first
that fails, for any backends. -/

namespace Sys2Proof.Machine

/-- A state inside KEY_VALIDATE, from the state the command started in. -/
def valAt (s : State) (pt : ValidatePoint) (k : KeyScratch) (v : ValScratch) (tr : List Request)
    (d : DrawPoint) : State :=
  { s with
    fsm := .keyValidate pt, scratch := { s.scratch with key := k, val := v }, trace := tr
    rngPos := d.rng, drawPos := d.draw }

/-- KEY_VALIDATE completed with a code. -/
def valEnd (s : State) (c : Code) (tr : List Request) (d : DrawPoint) : State :=
  { s.complete c with trace := tr, rngPos := d.rng, drawPos := d.draw }

/-- The draws after requests made in order. -/
abbrev drawsAfter (B : Backend) (d : DrawPoint) (r : List Request) : DrawPoint := r.foldl (DrawPoint.after B) d

/-- What one check does from a point, its local values meeting `P`: as many engine steps as it makes requests, then
the next point with the local values meeting `Q` if it passes, KEY_INVALID if not (41_key_fsm.md R218). -/
def ChecksAt (B : Backend) (s : State) (k : KeyScratch) (P Q : ValScratch → Prop) (pt next : ValidatePoint)
    (d : DrawPoint) (c : List Request × Bool) : Prop :=
  ∀ v tr, P v → ∃ v', Q v' ∧ engineLoop (validateStep B) c.1.length (valAt s pt k v tr d)
    = if c.2 then valAt s next k v' (tr ++ c.1) (drawsAfter B d c.1)
      else valEnd s .keyInvalid (tr ++ c.1) (drawsAfter B d c.1)

/-- What a list of checks does from a point: it ends at the first that fails, or with NONE
(41_key_fsm.md R218, R220). -/
def EndsBy (B : Backend) (s : State) (k : KeyScratch) (P : ValScratch → Prop) (pt : ValidatePoint)
    (d : DrawPoint) (l : List (List Request × Bool)) : Prop :=
  ∀ v tr, P v → engineLoop (validateStep B) (upToFailure l).length (valAt s pt k v tr d)
    = valEnd s (if l.all (·.2) then .none else .keyInvalid) (tr ++ upToFailure l)
        (drawsAfter B d (upToFailure l))

/-- Any local values. -/
abbrev anyLocals : ValScratch → Prop := fun _ => True

section
variable (B : Backend) (s : State) (k : KeyScratch) (d : DrawPoint) (w : Side)

theorem endsBy_cons {P Q : ValScratch → Prop} {pt next : ValidatePoint} {r : List Request} {ok : Bool}
    {l : List (List Request × Bool)} (h : ChecksAt B s k P Q pt next d (r, ok))
    (hl : ok = true → EndsBy B s k Q next (drawsAfter B d r) l) : EndsBy B s k P pt d ((r, ok) :: l) := by
  intro v tr hv
  obtain ⟨v', hv', h⟩ := h v tr hv
  cases ok with
  | false => simpa [upToFailure] using h
  | true =>
    rw [upToFailure, List.length_append, engineLoop_add, h, if_pos rfl, hl rfl _ _ hv']
    simp only [drawsAfter, List.foldl_append, List.append_assoc, List.all_cons, Bool.true_and]

/-- V1, V2. -/
theorem checks_residue :
    ChecksAt B s k anyLocals anyLocals (.residue w) (afterSide w (.residue .q) (.prime .p)) d
      ([.lowBits (k.prime w) 2], k.prime w % 4 == 3) := by
  intro v tr _
  refine ⟨v, trivial, ?_⟩
  rw [List.length_singleton, engineLoop_step _ 0 rfl rfl, engineLoop]
  by_cases h : k.prime w % 4 = 3 <;>
    simp [validateStep, require, valAt, valEnd, State.complete, State.issue, State.answer, Request.hashAcc,
      Request.rngTaken, Request.draws, DrawPoint.after, h]

/-- V3, V4. -/
theorem checks_prime :
    ChecksAt B s k anyLocals anyLocals (.prime w) (afterSide w (.prime .q) (.subOne .p)) d
      ([.isPrime (k.prime w)], B.primeAnswer d.draw (k.prime w)) := by
  intro v tr _
  refine ⟨v, trivial, ?_⟩
  rw [List.length_singleton, engineLoop_step _ 0 rfl rfl, engineLoop]
  cases h : B.primeAnswer d.draw (k.prime w) <;>
    simp [validateStep, require, valAt, valEnd, State.complete, State.issue, State.answer, Request.hashAcc,
      Request.rngTaken, Request.draws, DrawPoint.after, DrawPoint.probed, h]

/-- V5, V6. -/
theorem checks_coFactor (h1 : 1 ≤ k.prime w) :
    ChecksAt B s k anyLocals anyLocals (.subOne w) (afterSide w (.subOne .q) .product) d
      ([.sub (k.prime w) 1, .coFactor (k.prime w - 1) s.e.toNat], Nat.gcd (k.prime w - 1) s.e.toNat == 1) := by
  intro v tr _
  refine ⟨{ v with t := k.prime w - 1 }, trivial, ?_⟩
  rw [show [Request.sub (k.prime w) 1, .coFactor (k.prime w - 1) s.e.toNat].length = 2 from rfl,
    engineLoop_step _ 1 rfl rfl]
  by_cases h : Nat.gcd (k.prime w - 1) s.e.toNat = 1 <;>
    simp [engineLoop, Fsm.isIdle, validateStep, require, valAt, valEnd, State.complete, State.issue, State.answer,
      Request.hashAcc, Request.rngTaken, Request.draws, DrawPoint.after, h, h1]

/-- V7. -/
theorem checks_modulus :
    ChecksAt B s k anyLocals anyLocals .product .distinct d
      ([.mul k.pv k.qv, .cmp k.nv (k.pv * k.qv)], k.nv == k.pv * k.qv) := by
  intro v tr _
  refine ⟨{ v with t := k.pv * k.qv }, trivial, ?_⟩
  rw [show [Request.mul k.pv k.qv, .cmp k.nv (k.pv * k.qv)].length = 2 from rfl, engineLoop_step _ 1 rfl rfl]
  by_cases h : k.nv = k.pv * k.qv <;>
    simp [engineLoop, Fsm.isIdle, validateStep, require, valAt, valEnd, State.complete, State.issue, State.answer,
      Request.hashAcc, Request.rngTaken, Request.draws, DrawPoint.after, h]

/-- V8. -/
theorem checks_distinct : ChecksAt B s k anyLocals anyLocals .distinct .mulC d ([.cmp k.pv k.qv], k.pv != k.qv) := by
  intro v tr _
  refine ⟨v, trivial, ?_⟩
  rw [List.length_singleton, engineLoop_step _ 0 rfl rfl, engineLoop]
  by_cases h : k.pv = k.qv <;>
    simp [validateStep, require, valAt, valEnd, State.complete, State.issue, State.answer, Request.hashAcc,
      Request.rngTaken, Request.draws, DrawPoint.after, h]

/-- V9. -/
theorem checks_coefficient (h1 : 1 ≤ k.qv) :
    ChecksAt B s k anyLocals anyLocals .mulC (.halfSub .p) d ([.mul k.cv k.pv, .mod (k.cv * k.pv) k.qv], k.cv * k.pv % k.qv == 1) := by
  intro v tr _
  refine ⟨{ v with t := k.cv * k.pv }, trivial, ?_⟩
  rw [show [Request.mul k.cv k.pv, .mod (k.cv * k.pv) k.qv].length = 2 from rfl, engineLoop_step _ 1 rfl rfl]
  by_cases h : k.cv * k.pv % k.qv = 1 <;>
    simp [engineLoop, Fsm.isIdle, validateStep, require, valAt, valEnd, State.complete, State.issue, State.answer,
      Request.hashAcc, Request.rngTaken, Request.draws, DrawPoint.after, h, h1]

/-- V10, V11, the parity; it leaves `tp` for the congruence. -/
theorem checks_parity (h1 : 1 ≤ k.prime w) :
    ChecksAt B s k anyLocals (fun v => v.tp = (k.prime w - 1) / 2) (.halfSub w) (.mulE w) d
      ([.sub (k.prime w) 1, .shr1 (k.prime w - 1), .lowBits (k.exponent w) 1], k.exponent w % 2 == 1) := by
  intro v tr _
  refine ⟨{ v with t := k.prime w - 1, tp := (k.prime w - 1) / 2 }, rfl, ?_⟩
  rw [show ([.sub (k.prime w) 1, .shr1 (k.prime w - 1), .lowBits (k.exponent w) 1] : List Request).length = 3
    from rfl, engineLoop_step _ 2 rfl rfl]
  rcases Nat.mod_two_eq_zero_or_one (k.exponent w) with h | h <;>
    simp [engineLoop, Fsm.isIdle, validateStep, require, valAt, valEnd, State.complete, State.issue, State.answer,
      Request.hashAcc, Request.rngTaken, Request.draws, DrawPoint.after, h, h1]

/-- V10, V11, the congruence modulo `tp`. -/
theorem checks_congruence {t : Nat} (ht : 1 ≤ t) :
    ChecksAt B s k (fun v => v.tp = t) anyLocals (.mulE w) (afterSide w (.halfSub .q) .width) d
      ([.mul s.e.toNat (k.exponent w), .mod (s.e.toNat * k.exponent w) t, .mod 1 t,
        .cmp (s.e.toNat * k.exponent w % t) (1 % t)], s.e.toNat * k.exponent w % t == 1 % t) := by
  intro v tr hv
  subst hv
  refine ⟨{ v with
    t := s.e.toNat * k.exponent w, u := s.e.toNat * k.exponent w % v.tp, v := 1 % v.tp }, trivial, ?_⟩
  rw [show ([.mul s.e.toNat (k.exponent w), .mod (s.e.toNat * k.exponent w) v.tp, .mod 1 v.tp,
    .cmp (s.e.toNat * k.exponent w % v.tp) (1 % v.tp)] : List Request).length = 4 from rfl,
    engineLoop_step _ 3 rfl rfl]
  by_cases h : s.e.toNat * k.exponent w % v.tp = 1 % v.tp <;>
    simp [engineLoop, Fsm.isIdle, validateStep, require, valAt, valEnd, State.complete, State.issue, State.answer,
      Request.hashAcc, Request.rngTaken, Request.draws, DrawPoint.after, h, ht]

/-- V10, V11: both `require`s of an exponent. -/
theorem endsBy_exponent (h3 : 3 ≤ k.prime w) {l : List (List Request × Bool)}
    (hl : EndsBy B s k anyLocals (afterSide w (.halfSub .q) .width) d l) :
    EndsBy B s k anyLocals (.halfSub w) d (exponentChecks s.e.toNat (k.prime w) (k.exponent w) ++ l) :=
  endsBy_cons B s k d (checks_parity B s k d w (by omega)) fun _ =>
    endsBy_cons B s k d (checks_congruence B s k d w (by omega)) fun _ => hl

/-- V12, and the completion. -/
theorem endsBy_width :
    EndsBy B s k anyLocals .width d
      [([.cmp k.nv (256 ^ (s.cfg.rfs - 1))], decide (256 ^ (s.cfg.rfs - 1) ≤ k.nv))] := by
  intro v tr _
  by_cases h : 256 ^ (s.cfg.rfs - 1) ≤ k.nv <;>
    simp [upToFailure, engineLoop, Fsm.isIdle, validateStep, valAt, valEnd, State.complete, State.issue,
      State.answer, Request.hashAcc, Request.rngTaken, Request.draws, DrawPoint.after, compare_lt_iff_lt, h,
      Nat.not_lt.2, Nat.lt_of_not_le]

/-- The checks V1 to V12 from the first one on (41_key_fsm.md R218). -/
theorem validate_checks (hp : k.pv ≠ 0) (hq : k.qv ≠ 0) :
    EndsBy B s k anyLocals (.residue .p) d
      (validateChecks B s.cfg d.draw s.e.toNat k.nv k.pv k.qv k.dpv k.dqv k.cv) := by
  have hp1 : 1 ≤ k.pv := Nat.pos_of_ne_zero hp
  have hq1 : 1 ≤ k.qv := Nat.pos_of_ne_zero hq
  refine endsBy_cons B s k d (checks_residue B s k d .p) fun h1 => ?_
  refine endsBy_cons B s k d (checks_residue B s k d .q) fun h2 => ?_
  have h1 : k.pv % 4 = 3 := beq_iff_eq.1 h1
  have h2 : k.qv % 4 = 3 := beq_iff_eq.1 h2
  refine endsBy_cons B s k d (checks_prime B s k d .p) fun _ => ?_
  refine endsBy_cons B s k _ (checks_prime B s k (d.probed B k.pv) .q) fun _ => ?_
  refine endsBy_cons B s k _ (checks_coFactor B s k _ .p hp1) fun _ => ?_
  refine endsBy_cons B s k _ (checks_coFactor B s k _ .q hq1) fun _ => ?_
  refine endsBy_cons B s k _ (checks_modulus B s k _) fun _ => ?_
  refine endsBy_cons B s k _ (checks_distinct B s k _) fun _ => ?_
  refine endsBy_cons B s k _ (checks_coefficient B s k _ hq1) fun _ => ?_
  exact endsBy_exponent B s k _ .p (by show 3 ≤ k.pv; omega)
    (endsBy_exponent B s k _ .q (by show 3 ≤ k.qv; omega) (endsBy_width B s k _))

/-- KEY_VALIDATE's first six engine steps: the conversions of the key (41_key_fsm.md R218). -/
theorem validate_reads (hs : s.fsm = .keyValidate .start) (hp : allZero (s.keyBytes .p) = false)
    (hq : allZero (s.keyBytes .q) = false) :
    engineLoop (validateStep B) 6 s
      = valAt s (.residue .p)
          { s.scratch.key with
            nv := fromBytes (s.keyBytes .n), pv := fromBytes (s.keyBytes .p), qv := fromBytes (s.keyBytes .q)
            dpv := fromBytes (s.keyBytes .dp), dqv := fromBytes (s.keyBytes .dq)
            cv := fromBytes (s.keyBytes .c) } s.scratch.val
          (s.trace ++ [.fromBytes (s.keyBytes .n), .fromBytes (s.keyBytes .p), .fromBytes (s.keyBytes .q),
            .fromBytes (s.keyBytes .dp), .fromBytes (s.keyBytes .dq), .fromBytes (s.keyBytes .c)])
          { rng := s.rngPos, draw := s.drawPos } := by
  have h1 : validateStep B s
      = valAt s (.read .p) { s.scratch.key with nv := fromBytes (s.keyBytes .n) } s.scratch.val
          (s.trace ++ [.fromBytes (s.keyBytes .n)]) { rng := s.rngPos, draw := s.drawPos } := by
    simp [validateStep, hs, hp, hq, valAt, State.issue, State.answer, Request.hashAcc, Request.rngTaken,
      Request.draws]
  rw [engineLoop_step _ _ (by rw [hs]; rfl) h1]
  simp [engineLoop, validateStep, valAt, State.issue, State.answer, Request.hashAcc, Request.rngTaken,
    Request.draws, Fsm.isIdle, State.keyBytes, State.bufBytes, KeyScratch.set, afterRead]

end

end Sys2Proof.Machine
end

