-- ==== Sys2Proof/Laws/Mgf.lean ====
section
/-! SUPPORT. The mask generator: its length, and that the engine steps of `MGF(z, L)` (`mgfStep`) compute
the closed form `mgf` with the trace of spec/42_mgf_oaep.md R251. -/

namespace Sys2Proof.Machine

/-- The first `n` hash blocks of `MGF(z, ·)`. -/
def mgfBlocks (B : Backend) (hlen : Nat) (z : Bytes) (n : Nat) : Bytes :=
  (List.range n).flatMap fun i => digest B hlen (z ++ be32 i)

theorem mgfBlocks_succ (B : Backend) (hlen : Nat) (z : Bytes) (n : Nat) :
    mgfBlocks B hlen z (n + 1) = mgfBlocks B hlen z n ++ digest B hlen (z ++ be32 n) := by
  simp [mgfBlocks, List.range_succ, List.flatMap_append]

@[simp] theorem mgfBlocks_length (B : Backend) (hlen : Nat) (z : Bytes) (n : Nat) :
    (mgfBlocks B hlen z n).length = n * hlen := by
  induction n with
  | zero => simp [mgfBlocks]
  | succ n ih => rw [mgfBlocks_succ, List.length_append, ih, digest_length, Nat.succ_mul]

theorem mgf_eq (B : Backend) (hlen : Nat) (z : Bytes) (len : Nat) :
    mgf B hlen z len = (mgfBlocks B hlen z (ceilDiv len hlen)).take len := rfl

/-- `MGF(z, L)` has length `L` (42_mgf_oaep.md R250). -/
theorem mgf_length (B : Backend) (hlen : Nat) (z : Bytes) (len : Nat) (h : 1 ≤ hlen) :
    (mgf B hlen z len).length = len := by
  rw [mgf_eq, List.length_take, mgfBlocks_length]
  exact Nat.min_eq_left (ceilDiv_le len hlen h)

/-- The trace of the first `n` blocks. -/
def mgfTraceBlocks (z : Bytes) (n : Nat) : List Request :=
  (List.range n).flatMap fun i => [.hashInit, .hashAbsorb z, .hashAbsorbInt i, .hashFinal]

theorem mgfTraceBlocks_succ (z : Bytes) (n : Nat) :
    mgfTraceBlocks z (n + 1)
      = mgfTraceBlocks z n ++ [.hashInit, .hashAbsorb z, .hashAbsorbInt n, .hashFinal] := by
  simp [mgfTraceBlocks, List.range_succ, List.flatMap_append]

theorem mgfTrace_eq (hlen : Nat) (z : Bytes) (len : Nat) :
    mgfTrace hlen z len = mgfTraceBlocks z (ceilDiv len hlen) := rfl

theorem mgfTraceBlocks_length (z : Bytes) (n : Nat) : (mgfTraceBlocks z n).length = 4 * n := by
  induction n with
  | zero => rfl
  | succ n ih => rw [mgfTraceBlocks_succ, List.length_append, ih]; rfl

/-- The state in which block `n` of `MGF(z, L)` starts, from the state `s` in which block 0 starts. -/
def mgfAt (B : Backend) (z : Bytes) (len : Nat) (fsm : Fsm) (s : State) (n : Nat) : State :=
  { s with
    scratch.mgf := { z := z, len := len, i := n, t := mgfBlocks B s.cfg.hlen z n }
    trace := s.trace ++ mgfTraceBlocks z n
    hashAcc := if n = 0 then s.hashAcc else []
    fsm := fsm }

/-- The state in which the command's local computation follows the last block of `MGF(z, L)`. -/
def mgfDone (B : Backend) (z : Bytes) (len : Nat) (fsm : Fsm) (s : State) : State :=
  let n := ceilDiv len s.cfg.hlen - 1
  { s with
    scratch.mgf := { z := z, len := len, i := n, t := mgfBlocks B s.cfg.hlen z n }
    trace := s.trace ++ mgfTrace s.cfg.hlen z len
    hashAcc := []
    fsm := fsm }

section
variable (B : Backend) (at_ : MgfPoint → Fsm) (finish : Bytes → State → State) (f : State → State)
  (hf : ∀ p s, s.fsm = at_ p → f s = mgfStep B at_ finish p s) (hi : ∀ p, (at_ p).isIdle = false)
include hf hi

/-- One block that is not the last: four engine steps. -/
theorem mgf_block_go (z : Bytes) (len n : Nat) (s : State) (h : n + 1 < ceilDiv len s.cfg.hlen) :
    engineLoop f 4 (mgfAt B z len (at_ .init) s n) = mgfAt B z len (at_ .init) s (n + 1) := by
  rw [engineLoop_succ _ _ _ (hi .init), hf .init _ rfl, engineLoop_succ _ _ _ (hi .absorb),
    hf .absorb _ rfl, engineLoop_succ _ _ _ (hi .absorbInt), hf .absorbInt _ rfl,
    engineLoop_succ _ _ _ (hi .final), hf .final _ rfl]
  have h' : (mgfAt B z len (at_ .init) s n).scratch.mgf.i + 1 < ceilDiv len s.cfg.hlen := h
  simp only [mgfStep, mgfAt, State.issue, State.answer, Request.hashAcc, Request.rngTaken, Request.draws,
    engineLoop, h, if_true, mgfBlocks_succ, mgfTraceBlocks_succ, List.append_assoc, List.nil_append,
    List.cons_append, Nat.add_zero, Nat.succ_ne_zero, if_false]

/-- The last block: four engine steps, and the command's local computation. -/
theorem mgf_block_last (z : Bytes) (len n : Nat) (s : State) (h : n + 1 = ceilDiv len s.cfg.hlen) :
    engineLoop f 4 (mgfAt B z len (at_ .init) s n)
      = finish (mgf B s.cfg.hlen z len) (mgfDone B z len (at_ .final) s) := by
  rw [engineLoop_succ _ _ _ (hi .init), hf .init _ rfl, engineLoop_succ _ _ _ (hi .absorb),
    hf .absorb _ rfl, engineLoop_succ _ _ _ (hi .absorbInt), hf .absorbInt _ rfl,
    engineLoop_succ _ _ _ (hi .final), hf .final _ rfl]
  simp only [mgfStep, mgfAt, mgfDone, mgf_eq, mgfTrace_eq, State.issue, State.answer, Request.hashAcc,
    Request.rngTaken, Request.draws, engineLoop, ← h, Nat.lt_irrefl, if_false, Nat.add_sub_cancel,
    mgfBlocks_succ, mgfTraceBlocks_succ, List.append_assoc, List.nil_append, List.cons_append, Nat.add_zero]

/-- All blocks from block `n` on. -/
theorem mgf_blocks (z : Bytes) (len k n : Nat) (s : State) (h : n + (k + 1) = ceilDiv len s.cfg.hlen) :
    engineLoop f (4 * (k + 1)) (mgfAt B z len (at_ .init) s n)
      = finish (mgf B s.cfg.hlen z len) (mgfDone B z len (at_ .final) s) := by
  induction k generalizing n with
  | zero => exact mgf_block_last B at_ finish f hf hi z len n s (by omega)
  | succ k ih =>
    rw [show 4 * (k + 1 + 1) = 4 + 4 * (k + 1) by ring, engineLoop_add,
      mgf_block_go B at_ finish f hf hi z len n s (by omega)]
    exact ih (n + 1) (by omega)

/-- `MGF(z, L)` for `L ≥ 1`: after `4·⌈L/HLEN⌉` engine steps the command's local computation has the mask
(42_mgf_oaep.md R250, R251). -/
theorem mgf_run (z : Bytes) (len : Nat) (s : State) (hs : s.fsm = at_ .init)
    (hm : s.scratch.mgf = mgfInit z len) (hl : 1 ≤ len) :
    engineLoop f (mgfRequests s.cfg.hlen len) s
      = finish (mgf B s.cfg.hlen z len) (mgfDone B z len (at_ .final) s) := by
  have hc := ceilDiv_pos len s.cfg.hlen hl (params_bounds s.cfg).2.2.2.1
  have h0 : mgfAt B z len (at_ .init) s 0 = s := by
    have e1 : ({ z := z, len := len, i := 0, t := mgfBlocks B s.cfg.hlen z 0 } : MgfScratch)
        = s.scratch.mgf := by rw [hm]; rfl
    simp only [mgfAt, e1, if_true, ← hs]
    simp [mgfTraceBlocks]
  obtain ⟨k, hk⟩ := Nat.exists_eq_add_of_le hc
  have := mgf_blocks B at_ finish f hf hi z len k 0 s (by omega)
  rw [h0] at this
  rw [mgfRequests, hk, show 4 * (1 + k) = 4 * (k + 1) by ring]
  exact this

end

end Sys2Proof.Machine
end

