-- ==== Sys2Proof/Laws/Oaep.lean ====
section
/-! SUPPORT. The OAEP block in closed form: its length, its first byte, and that unmasking undoes masking. -/

namespace Sys2Proof.Machine

/-- A message that fits: `MAXMSG ≥ len` in natural numbers (00_scope.md R10). -/
abbrev fits (c : Params) (message : Bytes) : Prop := message.length + 2 * c.hlen + 2 ≤ c.rfs

/-- `fits` is R255's check passed. -/
theorem fits_iff (c : Params) (message : Bytes) : fits c message ↔ 0 ≤ psLen c message.length := by
  simp only [fits, psLen, maxMsg, oLen]; omega

/-- DBLEN as a natural number: exact where it is not negative (00_scope.md R10). -/
@[simp] theorem dbLen_toNat (c : Params) : (dbLen c).toNat = c.rfs - 1 - c.hlen := by
  simp only [dbLen, oLen]; omega

/-- Where decode's check passes, the region it scans has SCANLEN bytes, at least one (42_mgf_oaep.md R260, R267). -/
theorem scanLen_eq (c : Params) (db : Bytes) (h : 2 * c.hlen + 2 ≤ c.rfs) (hd : (db.length : Int) = dbLen c) :
    ((db.drop c.hlen).length : Int) = scanLen c ∧ 1 ≤ scanLen c := by
  simp only [scanLen, dbLen, oLen, List.length_drop] at *; omega

theorem dataBlock_eq (c : Params) (lhash message : Bytes) (h : fits c message) :
    dataBlock c lhash message
      = lhash ++ (zeros (c.rfs - 2 * c.hlen - 2 - message.length) ++ [0x01#8] ++ message) := by
  unfold fits at h
  rw [dataBlock, show (psLen c message.length).toNat = c.rfs - 2 * c.hlen - 2 - message.length by
    simp only [psLen, maxMsg, oLen]; omega]
  simp only [List.append_assoc]

theorem dataBlock_length (c : Params) (lhash message : Bytes) (hl : lhash.length = c.hlen) (h : fits c message) :
    ((dataBlock c lhash message).length : Int) = dbLen c := by
  rw [dataBlock_eq c lhash message h]
  unfold fits at h
  simp only [List.length_append, zeros_length, List.length_singleton, hl, dbLen, oLen]
  omega

/-- Unmasking a block of OAEP_ENCODE gives back the seed and the data block (42_mgf_oaep.md R273). -/
theorem encodedBlock_unmasks (B : Backend) (c : Params) (label message seed : Bytes)
    (hs : seed.length = c.hlen) (h : fits c message) :
    let f := encodedBlock B c label message seed
    f.length = c.rfs ∧ f.head? = some 0#8 ∧
    xorBytes (mgf B c.hlen (f.drop (1 + c.hlen)) c.hlen) ((f.drop 1).take c.hlen) = seed ∧
    xorBytes (mgf B c.hlen seed (dbLen c).toNat) (f.drop (1 + c.hlen))
      = dataBlock c (digest B c.hlen label) message := by
  intro f
  have hh : 1 ≤ c.hlen := (params_bounds c).2.2.2.1
  have hdb : (dataBlock c (digest B c.hlen label) message).length = (dbLen c).toNat := by
    rw [← dataBlock_length c (digest B c.hlen label) message (by simp) h]; rfl
  set db := dataBlock c (digest B c.hlen label) message with hdbdef
  set mDB := xorBytes db (mgf B c.hlen seed (dbLen c).toNat) with hm
  set mSeed := xorBytes seed (mgf B c.hlen mDB c.hlen) with hms
  have hf : f = [0x00#8] ++ mSeed ++ mDB := rfl
  have lm : mDB.length = (dbLen c).toNat := by rw [hm, xorBytes_length, hdb, mgf_length _ _ _ _ hh, Nat.min_self]
  have ls : mSeed.length = c.hlen := by rw [hms, xorBytes_length, hs, mgf_length _ _ _ _ hh, Nat.min_self]
  have hdrop : f.drop (1 + c.hlen) = mDB := by
    rw [hf]; exact List.drop_left' (by simp only [List.length_append, List.length_singleton, ls])
  have htake : (f.drop 1).take c.hlen = mSeed := by
    rw [hf]; exact List.take_left' ls
  refine ⟨?_, rfl, ?_, ?_⟩
  · rw [hf]
    simp only [List.length_append, List.length_singleton, ls, lm, dbLen_toNat]
    unfold fits at h
    omega
  · rw [hdrop, htake, hms]
    exact xorBytes_cancel _ _ (by rw [hs, mgf_length _ _ _ _ hh])
  · rw [hdrop, hm]
    exact xorBytes_cancel _ _ (by rw [hdb, mgf_length _ _ _ _ hh])

/-- The label hash and the rest of a data block (42_mgf_oaep.md R266, R267). -/
theorem dataBlock_parts (c : Params) (lhash message : Bytes) (hl : lhash.length = c.hlen) (h : fits c message) :
    (dataBlock c lhash message).take c.hlen = lhash ∧
    (dataBlock c lhash message).drop c.hlen
      = zeros (c.rfs - 2 * c.hlen - 2 - message.length) ++ [0x01#8] ++ message := by
  rw [dataBlock_eq c lhash message h]
  exact ⟨List.take_left' hl, List.drop_left' hl⟩

/-! ## The separator scan -/

theorem scanFrom_found (acc : Scan) (h : acc.found = true) : ∀ j r, scanFrom acc j r = acc
  | _, [] => rfl
  | j, b :: r => by
    have : scanByte acc j b = acc := by
      cases acc; simp_all [scanByte]
    rw [scanFrom, this]; exact scanFrom_found acc h (j + 1) r

theorem scanFrom_zeros (acc : Scan) (h : acc.found = false) (n j : Nat) (r : Bytes) :
    scanFrom acc j (zeros n ++ r) = scanFrom acc (j + n) r := by
  induction n generalizing j with
  | zero => rfl
  | succ n ih =>
    have e : zeros (n + 1) ++ r = 0#8 :: (zeros n ++ r) := rfl
    have hb : scanByte acc j 0#8 = acc := by cases acc; simp_all [scanByte]
    rw [e, scanFrom, hb, ih]
    congr 1; omega

/-- The scan finds the first non-zero byte (42_mgf_oaep.md R267). -/
theorem scan_first (n : Nat) (b : Byte) (r : Bytes) (hb : b ≠ 0#8) :
    scan (zeros n ++ b :: r) = { found := true, k := n, t := b } := by
  rw [scan, scanFrom_zeros _ rfl, scanFrom, scanFrom_found]
  · simp [scanByte, hb]
  · simp [scanByte, hb]

theorem scan_none (n : Nat) : (scan (zeros n)).found = false := by
  have := scanFrom_zeros { found := false, k := 0, t := 0#8 } rfl n 0 []
  rw [List.append_nil] at this
  rw [scan, this]; rfl

/-- Every byte string is all zero, or zeros, a non-zero byte, and a rest. -/
theorem zeros_or_first (r : Bytes) : (∃ n, r = zeros n) ∨ ∃ n b t, b ≠ 0#8 ∧ r = zeros n ++ b :: t := by
  induction r with
  | nil => exact .inl ⟨0, rfl⟩
  | cons b r ih =>
    by_cases hb : b = 0#8
    · subst hb
      rcases ih with ⟨n, rfl⟩ | ⟨n, c, t, hc, rfl⟩
      · exact .inl ⟨n + 1, rfl⟩
      · exact .inr ⟨n + 1, c, t, hc, rfl⟩
    · exact .inr ⟨0, b, r, hb, rfl⟩

end Sys2Proof.Machine
end

