-- ==== Sys2Proof/Laws/PerInstr.lean ====
section
/-! SUPPORT. One lemma per constructor of Instr: the encoding of each command is the word of the table of
spec/30_encoding.md R122, and it decodes back. -/

namespace Sys2Proof.Laws.Encoding

/-- Every command is well formed, its word has RSV zero and its OPC in bits 7:0, and decodes to it, as the
table's own numbering reads it too (30_encoding.md R121 to R124). -/
def Statement (i : Instr) : Prop :=
  i.wellFormed = true ∧ rsvOf (encode i) = 0#24 ∧ opcOf (encode i) = opcode i ∧ decodeWord (encode i) = .ok i ∧
  decodeTableWord 32 (encode i).toNat = some i

theorem mgfExpand : Statement .mgfExpand := by unfold Statement; decide
theorem oaepEncode : Statement .oaepEncode := by unfold Statement; decide
theorem oaepDecode : Statement .oaepDecode := by unfold Statement; decide
theorem rsaEncrypt : Statement .rsaEncrypt := by unfold Statement; decide
theorem rsaDecrypt : Statement .rsaDecrypt := by unfold Statement; decide
theorem keyGenerate : Statement .keyGenerate := by unfold Statement; decide
theorem keyValidate : Statement .keyValidate := by unfold Statement; decide
theorem keyKill : Statement .keyKill := by unfold Statement; decide

end Sys2Proof.Laws.Encoding
end

