-- ==== Sys2Proof/Laws/Window.lean ====
section
/-! SUPPORT. The address map as arithmetic, and everything a host access can do. -/

namespace Sys2Proof.Machine

/-- The addresses of the control registers (10_state.md R31, 20_memory.md R81). -/
theorem regAt_isSome (a : Addr) : (regAt a).isSome = true ↔ a.toNat % 4 = 0 ∧ a.toNat < 0x2C := by
  constructor
  · unfold regAt; split <;> simp
  · rintro ⟨h1, h2⟩
    have h : a.toNat = 0 ∨ a.toNat = 4 ∨ a.toNat = 8 ∨ a.toNat = 12 ∨ a.toNat = 16 ∨ a.toNat = 20 ∨
        a.toNat = 24 ∨ a.toNat = 28 ∨ a.toNat = 32 ∨ a.toNat = 36 ∨ a.toNat = 40 := by omega
    have e : a = BitVec.ofNat 16 a.toNat := by simp
    rcases h with h | h | h | h | h | h | h | h | h | h | h <;> (rw [e, h]; decide)

/-- The addresses of the buffers and key regions (20_memory.md R81). -/
theorem bufAt_isSome (a : Addr) : (bufAt a).isSome = true ↔ 0x400 ≤ a.toNat ∧ a.toNat < 0x2800 := by
  unfold bufAt
  constructor
  · split <;> simp <;> omega
  · rintro ⟨h1, h2⟩
    have h : a.toNat / 0x400 = 1 ∨ a.toNat / 0x400 = 2 ∨ a.toNat / 0x400 = 3 ∨ a.toNat / 0x400 = 4 ∨
        a.toNat / 0x400 = 5 ∨ a.toNat / 0x400 = 6 ∨ a.toNat / 0x400 = 7 ∨ a.toNat / 0x400 = 8 ∨
        a.toNat / 0x400 = 9 := by omega
    rcases h with h | h | h | h | h | h | h | h | h <;> simp [h]

/-- No address is a register and a buffer byte. -/
theorem regAt_eq_none_of_buf (a : Addr) (h : 0x400 ≤ a.toNat) : regAt a = none := by
  rw [← Option.not_isSome_iff_eq_none, regAt_isSome]; omega

theorem bufAt_eq_none (a : Addr) (h : ¬ (0x400 ≤ a.toNat ∧ a.toNat < 0x2800)) : bufAt a = none := by
  rwa [← Option.not_isSome_iff_eq_none, bufAt_isSome]

theorem regAt_eq_none (a : Addr) (h : ¬ (a.toNat % 4 = 0 ∧ a.toNat < 0x2C)) : regAt a = none := by
  rwa [← Option.not_isSome_iff_eq_none, regAt_isSome]

/-- When an access is well formed, as arithmetic on its address. -/
theorem wellFormed_iff (x : Access) : x.wellFormed = true ↔
    if x.wide then x.addr.toNat % 4 = 0 ∧ (x.addr.toNat < 0x2C ∨ (0x400 ≤ x.addr.toNat ∧ x.addr.toNat < 0x2800))
    else 0x400 ≤ x.addr.toNat ∧ x.addr.toNat < 0x2800 := by
  cases x <;> simp [Access.wellFormed, Access.wide, isBufferAddr, isRegisterAddr]

/-- A host write of a register or of buffer bytes, as everything it can change: a dropped write sets OVR; CTRL
changes IE; STATUS clears DONE and OVR; CMD starts a command; a length register or E, or storage in the
buffers and key regions, takes the data (20_memory.md R89, R91). -/
inductive HostWrites (s : State) : State → Prop
  | ignored : HostWrites s s
  | dropped (h : s.status.busy = true) : HostWrites s { s with status := s.status.overrun }
  | ctrl (w : Word) : HostWrites s { s with ie := w.getLsbD 0 }
  | status (w : Word) : HostWrites s { s with status := s.status.w1c w }
  | command (w : Word) (h : s.status.busy = false) : HostWrites s (s.accept w)
  | operand (m l b o e : Word) (h : s.status.busy = false) :
      HostWrites s { s with msgLen := m, lblLen := l, blkLen := b, outLen := o, e := e }
  | buffer (a : Nat) (t : Bytes) (h : s.status.busy = false) (hlo : 0x400 ≤ a) (hhi : a + t.length ≤ 0x2800) :
      HostWrites s { s with mem := writeBytes s.mem a t }

theorem writeReg_writes (s : State) (r : Reg) (w : Word) : HostWrites s (s.writeReg r w) := by
  cases r <;> simp only [State.writeReg, State.writeCmd, State.writeStatus, State.ifIdle]
  case id => exact .ignored
  case cfgRfs => exact .ignored
  case cfgHlen => exact .ignored
  case ctrl => exact .ctrl w
  case status => exact .status w
  all_goals
    split
    · next h => exact .dropped h
    · next h => first
        | exact .command w (by simpa using h)
        | exact .operand _ _ _ _ _ (by simpa using h)

theorem writeBuf_writes (s : State) (a : Addr) (t : Bytes) (hlo : 0x400 ≤ a.toNat)
    (hhi : a.toNat + t.length ≤ 0x2800) : HostWrites s (s.writeBuf a t) := by
  simp only [State.writeBuf, State.ifIdle]
  split
  · next h => exact .dropped h
  · next h => exact .buffer _ _ (by simpa using h) hlo hhi

/-- Everything a host access that is answered can do: a read changes what the bus returned and, when busy, the
count of free values; a write does what `HostWrites` says, and the bus answers (20_memory.md R88 to R92). -/
theorem hostAccess_next (B : Backend) (x : Access) (s t : State) (h : hostAccess B x s = .next t) :
    (x.isWrite = false ∧ ∃ r d, t = { s with resp := r, drawPos := d }) ∨
    (x.isWrite = true ∧ ∃ u, HostWrites s u ∧ t = u.ack) := by
  cases x with
  | read8 a =>
    refine .inl ⟨rfl, ?_⟩
    simp only [hostAccess] at h
    split at h
    · cases h
      simp only [State.readBuf8]
      split
      · exact ⟨_, _, rfl⟩
      · exact ⟨_, s.drawPos, rfl⟩
    · cases h
  | read32 a =>
    refine .inl ⟨rfl, ?_⟩
    simp only [hostAccess] at h
    split at h
    · cases h
    · split at h
      · cases h; exact ⟨_, s.drawPos, rfl⟩
      · cases h
        simp only [State.readBuf32]
        split
        · exact ⟨_, _, rfl⟩
        · exact ⟨_, s.drawPos, rfl⟩
      · cases h
  | write8 a v =>
    refine .inr ⟨rfl, ?_⟩
    simp only [hostAccess] at h
    split at h
    · next b hb =>
      cases h
      have := (bufAt_isSome a).1 (by simp [hb])
      exact ⟨_, writeBuf_writes s a [v] this.1 (by simp; omega), rfl⟩
    · cases h
  | write32 a v =>
    refine .inr ⟨rfl, ?_⟩
    simp only [hostAccess] at h
    split at h
    · cases h
    · next h4 =>
      split at h
      · cases h; exact ⟨_, writeReg_writes s _ v, rfl⟩
      · next b hr hb =>
        cases h
        have := (bufAt_isSome a).1 (by simp [hb])
        exact ⟨_, writeBuf_writes s a (bytesOfWord v) this.1 (by simp [bytesOfWord]; omega), rfl⟩
      · cases h

end Sys2Proof.Machine
end

