-- ==== Sys2Proof/Tests/Slice0.lean ====
section
/-! SUPPORT. Tests: the WellFormed smoke, the decoder on words written out from spec/30_encoding.md, the
vectors of spec/95_test_vectors.md on the engine's steps (at most two a command), and for every statement with
hypotheses a named witness that meets them. -/

namespace Sys2Proof.Tests

open Sys2Proof Sys2Proof.Machine

/-! ## WellFormed: each check refuses an ill-formed term -/

-- 00_scope.md R7, R9: RFS even and in 2 to 1024, HLEN in 1 to 64
theorem test_params_odd : legalParams 65 32 = false := by decide
theorem test_params_zero : legalParams 0 32 = false := by decide
theorem test_params_wide : legalParams 1026 32 = false := by decide
theorem test_params_no_hash : legalParams 128 0 = false := by decide
theorem test_params_long_hash : legalParams 128 65 = false := by decide
theorem test_params_edges : legalParams 2 1 = true ∧ legalParams 1024 64 = true := by decide

-- 00_scope.md R10, on the legal build RFS = 2, HLEN = 32: 2 − 1, 1 − 32, 1 − 32 − 32 − 1, −64 − 5, −31 − 32
theorem test_derived_lengths :
    let c : Params := { rfs := 2, hlen := 32 }
    oLen c = 1 ∧ dbLen c = -31 ∧ maxMsg c = -64 ∧ psLen c 5 = -69 ∧ scanLen c = -63 := by decide

-- 20_memory.md R82, R83, R87
theorem test_access_misaligned : (Access.read32 0x0402#16).wellFormed = false := by decide
theorem test_access_register_byte : (Access.write8 0x0010#16 1#8).wellFormed = false := by decide
theorem test_access_reserved_low :
    (Access.read32 0x002C#16).wellFormed = false ∧ (Access.read8 0x03FF#16).wellFormed = false := by decide
theorem test_access_reserved_high :
    (Access.write32 0x2800#16 0#32).wellFormed = false ∧ (Access.read8 0xFFFF#16).wellFormed = false := by
  decide
theorem test_access_edges :
    (Access.read32 0x0028#16).wellFormed = true ∧ (Access.read8 0x0400#16).wellFormed = true ∧
    (Access.write8 0x27FF#16 0#8).wellFormed = true ∧ (Access.write32 0x27FC#16 0#32).wellFormed = true := by
  decide
theorem test_event_ill_formed : (Event.host (.read32 0x0001#16)).wellFormed = false := by decide

/-! ## Decoding: words written out bit by bit (30_encoding.md R121, R122, R126) -/

theorem test_decode_mgfExpand : decodeWord 0b00000000000000000000000000000001#32 = .ok .mgfExpand := by decide
theorem test_decode_oaepEncode : decodeWord 0b00000000000000000000000000000010#32 = .ok .oaepEncode := by decide
theorem test_decode_oaepDecode : decodeWord 0b00000000000000000000000000000011#32 = .ok .oaepDecode := by decide
theorem test_decode_rsaEncrypt : decodeWord 0b00000000000000000000000000010000#32 = .ok .rsaEncrypt := by decide
theorem test_decode_rsaDecrypt : decodeWord 0b00000000000000000000000000010001#32 = .ok .rsaDecrypt := by decide
theorem test_decode_keyGenerate : decodeWord 0b00000000000000000000000000100000#32 = .ok .keyGenerate := by
  decide
theorem test_decode_keyValidate : decodeWord 0b00000000000000000000000000100001#32 = .ok .keyValidate := by
  decide
theorem test_decode_keyKill : decodeWord 0b00000000000000000000000000100010#32 = .ok .keyKill := by decide
theorem test_encode_words :
    encode .mgfExpand = 0x00000001#32 ∧ encode .oaepEncode = 0x00000002#32 ∧
    encode .oaepDecode = 0x00000003#32 ∧ encode .rsaEncrypt = 0x00000010#32 ∧
    encode .rsaDecrypt = 0x00000011#32 ∧ encode .keyGenerate = 0x00000020#32 ∧
    encode .keyValidate = 0x00000021#32 ∧ encode .keyKill = 0x00000022#32 := by decide
theorem test_decode_illegal_opc :
    decodeWord 0x00#32 = .error .unassignedOpcode ∧ decodeWord 0x04#32 = .error .unassignedOpcode ∧
    decodeWord 0x0F#32 = .error .unassignedOpcode ∧ decodeWord 0x12#32 = .error .unassignedOpcode ∧
    decodeWord 0x1F#32 = .error .unassignedOpcode ∧ decodeWord 0x23#32 = .error .unassignedOpcode ∧
    decodeWord 0xFF#32 = .error .unassignedOpcode := by decide
theorem test_decode_illegal_rsv :
    decodeWord 0x00000101#32 = .error .reservedNotZero ∧
    decodeWord 0x80000022#32 = .error .reservedNotZero := by decide

/-! ## Backends and states of the vectors -/

/-- A finite table of digests, as the vectors list them. -/
def tableHash : List (Bytes × Bytes) → Bytes → Bytes
  | [], _ => []
  | (k, v) :: t, s => if k = s then v else tableHash t s

/-- Trial division, enough for the primes of the vectors. -/
def trialPrime (n : Nat) : Bool :=
  decide (2 ≤ n) && (List.range 256).all (fun d => decide (d < 2) || decide (n < d * d) || n % d != 0)

/-- The vectors' backends: the digests and the random bytes listed, PRIME_EXACT on their range, PRIME_RNG0. -/
def vectorBackend (digests : List (Bytes × Bytes)) (random : Bytes) : Backend :=
  { hashByte := fun _ s i => (tableHash digests s).getD i 0#8
    randomByte := fun i => random.getD i 0#8
    primeAnswer := fun _ a => trialPrime a
    primeReads := fun _ _ => 0
    bigAny := fun _ => 0
    busyByte := fun _ => 0#8 }

/-- The seed `00 01 .. 1f`. -/
def seed32 : Bytes := toBytes 0x000102030405060708090a0b0c0d0e0f101112131415161718191a1b1c1d1e1f 32

/-- §2.2's `mDB`. -/
def mDB95 : Bytes :=
  toBytes 0x9344c47fca4af717407eda5bbc04e0a2927ac9d4fc20ea3f18c681d71e31c2d1 32
  ++ toBytes 0x04a6950a06d3e3308ad7d3606ef810eb124e3943404ca746a12c51c7bf776839 32
  ++ toBytes 0x0f8d842ac9cb62349779a7537a78327d545aaeb33b2d42c7d1dc37f4c1c142 31

/-- The digests of §2.1 and §2.2. The last byte of the third MGF block is cut off and not listed there. -/
def digests : List (Bytes × Bytes) :=
  [(seed32 ++ toBytes 0 4, toBytes 0x70f4003d52b6eb03da852e93256b5986b5d4883098bb7973bc5318cc66637a84 32),
   (seed32 ++ toBytes 1 4, toBytes 0x04a6950a06d3e3308ad7d3606ef810eb124e3943404ca746a12c51c7bf776839 32),
   (seed32 ++ toBytes 2 4, toBytes 0x0f8d842ac9cb62349779a7537a78327d545aaeb33b2d42c7d1dc3680a4b236 31),
   ([], toBytes 0xe3b0c44298fc1c149afbf4c8996fb92427ae41e4649b934ca495991b7852b855 32),
   (mDB95 ++ toBytes 0 4, toBytes 0xd824a21a7958f09e543a1d1e026fa5b086c58db54482c2ba5b7f2d01e227a748 32)]

/-- §2.2's backends. -/
def oaepBackend : Backend := vectorBackend digests seed32

/-- §3.1's backends. -/
def keyBackend : Backend := vectorBackend [] (toBytes 0xffff8000c000a5a5 8)

/-- §2.2's block E1. -/
def e1 : Bytes :=
  [0x00#8] ++ toBytes 0xd825a0197d5df6995c3317150e62abbf96d49fa65097d4ad4366371afe3ab957 32 ++ mDB95

/-- A command just accepted, with many engine steps granted. -/
def ready (i : Instr) (s : State) : State := (s.accept (encode i)).withGrant fetchGrant

/-- `RFS = 4`, with `HLEN = 1` so that the OAEP codec fits too. -/
def cfg4 : Params := { rfs := 4, hlen := 1 }

/-- §3.1's key, loaded. -/
def keyed : State :=
  let s : State := { State.reset with cfg := cfg4, e := 3#32 }
  ((((((s.outWrite .n (toBytes 0x52d570f5 4)).outWrite .p (toBytes 0x8003 2)).outWrite
    .q (toBytes 0xa5a7 2)).outWrite .dp (toBytes 0x5557 2)).outWrite .dq (toBytes 0x6e6f 2)).outWrite
    .c (toBytes 0x776d 2))

/-- `RFS = 2`, the width of §4.1 and §4.2. -/
def cfg2 : Params := { rfs := 2, hlen := 32 }

/-- A state with one block in BLK. -/
def withBlock (s : State) (block : Bytes) : State := s.outWrite .blk block

/-- STATUS after a step. -/
def statusAfter (o : Host.Outcome State Fault Refusal) : Option Word :=
  match o with
  | .next t => some t.status.word
  | .fault _ => none
  | .refused _ => none

/-! ## The vectors -/

-- §2.1: MGF(00..1f, 33)
theorem test_mgfExpand_33 :
    let t := runGranted (expandStep oaepBackend)
      (ready .mgfExpand { State.reset.outWrite .msg seed32 with outLen := 33#32 })
    t.bufBytes .blk 34 = toBytes 0x70f4003d52b6eb03da852e93256b5986b5d4883098bb7973bc5318cc66637a840400 34 ∧
    t.blkLen = 33#32 ∧ t.status.word = 0x06#32 ∧ t.trace.length = 8 := by decide +kernel

-- §2.1: MSGLEN 1025
theorem test_mgfExpand_bad :
    (runGranted (expandStep oaepBackend)
      (ready .mgfExpand { State.reset with msgLen := 1025#32, outLen := 4#32 })).status.word = 0x22#32 := by
  decide +kernel

-- §2.2: E1, 20 requests
theorem test_oaepEncode_e1 :
    let t := runGranted (encodeStep oaepBackend)
      (ready .oaepEncode (State.reset.outWrite .msg (toBytes 0x74657374 4)))
    t.bufBytes .blk 129 = e1 ++ [0x00#8] ∧ t.blkLen = 128#32 ∧ t.status.word = 0x06#32 ∧
    t.trace.length = 20 := by decide +kernel

-- §2.2: MSGLEN 63 with RFS 128
theorem test_oaepEncode_long :
    let t := runGranted (encodeStep oaepBackend)
      (ready .oaepEncode { withBlock State.reset e1 with msgLen := 63#32 })
    t.status.word = 0x52#32 ∧ t.blkLen = 0#32 ∧ t.mem = [] ∧ t.rngPos = 0 := by decide +kernel

-- §2.2: E1 decodes to "test", 19 requests
theorem test_oaepDecode_e1 :
    let t := runGranted (decodeStep oaepBackend) (ready .oaepDecode (withBlock State.reset e1))
    t.message = toBytes 0x74657374 4 ∧ t.status.word = 0x06#32 ∧ t.trace.length = 19 := by decide +kernel

-- §2.3: byte 0 set to 0x01
theorem test_oaepDecode_tampered :
    let t := runGranted (decodeStep oaepBackend)
      (ready .oaepDecode (withBlock State.reset ([0x01#8] ++ e1.drop 1)))
    t.status.word = 0x62#32 ∧ t.msgLen = 0#32 ∧ t.bufByte .blk 0 = 0x01#8 := by decide +kernel

-- §4.1: 100^5 mod 133 = 123
theorem test_rsaEncrypt_133 :
    let s : State := { State.reset with cfg := cfg2, e := 5#32 }
    let t := runGranted (encryptStep keyBackend)
      (ready .rsaEncrypt (withBlock (s.outWrite .n [0x00#8, 0x85#8]) [0x00#8, 0x64#8]))
    t.block = [0x00#8, 0x7B#8] ∧ t.blkLen = 2#32 ∧ t.status.word = 0x06#32 := by decide +kernel

-- 43_rsa_crt.md R301: BLKLEN = RFS - 1
theorem test_rsaEncrypt_short :
    (runGranted (encryptStep keyBackend)
      (ready .rsaEncrypt (withBlock { State.reset with cfg := cfg2 } [0x64#8]))).status.word = 0x22#32 := by
  decide +kernel

-- §4.2: p = 7, q = 19, 18 requests
theorem test_rsaDecrypt_7_19 :
    let s : State := { State.reset with cfg := cfg2 }
    let k := ((((s.outWrite .p [7#8]).outWrite .q [19#8]).outWrite .dp [5#8]).outWrite .dq [11#8]).outWrite
      .c [11#8]
    let t := runGranted (decryptStep keyBackend) (ready .rsaDecrypt (withBlock k [0x00#8, 0x7B#8]))
    t.block = [0x00#8, 0x64#8] ∧ t.status.word = 0x06#32 ∧ t.trace.length = 18 := by decide +kernel

-- 43_rsa_crt.md, worked examples: p = 19, q = 7, where the separate temporary matters (90_conflicts.md C1)
theorem test_rsaDecrypt_19_7 :
    let s : State := { State.reset with cfg := cfg2 }
    let k := ((((s.outWrite .p [19#8]).outWrite .q [7#8]).outWrite .dp [11#8]).outWrite .dq [5#8]).outWrite
      .c [3#8]
    (runGranted (decryptStep keyBackend) (ready .rsaDecrypt (withBlock k [0x00#8, 0x84#8]))).block
      = [0x00#8, 0x84#8] := by decide +kernel

-- §3.1, first run
theorem test_keyGenerate_3 :
    let t := runGranted (generateStep keyBackend) (ready .keyGenerate { State.reset with cfg := cfg4, e := 3#32 })
    t.mem = keyed.mem ∧ t.status.word = 0x06#32 ∧ t.rngPos = 8 ∧ t.drawPos = 8 := by decide +kernel

-- §3.1: E = 65536
theorem test_keyGenerate_even :
    let t := runGranted (generateStep keyBackend)
      (ready .keyGenerate { State.reset with cfg := cfg4, e := 65536#32 })
    t.status.word = 0x22#32 ∧ t.rngPos = 0 := by decide +kernel

-- §3.2: no change
theorem test_keyValidate_valid :
    (runGranted (validateStep keyBackend) (ready .keyValidate keyed)).status.word = 0x06#32 := by
  decide +kernel

-- §3.2: C = 776c
theorem test_keyValidate_coefficient :
    (runGranted (validateStep keyBackend)
      (ready .keyValidate (keyed.outWrite .c (toBytes 0x776c 2)))).status.word = 0x72#32 := by decide +kernel

-- 41_key_fsm.md R218, R220: with C = 776c the trace stops with V9's two requests
theorem test_validate_trace_stops_at_failure :
    (upToFailure (validateChecks keyBackend cfg4 0 3 0x52d570f5 0x8003 0xa5a7 0x5557 0x6e6f 0x776c)).drop 8
      = [.mul 0x8003 0xa5a7, .cmp 0x52d570f5 0x52d570f5, .cmp 0x8003 0xa5a7, .mul 0x776c 0x8003,
         .mod (0x776c * 0x8003) 0xa5a7] := by decide +kernel

-- 41_key_fsm.md, worked example of KEY_KILL
theorem test_keyKill :
    let t := runGranted killStep (ready .keyKill keyed)
    readBytes t.mem 0x1400 4 = zeros 4 ∧ t.bufBytes .n 4 = toBytes 0x52d570f5 4 ∧ t.status.word = 0x06#32 := by
  decide +kernel

-- 70_reset_and_hazards.md R404: NO_KEY after reset
theorem test_step_runs_validate :
    statusAfter (step (State.reset.withFetchWord 32 0x21)) = some 0x32#32 := by decide +kernel

/-! ## Host programs (30_encoding.md R129 to R131) -/

theorem test_host_cmd : hostCmd .oaepEncode = [.host (.write32 0x0010#16 0x00000002#32)] := by decide
theorem test_host_wbuf :
    hostWbuf 0x0400#16 [1#8, 2#8] = [.host (.write8 0x0400#16 1#8), .host (.write8 0x0401#16 2#8)] := by decide
theorem test_host_seal :
    hostSeal = [.host (.write32 0x0010#16 2#32), .wait, .host (.write32 0x0010#16 0x10#32), .wait] := by decide
theorem test_host_ack : hostAck = [.host (.write32 0x0014#16 0x0000000A#32)] := by decide

/-! ## Witnesses: a state and operands that meet the hypotheses of each statement, clause by clause -/

/-- Reset, with events to come. -/
def facing (q : List Event) : State := { State.reset with sched := q }

/-- A STATUS while a command runs. -/
def running : Status := { busy := true, done := false, ok := false, ovr := false, err := .none }

/-- A state in which a command runs at a point, with steps granted. -/
def inside (f : Fsm) (g : Nat) : State := { State.reset with status := running, fsm := f, grant := g }

theorem witness_DecodeAgreesWithEncode :
    (0x4#32 : Word) ∉ [0x1#32, 0x2#32, 0x3#32, 0x10#32, 0x11#32, 0x20#32, 0x21#32, 0x22#32] := by decide

theorem witness_ResetEventClearsTheEngine : (facing [.reset]).sched = .reset :: [] := rfl

theorem witness_ResetEventLeavesTheBackends : (facing [.reset, .wait]).sched = .reset :: [.wait] := rfl

theorem witness_CmdRegisterAcceptsOrDrops :
    let s := facing [.host (.write32 0x010#16 2#32)]
    let b : State := { s with status := running }
    let i : State := { facing [.engine 1] with fsm := .illegal, status := running }
    s.sched = .host (.write32 0x010#16 2#32) :: [] ∧ s.status.busy = false ∧
    b.sched = .host (.write32 0x010#16 2#32) :: [] ∧ b.status.busy = true ∧
    i.sched = .engine (0 + 1) :: [] ∧ i.fsm = Fsm.run .illegal ∧
    (facing [.host (.read32 0x010#16)]).sched = .host (.read32 0x010#16) :: [] :=
  ⟨rfl, rfl, rfl, rfl, rfl, rfl, rfl⟩

theorem witness_StepRunsDecodedCommand_engine :
    let s : State := { facing [.engine 3] with fsm := .keyKill }
    s.sched = .engine 3 :: [] ∧ s.fsm.op = some (.cmd .keyKill) := ⟨rfl, rfl⟩

theorem witness_StepRunsDecodedCommand_word : decodeWord 0x11#32 = .ok .rsaDecrypt := by decide

theorem witness_StepRunsDecodedCommand_empty :
    (inside .keyKill 0).sched = [] ∧ (inside .keyKill 0).fsm.op = some (.cmd .keyKill) := ⟨rfl, rfl⟩

theorem witness_StepRunsDecodedCommand_illegal :
    (inside .illegal 0).sched = [] ∧ (inside .illegal 0).fsm = Fsm.run .illegal := ⟨rfl, rfl⟩

theorem witness_IllegalWordCompletesWithIllegalCmd :
    let s : State := { facing [.engine 1] with fsm := .illegal }
    (∀ i, decodeWord 0x100#32 ≠ .ok i) ∧ s.fsm = Fsm.run (opOfWord 0x100#32) ∧ s.sched = .engine (0 + 1) :: [] :=
  ⟨fun i => by cases i <;> decide, by decide, rfl⟩

theorem witness_BusErrorExactlyOnBadAccess_bad :
    (∀ x, (facing [.host x]).sched = .host x :: []) ∧
    ((Access.read32 0x27FE#16).wide = true ∧ (Access.read32 0x27FE#16).addr.toNat % 4 ≠ 0) ∧
    ((Access.read8 0x002B#16).wide = false ∧ (Access.read8 0x002B#16).addr.toNat < 0x2C) ∧
    (0x2C ≤ (Access.write8 0x03FF#16 0#8).addr.toNat ∧ (Access.write8 0x03FF#16 0#8).addr.toNat < 0x400) ∧
    0x2800 ≤ (Access.write32 0x2800#16 0#32).addr.toNat := by
  refine ⟨fun _ => rfl, ?_⟩
  decide

theorem witness_BusErrorExactlyOnBadAccess_good :
    let x : Access := .read32 0x0028#16
    let a := x.addr.toNat
    (facing [.host x]).sched = .host x :: [] ∧
    ¬ ((x.wide = true ∧ a % 4 ≠ 0) ∨ (x.wide = false ∧ a < 0x2C) ∨ (0x2C ≤ a ∧ a < 0x400) ∨ 0x2800 ≤ a) :=
  ⟨rfl, by decide⟩

theorem witness_ControlRegisterReads :
    (facing [.host (.read32 0x028#16)]).sched = .host (.read32 0x028#16) :: [] ∧
    (facing [.host (.read32 0x014#16)]).sched = .host (.read32 0x014#16) :: [] ∧
    ((0x028#16, State.reset.e) : Addr × Word) ∈
        [(0x000#16, 0x4D524F01#32), (0x004#16, BitVec.ofNat 32 State.reset.cfg.rfs),
         (0x008#16, BitVec.ofNat 32 State.reset.cfg.hlen), (0x00C#16, if State.reset.ie then 1#32 else 0#32),
         (0x010#16, 0#32), (0x018#16, State.reset.msgLen), (0x01C#16, State.reset.lblLen),
         (0x020#16, State.reset.blkLen), (0x024#16, State.reset.outLen), (0x028#16, State.reset.e)] := by
  refine ⟨rfl, rfl, ?_⟩
  simp

theorem witness_StatusValueAfterCompletion : running.ovr = false := rfl

theorem witness_HostReadHasNoSideEffect :
    ∃ t, step (facing [.host (.read8 0x0400#16)]) = .next t ∧
      (facing [.host (.read8 0x0400#16)]).sched = .host (.read8 0x0400#16) :: [] ∧
      (Access.read8 0x0400#16).isWrite = false := ⟨_, rfl, rfl, rfl⟩

theorem witness_StatusWriteIsWriteOneToClear :
    (facing [.host (.write32 0x014#16 0xA#32)]).sched = .host (.write32 0x014#16 0xA#32) :: [] := rfl

theorem witness_CtrlWriteStoresInterruptEnable :
    ∃ t, (facing [.host (.write32 0x00C#16 1#32)]).sched = .host (.write32 0x00C#16 1#32) :: [] ∧
      step (facing [.host (.write32 0x00C#16 1#32)]) = .next t := ⟨_, rfl, rfl⟩

theorem witness_OperandRegisterWriteStoresAllBits :
    ∀ a ∈ [0x018#16, 0x01C#16, 0x020#16, 0x024#16, 0x028#16],
      (facing [.host (.write32 a 0xFFFFFFFF#32)]).status.busy = false ∧
      (facing [.host (.write32 a 0xFFFFFFFF#32)]).sched = .host (.write32 a 0xFFFFFFFF#32) :: [] :=
  fun _ _ => ⟨rfl, rfl⟩

theorem witness_HardwiredRegisterWriteIsIgnored :
    (0x008#16 : Addr) ∈ [0x000#16, 0x004#16, 0x008#16] ∧
    (facing [.host (.write32 0x008#16 1#32)]).sched = .host (.write32 0x008#16 1#32) :: [] := ⟨by decide, rfl⟩

theorem witness_BufferAccessIsBigEndian_write32 :
    let s := facing [.host (.write32 0x27FC#16 0x01020304#32)]
    s.status.busy = false ∧ 0x400 ≤ (0x27FC#16 : Addr).toNat ∧ (0x27FC#16 : Addr).toNat < 0x2800 ∧
    (0x27FC#16 : Addr).toNat % 4 = 0 ∧ s.sched = .host (.write32 0x27FC#16 0x01020304#32) :: [] :=
  ⟨rfl, by decide, by decide, by decide, rfl⟩

theorem witness_BufferAccessIsBigEndian_byte :
    let a : Addr := 0x27FF#16
    (facing []).status.busy = false ∧ 0x400 ≤ a.toNat ∧ a.toNat < 0x2800 ∧
    (facing [.host (.write8 a 5#8)]).sched = .host (.write8 a 5#8) :: [] ∧
    (facing [.host (.read8 a)]).sched = .host (.read8 a) :: [] := ⟨rfl, by decide, by decide, rfl, rfl⟩

theorem witness_BufferAccessIsBigEndian_read32 :
    let a : Addr := 0x0400#16
    (facing [.host (.read32 a)]).status.busy = false ∧ 0x400 ≤ a.toNat ∧ a.toNat < 0x2800 ∧ a.toNat % 4 = 0 ∧
    (facing [.host (.read32 a)]).sched = .host (.read32 a) :: [] := ⟨rfl, by decide, by decide, by decide, rfl⟩

theorem witness_BusyWritesAreDroppedWithOverrun :
    let x : Access := .write32 0x010#16 1#32
    let s : State := { facing [.host x] with status := running }
    s.status.busy = true ∧ s.sched = .host x :: [] ∧ x.isWrite = true ∧ x.wellFormed = true ∧
    x.addr ∉ [0x000#16, 0x004#16, 0x008#16, 0x00C#16, 0x014#16] :=
  ⟨rfl, rfl, rfl, by decide, by decide⟩

theorem witness_DisciplinedHostNeverOverruns :
    let x : Access := .write32 0x014#16 0xA#32
    let s : State := { facing [.host x] with status := running }
    s.sched = .host x :: [] ∧ disciplined s x = true := ⟨rfl, by decide⟩

theorem witness_WaitPollsUntilDone_done :
    let s : State := { facing [.wait] with status := running.completed .none }
    s.sched = .wait :: [] ∧ s.status.done = true := ⟨rfl, rfl⟩

theorem witness_WaitPollsUntilDone_running :
    let s : State := { inside .keyKill 0 with sched := [.wait] }
    s.sched = .wait :: [] ∧ s.status.done = false ∧ s.fsm.op = some (.cmd .keyKill) := ⟨rfl, rfl, rfl⟩

theorem witness_WaitPollsUntilDone_illegal :
    let s : State := { inside .illegal 0 with sched := [.wait] }
    s.sched = .wait :: [] ∧ s.status.done = false ∧ s.fsm = Fsm.run .illegal := ⟨rfl, rfl, rfl⟩

theorem witness_WaitPollsUntilDone_idle :
    (facing [.wait]).sched = .wait :: [] ∧ (facing [.wait]).status.done = false ∧ (facing [.wait]).fsm = .idle :=
  ⟨rfl, rfl, rfl⟩

theorem witness_IdleEngineWaits :
    (facing [.engine 7]).fsm = .idle ∧ (facing [.engine 7]).sched = .engine 7 :: [] ∧
    State.reset.fsm = .idle ∧ State.reset.sched = [] := ⟨rfl, rfl, rfl, rfl⟩

theorem witness_EngineStepIssuesAtMostOneRequest :
    ∃ t, (inside (.rsaEncrypt .readN) 1).grant = 1 ∧ exec .rsaEncrypt (inside (.rsaEncrypt .readN) 1) = .next t :=
  ⟨_, rfl, rfl⟩

theorem witness_RunningCommandIgnoresOverrunAndInterrupt :
    ∃ t, exec .keyKill (inside .keyKill 1) = .next t := ⟨_, rfl⟩

theorem witness_OutputsChangeOnlyAtCompletion :
    ∃ t, (inside (.rsaEncrypt .readN) 1).fsm.op = some (.cmd .rsaEncrypt) ∧
      exec .rsaEncrypt (inside (.rsaEncrypt .readN) 1) = .next t ∧ t.fsm.isIdle = false := ⟨_, rfl, rfl, rfl⟩

theorem witness_CompletionStep :
    ∃ t, (inside .keyKill 1).fsm.op = some (.cmd .keyKill) ∧ exec .keyKill (inside .keyKill 1) = .next t ∧
      t.fsm = .idle := ⟨_, rfl, rfl, rfl⟩

theorem witness_FailedCommandWritesOnlyTheEmptyResult_none :
    ∃ t, (inside (.rsaDecrypt .start) 1).fsm.op = some (.cmd .rsaDecrypt) ∧
      exec .rsaDecrypt (inside (.rsaDecrypt .start) 1) = .next t ∧ t.fsm = .idle ∧
      t.status.err ∈ [Code.illegalCmd, .badOperand, .noKey, .keyInvalid] := ⟨_, rfl, rfl, rfl, by decide⟩

theorem witness_FailedCommandWritesOnlyTheEmptyResult_msg :
    let s : State := { inside (.oaepDecode .start) 1 with cfg := { rfs := 64, hlen := 32 } }
    ∃ t, s.fsm.op = some (.cmd .oaepDecode) ∧ exec .oaepDecode s = .next t ∧ t.fsm = .idle ∧
      t.status.err ∈ [Code.configError, .paddingInvalid] := ⟨_, rfl, rfl, rfl, by decide⟩

theorem witness_FailedCommandWritesOnlyTheEmptyResult_blk :
    let s : State := { inside (.oaepEncode .start) 1 with msgLen := 63#32 }
    ∃ t, s.fsm.op = some (.cmd .oaepEncode) ∧ exec .oaepEncode s = .next t ∧ t.fsm = .idle ∧
      t.status.err = .encodingTooLong := ⟨_, rfl, rfl, rfl, rfl⟩

theorem witness_OutWriteStoresAndZeroFills : (zeros 1024).length ≤ 1024 := by simp

theorem witness_EveryStepKeepsTheInvariant :
    ∃ t, Inv State.reset ∧ step State.reset = .next t := ⟨_, ⟨rfl, rfl, rfl, fun _ => rfl⟩, rfl⟩

theorem witness_OnlyAcceptanceCompletionAndResetMoveTheFsm :
    ∃ t, Inv (facing [.host (.write32 0x010#16 2#32)]) ∧
      step (facing [.host (.write32 0x010#16 2#32)]) = .next t ∧
      t.fsm.op ≠ (facing [.host (.write32 0x010#16 2#32)]).fsm.op :=
  ⟨_, ⟨rfl, rfl, rfl, fun _ => rfl⟩, rfl, by decide⟩

theorem witness_BigIntegerAnswersAreExact :
    (5 : Nat) ≤ 11 ∧ (1 : Nat) ≤ 7 ∧ (7 : Nat) % 2 = 1 ∧ (4 : Nat) < 7 ∧ Nat.gcd 5 9 = 1 := by decide

theorem witness_BadOperandCompletesAtOnce :
    (∀ f, (inside f 1).grant = 0 + 1) ∧
    1024 < ({ inside (.mgfExpand .start) 1 with outLen := 1025#32 } : State).outLen.toNat ∧
    1024 < ({ inside (.oaepEncode .start) 1 with lblLen := 1025#32 } : State).lblLen.toNat ∧
    State.reset.cfg.rfs < ({ inside (.oaepDecode .start) 1 with blkLen := 129#32 } : State).blkLen.toNat ∧
    (inside (.rsaEncrypt .start) 1).blkLen.toNat ≠ State.reset.cfg.rfs ∧
    (inside (.rsaDecrypt .start) 1).blkLen.toNat ≠ State.reset.cfg.rfs ∧
    (inside (.keyGenerate .start) 1).e.toNat % 2 = 0 := by
  refine ⟨fun _ => rfl, ?_⟩
  decide

theorem witness_NoKeyCompletesAtOnce_generate :
    ∃ t, (inside (.keyGenerate .start) 1).fsm.op = some (.cmd .keyGenerate) ∧
      exec .keyGenerate (inside (.keyGenerate .start) 1) = .next t ∧ t.fsm = .idle := ⟨_, rfl, rfl, rfl⟩

theorem witness_NoKeyCompletesAtOnce :
    let s : State := { inside (.rsaEncrypt .start) 1 with blkLen := 128#32 }
    s.grant = 0 + 1 ∧ s.blkLen.toNat = s.cfg.rfs ∧ (∀ k, k < s.cfg.rfs → s.bufByte .n k = 0#8) ∧
    (∀ k, k < s.cfg.rfs / 2 → s.bufByte .p k = 0#8) ∧ (inside (.keyValidate .start) 1).grant = 0 + 1 :=
  ⟨rfl, rfl, fun _ _ => rfl, fun _ _ => rfl, rfl⟩

theorem witness_MgfExpandWritesTheMask :
    let s : State := { inside (.mgfExpand .start) 4096 with outLen := 1024#32, cfg := { rfs := 2, hlen := 1 } }
    s.fsm = .mgfExpand .start ∧ s.msgLen.toNat ≤ 1024 ∧ s.outLen.toNat ≤ 1024 ∧
    max 1 (4 * ceilDiv s.outLen.toNat s.cfg.hlen) ≤ s.grant := ⟨rfl, by decide, by decide, by decide⟩

theorem witness_MaskStreamExtendsItself : (1 : Nat) ≤ 32 ∧ (32 : Nat) < 33 := by decide

theorem witness_OaepEncodeWritesTheBlock :
    let s : State := { inside (.oaepEncode .start) 20 with msgLen := 62#32 }
    s.fsm = .oaepEncode .start ∧ s.msgLen.toNat + 2 * s.cfg.hlen + 2 ≤ s.cfg.rfs ∧ s.lblLen.toNat ≤ 1024 ∧
    encodeRequests s.cfg ≤ s.grant := ⟨rfl, by decide, by decide, by decide⟩

theorem witness_OaepEncodeRefusesLongMessages :
    let s : State := { inside (.oaepEncode .start) 1 with msgLen := 63#32 }
    s.fsm = .oaepEncode .start ∧ s.grant = 0 + 1 ∧ s.msgLen.toNat ≤ 1024 ∧ s.lblLen.toNat ≤ 1024 ∧
    s.cfg.rfs < s.msgLen.toNat + 2 * s.cfg.hlen + 2 := ⟨rfl, rfl, by decide, by decide, by decide⟩

theorem witness_OaepDecodeRefusesNarrowBlocks :
    let s : State := { inside (.oaepDecode .start) 1 with cfg := { rfs := 64, hlen := 32 } }
    s.fsm = .oaepDecode .start ∧ s.grant = 0 + 1 ∧ s.blkLen.toNat ≤ s.cfg.rfs ∧ s.lblLen.toNat ≤ 1024 ∧
    s.cfg.rfs < 2 * s.cfg.hlen + 2 := ⟨rfl, rfl, by decide, by decide, by decide⟩

/-- A state in which OAEP_DECODE starts on a block. -/
def decoding (block : Bytes) : State :=
  { withBlock (inside (.oaepDecode .start) 19) block with blkLen := BitVec.ofNat 32 block.length }

theorem decoding_block (block : Bytes) (h : block.length = 128) :
    zeros ((decoding block).cfg.rfs - (decoding block).blkLen.toNat)
      ++ (decoding block).bufBytes .blk (decoding block).blkLen.toNat = block := by
  have hl : (decoding block).blkLen.toNat = block.length := by simp [decoding, h]
  have hb := bufBytes_outWrite_same (inside (.oaepDecode .start) 19) .blk block (by rw [h]; decide)
  rw [hl]
  show zeros (128 - block.length) ++ _ = block
  rw [h, ← h]
  simpa [zeros, State.bufBytes, decoding, withBlock] using hb

/-- An accepted block, whatever the hash: the block of the empty message under the all-zero seed. -/
theorem witness_OaepDecodeAcceptsExactlyValidBlocks_accepted :
    let B := Config.backend
    let c := State.resetParams
    let s := decoding (encodedBlock B c [] [] (zeros 32))
    let h := s.cfg.hlen
    let f := zeros (s.cfg.rfs - s.blkLen.toNat) ++ s.bufBytes .blk s.blkLen.toNat
    let mDB := f.drop (1 + h)
    let seed := xorBytes (mgf B h mDB h) ((f.drop 1).take h)
    let db := xorBytes (mgf B h seed (s.cfg.rfs - 1 - h)) mDB
    s.fsm = .oaepDecode .start ∧ s.blkLen.toNat ≤ s.cfg.rfs ∧ s.lblLen.toNat ≤ 1024 ∧
    2 * s.cfg.hlen + 2 ≤ s.cfg.rfs ∧ decodeRequests s.cfg ≤ s.grant ∧
    db.take h = digest B h s.labelBytes ∧ f.head? = some 0#8 ∧ ∃ k, db.drop h = zeros k ++ [0x01#8] ++ [] := by
  intro B c s h f mDB seed db
  obtain ⟨hl, h0, hseed, hdb⟩ := encodedBlock_unmasks B c [] [] (zeros 32) rfl (by decide)
  have hf : f = encodedBlock B c [] [] (zeros 32) := decoding_block _ hl
  have hs : seed = zeros 32 := by
    show xorBytes (mgf B h (f.drop (1 + h)) h) ((f.drop 1).take h) = _
    rw [hf]; exact hseed
  have hd : db = dataBlock c (digest B c.hlen []) [] := by
    show xorBytes (mgf B h seed (s.cfg.rfs - 1 - h)) (f.drop (1 + h)) = _
    rw [hs, hf]; exact hdb
  obtain ⟨ht, hr⟩ := dataBlock_parts c (digest B c.hlen []) [] (digest_length _ _ _) (by decide)
  refine ⟨rfl, ?_, by decide, by decide, by decide, ?_, by rw [hf]; exact h0, 62, ?_⟩
  · show (BitVec.ofNat 32 (encodedBlock B c [] [] (zeros 32)).length).toNat ≤ 128
    rw [hl]; decide
  · rw [hd]; exact ht
  · rw [hd]; exact hr

theorem witness_OaepDecodeAcceptsExactlyValidBlocks_rejected :
    let s := decoding ([0x01#8] ++ zeros 127)
    let f := zeros (s.cfg.rfs - s.blkLen.toNat) ++ s.bufBytes .blk s.blkLen.toNat
    s.fsm = .oaepDecode .start ∧ s.blkLen.toNat ≤ s.cfg.rfs ∧ s.lblLen.toNat ≤ 1024 ∧
    2 * s.cfg.hlen + 2 ≤ s.cfg.rfs ∧ decodeRequests s.cfg ≤ s.grant ∧ f.head? ≠ some 0#8 := by
  intro s f
  refine ⟨rfl, by decide +kernel, by decide, by decide, by decide, ?_⟩
  rw [show f = [0x01#8] ++ zeros 127 from decoding_block _ (by decide +kernel)]
  simp

theorem witness_OaepDecodeTraceIsDataIndependent :
    let s := decoding (zeros 128)
    let s' := decoding ([0x01#8] ++ zeros 127)
    ∃ t t', s.fsm = .oaepDecode .start ∧ s'.fsm = .oaepDecode .start ∧ s.cfg = s'.cfg ∧ s.lblLen = s'.lblLen ∧
      s.grant = s'.grant ∧ s.trace = [] ∧ s'.trace = [] ∧ s.blkLen.toNat ≤ s.cfg.rfs ∧
      s'.blkLen.toNat ≤ s'.cfg.rfs ∧ s.lblLen.toNat ≤ 1024 ∧ 2 * s.cfg.hlen + 2 ≤ s.cfg.rfs ∧
      exec .oaepDecode s = .next t ∧ exec .oaepDecode s' = .next t' :=
  ⟨_, _, rfl, rfl, rfl, rfl, rfl, rfl, rfl, by decide +kernel, by decide +kernel, by decide, by decide,
    exec_eq _ _, exec_eq _ _⟩

theorem witness_OaepRoundTrip :
    ∃ t u, State.reset.msgLen.toNat + 2 * State.reset.cfg.hlen + 2 ≤ State.reset.cfg.rfs ∧
      State.reset.lblLen.toNat ≤ 1024 ∧ Runs .oaepEncode State.reset t ∧ Runs .oaepDecode t u :=
  ⟨_, _, by decide, by decide, exec_eq _ _, exec_eq _ _⟩

/-! ### RSA and the key FSM -/

/-- §4.1's key and block, at the start of RSA_ENCRYPT, with a modulus of the caller's choice. -/
def encrypting (n : Bytes) (block : Bytes) : State :=
  let s : State := { inside (.rsaEncrypt .start) 4 with cfg := cfg2, e := 5#32 }
  withBlock (s.outWrite .n n) block

theorem witness_RsaEncryptIsModularExponentiation :
    let s := encrypting [0x00#8, 0x85#8] [0x00#8, 0x64#8]
    s.fsm = .rsaEncrypt .start ∧ s.blkLen.toNat = s.cfg.rfs ∧ 4 ≤ s.grant ∧
    fromBytes s.block < fromBytes (s.bufBytes .n s.cfg.rfs) ∧ fromBytes (s.bufBytes .n s.cfg.rfs) % 2 = 1 := by
  decide +kernel

theorem witness_RsaEncryptOutOfDomainStillCompletes :
    let s := encrypting [0x00#8, 0x64#8] [0x00#8, 0x64#8]
    let s' := encrypting [0x00#8, 0x65#8] [0x00#8, 0x65#8]
    s.fsm = .rsaEncrypt .start ∧ s.blkLen.toNat = s.cfg.rfs ∧ 4 ≤ s.grant ∧
    fromBytes (s.bufBytes .n s.cfg.rfs) ≠ 0 ∧ fromBytes (s.bufBytes .n s.cfg.rfs) % 2 = 0 ∧
    fromBytes (s'.bufBytes .n s'.cfg.rfs) ≠ 0 ∧ fromBytes (s'.bufBytes .n s'.cfg.rfs) ≤ fromBytes s'.block := by
  decide +kernel

/-- §3.1's key at the start of a command, with a block. -/
def keyedAt (f : Fsm) (g : Nat) (block : Bytes) : State :=
  { withBlock keyed block with fsm := f, grant := g, status := running }

/-- `100^3 mod n` for §3.1's key, as a block. -/
def cubedBlock : Bytes := toBytes 1000000 4

theorem witness_RsaDecryptRunsTheCrtSchedule :
    let s := keyedAt (.rsaDecrypt .start) 19 cubedBlock
    s.fsm = .rsaDecrypt .start ∧ s.blkLen.toNat = s.cfg.rfs ∧ 19 ≤ s.grant ∧
    fromBytes (s.bufBytes .p (s.cfg.rfs / 2)) % 2 = 1 ∧ fromBytes (s.bufBytes .q (s.cfg.rfs / 2)) % 2 = 1 := by
  decide +kernel

theorem witness_RsaDecryptNeverFailsOnItsOwn :
    let s := keyedAt (.rsaDecrypt .start) 19 cubedBlock
    s.fsm = .rsaDecrypt .start ∧ s.blkLen.toNat = s.cfg.rfs ∧ 19 ≤ s.grant ∧
    fromBytes (s.bufBytes .p (s.cfg.rfs / 2)) ≠ 0 ∧ fromBytes (s.bufBytes .q (s.cfg.rfs / 2)) ≠ 0 := by
  decide +kernel

/-- The values of §3.1's key, as the statements read them. -/
theorem keyed_values :
    fromBytes (keyed.bufBytes .p 2) = 0x8003 ∧ fromBytes (keyed.bufBytes .q 2) = 0xa5a7 ∧
    fromBytes (keyed.bufBytes .n 4) = 0x8003 * 0xa5a7 ∧ fromBytes (keyed.bufBytes .dp 2) = 0x5557 ∧
    fromBytes (keyed.bufBytes .dq 2) = 0x6e6f ∧ fromBytes (keyed.bufBytes .c 2) = 0x776d := by decide +kernel

/-- A slice depends on the storage only. -/
theorem bufBytes_of_mem (s t : State) (h : s.mem = t.mem) (b : Buf) (len : Nat) :
    s.bufBytes b len = t.bufBytes b len := by simp only [State.bufBytes, h]

/-- The same, in a state with a block. -/
theorem keyedAt_values (f : Fsm) (g : Nat) :
    fromBytes ((keyedAt f g cubedBlock).bufBytes .p 2) = 0x8003 ∧
    fromBytes ((keyedAt f g cubedBlock).bufBytes .q 2) = 0xa5a7 ∧
    fromBytes ((keyedAt f g cubedBlock).bufBytes .dp 2) = 0x5557 ∧
    fromBytes ((keyedAt f g cubedBlock).bufBytes .dq 2) = 0x6e6f ∧
    fromBytes ((keyedAt f g cubedBlock).bufBytes .c 2) = 0x776d ∧
    (keyedAt f g cubedBlock).bufBytes .blk 4 = cubedBlock := by
  simp only [bufBytes_of_mem (keyedAt f g cubedBlock) (withBlock keyed cubedBlock) rfl]
  decide +kernel

theorem prime_8003 : Nat.Prime 0x8003 := by norm_num
theorem prime_a5a7 : Nat.Prime 0xa5a7 := by norm_num

/-- Blocks of `g ≥ n` and of `g mod n` for §3.1's `n = 52d570f5`. -/
def wideBlock : Bytes := [0xFF#8, 0xFF#8, 0xFF#8, 0xFF#8]
def reducedBlock : Bytes := toBytes (0xFFFFFFFF % 0x52d570f5) 4

theorem witness_DecryptionDependsOnCiphertextModN :
    let s := keyedAt (.rsaDecrypt .start) 19 wideBlock
    let s' := keyedAt (.rsaDecrypt .start) 19 reducedBlock
    let half := s.cfg.rfs / 2
    let p := fromBytes (s.bufBytes .p half)
    let q := fromBytes (s.bufBytes .q half)
    s.fsm = .rsaDecrypt .start ∧ s'.fsm = .rsaDecrypt .start ∧ s.cfg = s'.cfg ∧
    s.blkLen.toNat = s.cfg.rfs ∧ s'.blkLen.toNat = s'.cfg.rfs ∧ 19 ≤ s.grant ∧ 19 ≤ s'.grant ∧
    (∀ b ∈ [Buf.p, .q, .dp, .dq, .c], s.bufBytes b half = s'.bufBytes b half) ∧
    p % 2 = 1 ∧ q % 2 = 1 ∧ p * q ≤ fromBytes s.block ∧
    fromBytes s'.block = fromBytes s.block % (p * q) := by decide +kernel

theorem witness_RsaDecryptInvertsEncryption :
    let s := keyedAt (.rsaDecrypt .start) 19 cubedBlock
    let p := fromBytes (s.bufBytes .p (s.cfg.rfs / 2))
    let q := fromBytes (s.bufBytes .q (s.cfg.rfs / 2))
    s.fsm = .rsaDecrypt .start ∧ s.blkLen.toNat = s.cfg.rfs ∧ 19 ≤ s.grant ∧
    p.Prime ∧ q.Prime ∧ p ≠ q ∧ p % 2 = 1 ∧ q % 2 = 1 ∧
    3 * fromBytes (s.bufBytes .dp (s.cfg.rfs / 2)) % (p - 1) = 1 % (p - 1) ∧
    3 * fromBytes (s.bufBytes .dq (s.cfg.rfs / 2)) % (q - 1) = 1 % (q - 1) ∧
    fromBytes (s.bufBytes .c (s.cfg.rfs / 2)) * p % q = 1 ∧ 100 < p * q ∧
    s.block = toBytes (100 ^ 3 % (p * q)) s.cfg.rfs := by
  obtain ⟨hp, hq, hdp, hdq, hc, hb⟩ := keyedAt_values (.rsaDecrypt .start) 19
  have hr : (keyedAt (.rsaDecrypt .start) 19 cubedBlock).cfg.rfs = 4 := rfl
  simp only [State.block, hr, show 4 / 2 = 2 from rfl, hp, hq, hdp, hdq, hc, hb]
  exact ⟨rfl, by decide +kernel, by decide, prime_8003, prime_a5a7, by decide +kernel⟩

/-- §3.1's key meets R216's laws, as the round trips ask them. -/
theorem keyed_laws (s : State) (hs : s.cfg = cfg4 ∧ s.e = 3#32 ∧ s.mem = keyed.mem) :
    let half := s.cfg.rfs / 2
    let p := fromBytes (s.bufBytes .p half)
    let q := fromBytes (s.bufBytes .q half)
    let n := fromBytes (s.bufBytes .n s.cfg.rfs)
    p.Prime ∧ q.Prime ∧ p ≠ q ∧ p % 2 = 1 ∧ q % 2 = 1 ∧ n = p * q ∧ 256 ^ (s.cfg.rfs - 1) ≤ n ∧
    s.e.toNat * fromBytes (s.bufBytes .dp half) % (p - 1) = 1 % (p - 1) ∧
    s.e.toNat * fromBytes (s.bufBytes .dq half) % (q - 1) = 1 % (q - 1) ∧
    fromBytes (s.bufBytes .c half) * p % q = 1 := by
  obtain ⟨hc, he, hm⟩ := hs
  obtain ⟨h1, h2, h3, h4, h5, h6⟩ := keyed_values
  have hbuf : ∀ b len, s.bufBytes b len = keyed.bufBytes b len := fun b len => by
    simp only [State.bufBytes, hm]
  simp only [hbuf, hc, he, show cfg4.rfs = 4 from rfl, show 4 / 2 = 2 from rfl, h1, h2, h3, h4, h5, h6]
  exact ⟨prime_8003, prime_a5a7, by decide, by decide, by decide, trivial, by decide, by decide, by decide, by decide⟩

theorem witness_CipherRoundTrip :
    let s : State := { keyed with blkLen := 4#32 }
    ∃ t u, (s.cfg = cfg4 ∧ s.e = 3#32 ∧ s.mem = keyed.mem) ∧ s.blkLen.toNat = s.cfg.rfs ∧
      s.bufByte .blk 0 = 0#8 ∧ Runs .rsaEncrypt s t ∧ Runs .rsaDecrypt t u :=
  ⟨_, _, ⟨rfl, rfl, rfl⟩, by decide, by decide +kernel, exec_eq _ _, exec_eq _ _⟩

theorem witness_SealThenOpenRecoversTheMessage :
    ∃ t1 t2 t3 t4, (keyed.cfg = cfg4 ∧ keyed.e = 3#32 ∧ keyed.mem = keyed.mem) ∧
      keyed.msgLen.toNat + 2 * keyed.cfg.hlen + 2 ≤ keyed.cfg.rfs ∧ keyed.lblLen.toNat ≤ 1024 ∧
      Runs .oaepEncode keyed t1 ∧ Runs .rsaEncrypt t1 t2 ∧ Runs .rsaDecrypt t2 t3 ∧ Runs .oaepDecode t3 t4 :=
  ⟨_, _, _, _, ⟨rfl, rfl, rfl⟩, by decide, by decide, exec_eq _ _, exec_eq _ _, exec_eq _ _, exec_eq _ _⟩

/-- A backend that meets PRIME_EXACT, and whose random stream is `83 8b 8b ..`: 131, then 139. -/
def exactBackend : Backend :=
  { oaepBackend with
    primeAnswer := fun _ a => decide (Nat.Prime a)
    randomByte := fun i => if i = 0 then 0x83#8 else 0x8b#8 }

theorem exactBackend_exact : PrimeExact exactBackend := fun _ _ => by simp [exactBackend]

theorem finds_one (d : DrawPoint) (x : Nat) (avoid : Option Nat)
    (hc : firstCandidate exactBackend cfg2 d = x) (hb : x < halfBound cfg2) (hx : x.Prime)
    (ha : acceptable 7 avoid x) :
    FindsPrime exactBackend cfg2 7 avoid d x ((d.read (hrfs cfg2)).probed exactBackend x)
      (candidateTrace exactBackend cfg2 d ++ [.cmp x (halfBound cfg2), .isPrime x] ++ checkTrace 7 avoid x) :=
  .found (hc.symm ▸ Probes.hit hb (by simp [exactBackend, hx])) ha

/-- The requests of the search that finds 131, then of the one that finds 139 (41_key_fsm.md R214 item 1). -/
def trace131 : List Request :=
  [.rngRead 1, .fromBytes [0x83#8], .lowBits 131 2, .cmp 131 256, .isPrime 131, .sub 131 1, .coFactor 130 7]
def trace139 : List Request :=
  [.rngRead 1, .fromBytes [0x8b#8], .lowBits 139 2, .cmp 139 256, .isPrime 139, .sub 139 1, .coFactor 138 7,
    .cmp 139 131]

theorem finds_131 : FindsPrime exactBackend cfg2 7 none ⟨0, 0⟩ 131 ⟨1, 1⟩ trace131 :=
  finds_one ⟨0, 0⟩ 131 none (by decide +kernel) (by decide) (by norm_num) ⟨by decide, by decide⟩

theorem finds_139 : FindsPrime exactBackend cfg2 7 (some 131) ⟨1, 1⟩ 139 ⟨2, 2⟩ trace139 :=
  finds_one ⟨1, 1⟩ 139 (some 131) (by decide +kernel) (by decide) (by norm_num) ⟨by decide, by decide⟩

/-- KEY_GENERATE about to start, with `RFS = 2`. -/
def generating (e : Word) : State := { inside (.keyGenerate .start) 0 with cfg := cfg2, e := e }

theorem witness_KeyGenerateWritesTheKeyOrSearchesForEver :
    (generating 7#32).fsm = .keyGenerate .start ∧ (generating 7#32).e.toNat % 2 = 1 := ⟨rfl, by decide⟩

theorem witness_KeyGenerateCompletesWhenPrimesAreFound :
    let s := generating 7#32
    s.fsm = .keyGenerate .start ∧ s.e.toNat % 2 = 1 ∧
    FindsPrime exactBackend s.cfg s.e.toNat none ⟨s.rngPos, s.drawPos⟩ 131 ⟨1, 1⟩ trace131 ∧
    FindsPrime exactBackend s.cfg s.e.toNat (some 131) ⟨1, 1⟩ 139 ⟨2, 2⟩ trace139 :=
  ⟨rfl, by decide, finds_131, finds_139⟩

theorem witness_EveryStepKeepsCandidatesInRange :
    let s : State := { inside (.keyGenerate (.probe .p)) 0 with
      cfg := cfg2, sched := [.engine 1], scratch := { State.reset.scratch with gen := { x := 131 } } }
    ∃ t, GenInv s ∧ step s = .next t := by
  intro s
  refine ⟨_, ?_, exec_eq .keyGenerate _⟩
  show (Side.p = Side.q → halfWidth cfg2 0) ∧ halfWidth cfg2 131
  exact ⟨fun h => by simp at h, by unfold halfWidth; decide⟩

theorem witness_GeneratedKeyObeysTheKeyLaws :
    PrimeExact exactBackend ∧ 7 % 2 = 1 ∧ FindsPrime exactBackend cfg2 7 none ⟨0, 0⟩ 131 ⟨1, 1⟩ trace131 ∧
    FindsPrime exactBackend cfg2 7 (some 131) ⟨1, 1⟩ 139 ⟨2, 2⟩ trace139 :=
  ⟨exactBackend_exact, rfl, finds_131, finds_139⟩

theorem witness_KeyGenerateHangsOnHostileExponent :
    let s := generating 87646755#32
    PrimeExact exactBackend ∧ s.fsm = .keyGenerate .start ∧ s.cfg.rfs = 2 ∧ s.e = 87646755#32 ∧
    s.status.busy = true := ⟨exactBackend_exact, rfl, rfl, rfl, rfl⟩

theorem witness_KeyValidateVerdict :
    let s := keyedAt (.keyValidate .start) 34 cubedBlock
    s.fsm = .keyValidate .start ∧ 34 ≤ s.grant ∧ fromBytes (s.bufBytes .p (s.cfg.rfs / 2)) ≠ 0 ∧
    fromBytes (s.bufBytes .q (s.cfg.rfs / 2)) ≠ 0 := by decide +kernel

theorem witness_ValidatedKeySatisfiesTheInvariants :
    PrimeExact exactBackend ∧ validNumbers cfg2 7 (131 * 139) 131 139 93 79 52 ∧
    primesAccepted exactBackend 0 131 139 := by
  refine ⟨exactBackend_exact, by unfold validNumbers; decide, ?_⟩
  constructor <;> simp only [exactBackend, decide_eq_true_eq] <;> norm_num

theorem witness_KeyKillZeroesThePrivateKey :
    (inside .keyKill 1).fsm = .keyKill ∧ (inside .keyKill 1).grant = 0 + 1 := ⟨rfl, rfl⟩

end Sys2Proof.Tests
end

section
/-! What one step of the machine can do, said once: the equation of each event of the schedule, the inversion
lemma of the engine's turn and of a step, and the engine's invariant carried over each case. -/

namespace Sys2Proof.Machine

/-! ## One equation per event of the schedule (spec/20_memory.md R94) -/

theorem step_empty {s : State} (h : s.sched = []) : step s = engineTurn (s.withGrant 1) := by
  simp only [step, h, State.withGrant]

theorem step_engine {s : State} {n : Nat} {rest : List Event} (h : s.sched = .engine n :: rest) :
    step s = engineTurn { s with sched := rest, grant := n } := by
  simp only [step, h]

theorem step_host {s : State} {x : Access} {rest : List Event} (h : s.sched = .host x :: rest) :
    step s = hostAccess Config.backend x { s with sched := rest } := by
  simp only [step, h]

theorem step_wait {s : State} {rest : List Event} (h : s.sched = .wait :: rest) :
    step s = if s.status.done then .next { s.poll with sched := rest } else engineTurn (s.poll.withGrant 1) := by
  simp only [step, h]; rfl

theorem step_reset {s : State} {rest : List Event} (h : s.sched = .reset :: rest) :
    step s = .next { s with sched := rest }.resetEvent := by
  simp only [step, h]

/-! ## The engine's turn -/

/-- In IDLE the engine waits (70_reset_and_hazards.md R401). -/
theorem engineTurn_idle {s : State} (h : s.fsm = .idle) : engineTurn s = .next (s.withGrant 0) := by
  simp only [engineTurn, h, Fsm.op, State.withGrant]

theorem engineTurn_cmd {s : State} {i : Instr} (h : s.fsm.op = some (.cmd i)) : engineTurn s = exec i s := by
  simp only [engineTurn, h]

theorem engineTurn_illegal {s : State} (h : s.fsm = .illegal) :
    engineTurn s = .next (runGranted illegalStep s) := by
  simp only [engineTurn, h, Fsm.op]; rfl

/-- An ILLEGAL word completes in its first granted engine step and then stands still (30_encoding.md R126). -/
theorem engineLoop_illegal_succ {s : State} (h : s.fsm = .illegal) (n : Nat) :
    engineLoop illegalStep (n + 1) s = s.complete .illegalCmd := by
  have hstep : illegalStep s = s.complete .illegalCmd := by simp only [illegalStep, h]
  rw [engineLoop_succ _ _ _ (by rw [h]; rfl), hstep, engineLoop_idle _ _ _ rfl]

/-- What an engine's turn does before its grant is used up: nothing, some engine steps inside the running
command, or these and the completion step. -/
inductive TurnMoves (s : State) : State → Prop
  | waits : TurnMoves s s
  | inside {u : State} (hs : s.fsm.isIdle = false) (hu : RunsOn s u) : TurnMoves s u
  | completes {u : State} (hu : Completes s u) : TurnMoves s u

theorem engineLoop_illegal_moves {s : State} (h : s.fsm = .illegal) (n : Nat) :
    TurnMoves s (engineLoop illegalStep n s) := by
  cases n with
  | zero => exact .waits
  | succ n =>
    rw [engineLoop_illegal_succ h]
    exact .completes (.mk s [] .illegalCmd (RunsOn.refl s) rfl)

/-- Everything an engine's turn can do. -/
theorem engineTurn_moves {s t : State} (h : engineTurn s = .next t) :
    ∃ u, TurnMoves s u ∧ t = u.withGrant 0 := by
  cases hop : s.fsm.op with
  | none =>
    rw [engineTurn_idle ((op_none_iff _).1 hop)] at h
    cases h
    exact ⟨s, .waits, rfl⟩
  | some o =>
    cases o with
    | illegal =>
      have hf : s.fsm = .illegal := by
        generalize s.fsm = f at hop
        cases f <;> simp [Fsm.op] at hop
        rfl
      rw [engineTurn_illegal hf] at h
      cases h
      exact ⟨_, engineLoop_illegal_moves hf s.grant, rfl⟩
    | cmd i =>
      rw [engineTurn_cmd hop] at h
      obtain ⟨u, hu, rfl⟩ := exec_run i s t hop h
      exact ⟨u, hu.elim (.inside (isIdle_of_op hop)) .completes, rfl⟩

/-! ## A step -/

/-- Everything a step that answers can do: the engine's turn, with the schedule moved on, a grant given and, after
a poll, the bus's answer changed; a host access; a poll that ends a `wait`; the reset event. -/
inductive StepMoves (s : State) : State → Prop
  | turn {u : State} (q : List Event) (n : Nat) (r : BusResp)
      (hu : TurnMoves { s with sched := q, grant := n, resp := r } u) : StepMoves s (u.withGrant 0)
  | host {t : State} (x : Access) (rest : List Event) (hs : s.sched = .host x :: rest)
      (ht : hostAccess Config.backend x { s with sched := rest } = .next t) : StepMoves s t
  | polled (rest : List Event) : StepMoves s { s.poll with sched := rest }
  | reset (rest : List Event) (hs : s.sched = .reset :: rest) :
      StepMoves s { s with sched := rest }.resetEvent

theorem step_moves {s t : State} (h : step s = .next t) : StepMoves s t := by
  have turn : ∀ q n r, engineTurn { s with sched := q, grant := n, resp := r } = .next t → StepMoves s t := by
    intro q n r ht
    obtain ⟨u, hu, rfl⟩ := engineTurn_moves ht
    exact .turn q n r hu
  cases hs : s.sched with
  | nil =>
    rw [step_empty hs] at h
    exact turn s.sched 1 s.resp h
  | cons ev rest =>
    cases ev with
    | host x => exact .host x rest hs (step_host hs ▸ h)
    | engine n => exact turn rest n s.resp (step_engine hs ▸ h)
    | wait =>
      rw [step_wait hs] at h
      split at h
      · cases h
        exact .polled rest
      · exact turn s.sched 1 (.data32 (s.readReg .status)) h
    | reset =>
      rw [step_reset hs] at h
      cases h
      exact .reset rest hs

/-! ## STATUS stays legal (spec/10_state.md R37) -/

@[simp] theorem Status.legal_completed (t : Status) (c : Code) : (t.completed c).legal = true := by
  cases c <;> rfl

@[simp] theorem Status.legal_accepted (t : Status) : t.accepted.legal = true := rfl

@[simp] theorem Status.legal_overrun (t : Status) : t.overrun.legal = t.legal := rfl

/-- Clearing DONE keeps the other fields' agreement: OK was 1 only beside ERR 0. -/
theorem Status.legal_w1c {t : Status} (h : t.legal = true) (w : Word) : (t.w1c w).legal = true := by
  obtain ⟨busy, done, ok, ovr, err⟩ := t
  cases busy with
  | true =>
    obtain ⟨⟨rfl, rfl⟩, rfl⟩ : (done = false ∧ ok = false) ∧ err = .none := by simpa [Status.legal] using h
    rfl
  | false =>
    cases done with
    | false => exact h
    | true =>
      have hok : ok = decide (err = .none) := by simpa [Status.legal] using h
      simp [Status.legal, Status.w1c, hok]

/-! ## The invariant over each kind of change -/

/-- The invariant speaks of storage, STATUS, the FSM and scratch only. -/
theorem Inv.of_eq {s t : State} (h : Inv s) (hm : t.mem = s.mem) (hst : t.status = s.status) (hf : t.fsm = s.fsm)
    (hsc : t.scratch = s.scratch) : Inv t := by
  constructor
  · rw [hm]; exact h.mem
  · rw [hst, hf]; exact h.busy
  · rw [hst]; exact h.status
  · rw [hf, hsc]; exact h.scratch

theorem isIdle_eq_of_op_eq {f g : Fsm} (h : f.op = g.op) : f.isIdle = g.isIdle := by
  rw [Bool.eq_iff_iff, isIdle_iff, isIdle_iff, ← op_none_iff, ← op_none_iff, h]

theorem Inv.inside {s t : State} (h : Inv s) (hs : s.fsm.isIdle = false) (ht : RunsOn s t) : Inv t := by
  have hidle : t.fsm.isIdle = s.fsm.isIdle := isIdle_eq_of_op_eq ht.op
  have hstatus : t.status = s.status := by rw [ht.frame]
  constructor
  · rw [ht.frame]; exact h.mem
  · rw [hstatus, hidle]; exact h.busy
  · rw [hstatus]; exact h.status
  · rw [hidle, hs]; simp

theorem Inv.completes {s t : State} (h : Inv s) (ht : Completes s t) : Inv t := by
  obtain ⟨c, hstatus, hfsm, hscratch, -⟩ := completes_fields ht
  constructor
  · exact completes_wf ht h.mem
  · rw [hstatus, hfsm]; rfl
  · rw [hstatus]; exact Status.legal_completed _ _
  · exact fun _ => hscratch

theorem Inv.turn {s t : State} (h : Inv s) (ht : TurnMoves s t) : Inv t := by
  cases ht with
  | waits => exact h
  | inside hs hu => exact h.inside hs hu
  | completes hu => exact h.completes hu

theorem isIdle_run (o : Op) : (Fsm.run o).isIdle = false := by
  cases o with
  | illegal => rfl
  | cmd i => cases i <;> rfl

theorem Inv.accept {s : State} (h : Inv s) (w : Word) : Inv (s.accept w) := by
  constructor
  · exact h.mem
  · simp [isIdle_run, Status.accepted]
  · exact Status.legal_accepted _
  · simp [isIdle_run]

theorem Inv.hostWrites {s t : State} (h : Inv s) (ht : HostWrites s t) : Inv t := by
  cases ht with
  | ignored => exact h
  | dropped _ => exact ⟨h.mem, h.busy, h.status, h.scratch⟩
  | ctrl w => exact h.of_eq rfl rfl rfl rfl
  | status w => exact ⟨h.mem, h.busy, Status.legal_w1c h.status w, h.scratch⟩
  | command w _ => exact h.accept w
  | operand m l b o e _ => exact h.of_eq rfl rfl rfl rfl
  | buffer a t _ hlo hhi => exact ⟨writeBytes_wf _ _ _ h.mem hlo hhi, h.busy, h.status, h.scratch⟩

theorem Inv.hostAccess {B : Backend} {x : Access} {s t : State} (h : Inv s) (ht : hostAccess B x s = .next t) :
    Inv t := by
  obtain ⟨-, r, d, rfl⟩ | ⟨-, u, hu, rfl⟩ := hostAccess_next B x s t ht
  · exact h.of_eq rfl rfl rfl rfl
  · exact (h.hostWrites hu).of_eq rfl rfl rfl rfl

theorem Inv.reset : Inv State.reset := ⟨reset_wf, rfl, rfl, fun _ => rfl⟩

/-- Settles O30, by the cases of `StepMoves`: the engine's turn, a host access, a poll, the reset event. -/
theorem everyStepKeepsTheInvariant : Obligations.EveryStepKeepsTheInvariant := by
  intro s t h ht
  cases step_moves ht with
  | turn q n r hu =>
    have h' : Inv { s with sched := q, grant := n, resp := r } := h.of_eq rfl rfl rfl rfl
    exact (h'.turn hu).of_eq rfl rfl rfl rfl
  | host x rest _ hx =>
    have h' : Inv { s with sched := rest } := h.of_eq rfl rfl rfl rfl
    exact h'.hostAccess hx
  | polled rest => exact h.of_eq rfl rfl rfl rfl
  | reset rest _ => exact Inv.reset.of_eq rfl rfl rfl rfl

end Sys2Proof.Machine
end

section
/-! What a running command reads and writes of the world around it: nothing. OVR, IE, the bus's answer, the
schedule and the grant pass through every engine step untouched, so a run can be cut at any step. -/

namespace Sys2Proof.Machine

/-! ## At most one request an engine step (spec/10_state.md R49) -/

theorem outWrites_trace (s : State) (l : List (Buf × Bytes)) : (s.outWrites l).trace = s.trace := by
  rw [outWrites_frame]

theorem moves_trace {B : Backend} {s t : State} (h : Moves B s t) :
    t.trace = s.trace ∨ ∃ r, t.trace = s.trace ++ [r] := by
  cases h with
  | go r f sc _ => exact .inr ⟨r, rfl⟩
  | done r l c _ =>
    rw [State.complete_trace, outWrites_trace]
    cases r with
    | none => exact .inl rfl
    | some r => exact .inr ⟨r, rfl⟩

theorem commandStep_trace (B : Backend) (i : Instr) (s : State) :
    (commandStep B i s).trace = s.trace ∨ ∃ r, (commandStep B i s).trace = s.trace ++ [r] := by
  by_cases h : s.fsm.op = some (.cmd i)
  · exact moves_trace (commandStep_moves B i s h)
  · exact .inl (by rw [commandStep_other B i s h])

/-- Settles O22: with one step granted the run is one `commandStep`, or none in IDLE. -/
theorem engineStepIssuesAtMostOneRequest : Obligations.EngineStepIssuesAtMostOneRequest := by
  intro i s t hg ht
  rw [exec_eq, runGranted, hg] at ht
  cases ht
  show (engineLoop _ 1 s).trace = s.trace ∨ ∃ r, (engineLoop _ 1 s).trace = s.trace ++ [r]
  cases h : s.fsm.isIdle with
  | true => exact .inl (by rw [engineLoop_idle _ _ _ h])
  | false =>
    rw [engineLoop_succ _ _ _ h]
    exact commandStep_trace _ i s

/-! ## What stands around a running command -/

/-- The fields of a state that no engine step reads or writes. -/
structure Outside where
  ovr : Bool
  ie : Bool
  resp : BusResp
  sched : List Event
  grant : Nat

/-- What stands around the command of a state. -/
def State.outside (s : State) : Outside :=
  { ovr := s.status.ovr, ie := s.ie, resp := s.resp, sched := s.sched, grant := s.grant }

/-- The same engine and command with other surroundings. -/
def State.withOutside (s : State) (o : Outside) : State :=
  { s with
    status := { s.status with ovr := o.ovr }, ie := o.ie, resp := o.resp, sched := o.sched, grant := o.grant }

section
variable (B : Backend) (s : State) (o : Outside)

@[simp] theorem State.withOutside_outside : s.withOutside s.outside = s := rfl
@[simp] theorem State.outside_withOutside : (s.withOutside o).outside = o := rfl

theorem State.withGrant_eq_withOutside (n : Nat) :
    s.withGrant n = s.withOutside { s.outside with grant := n } := rfl

@[simp] theorem State.withOutside_cfg : (s.withOutside o).cfg = s.cfg := rfl
@[simp] theorem State.withOutside_fsm : (s.withOutside o).fsm = s.fsm := rfl
@[simp] theorem State.withOutside_scratch : (s.withOutside o).scratch = s.scratch := rfl

@[simp] theorem State.ite_withOutside (c : Prop) [Decidable c] (t : State) :
    (if c then s else t).withOutside o = if c then s.withOutside o else t.withOutside o :=
  apply_ite (State.withOutside · o) c s t

/-! ## Every engine step commutes with a change of the surroundings -/

theorem mgfStep_withOutside (at_ : MgfPoint → Fsm) (finish : Bytes → State → State) (p : MgfPoint)
    (hf : ∀ t u, finish t (u.withOutside o) = (finish t u).withOutside o) :
    mgfStep B at_ finish p (s.withOutside o) = (mgfStep B at_ finish p s).withOutside o := by
  cases p with
  | final =>
    simp only [mgfStep, State.ite_withOutside, ← hf]
    rfl
  | init => rfl
  | absorb => rfl
  | absorbInt => rfl

theorem hashStep_withOutside (at_ : HashPoint → Fsm) (t : Bytes) (finish : Bytes → State → State) (p : HashPoint)
    (hf : ∀ t u, finish t (u.withOutside o) = (finish t u).withOutside o) :
    hashStep B at_ t finish p (s.withOutside o) = (hashStep B at_ t finish p s).withOutside o := by
  cases p with
  | absorb => rfl
  | final =>
    simp only [hashStep, ← hf]
    rfl

theorem expandStep_withOutside : expandStep B (s.withOutside o) = (expandStep B s).withOutside o := by
  cases hf : s.fsm
  case mgfExpand pt =>
    cases pt <;> simp only [expandStep, State.withOutside_fsm, hf, State.ite_withOutside]
    case start => rfl
    case mgf p => exact mgfStep_withOutside B s o _ _ p fun _ _ => rfl
  all_goals simp only [expandStep, State.withOutside_fsm, hf]

theorem encodeStep_withOutside : encodeStep B (s.withOutside o) = (encodeStep B s).withOutside o := by
  cases hf : s.fsm
  case oaepEncode pt =>
    cases pt <;> simp only [encodeStep, State.withOutside_fsm, hf, State.ite_withOutside]
    case start => rfl
    case label p => exact hashStep_withOutside B s o _ _ _ p fun _ _ => rfl
    case seed => rfl
    case dbMask p => exact mgfStep_withOutside B s o _ _ p fun _ _ => rfl
    case seedMask p => exact mgfStep_withOutside B s o _ _ p fun _ _ => rfl
  all_goals simp only [encodeStep, State.withOutside_fsm, hf]

theorem decodeFinish_withOutside (mask : Bytes) :
    decodeFinish mask (s.withOutside o) = (decodeFinish mask s).withOutside o := by
  simp only [decodeFinish, State.withOutside_cfg, State.withOutside_scratch]
  split <;> rfl

theorem decodeStep_withOutside : decodeStep B (s.withOutside o) = (decodeStep B s).withOutside o := by
  cases hf : s.fsm
  case oaepDecode pt =>
    cases pt <;> simp only [decodeStep, State.withOutside_fsm, hf, State.ite_withOutside]
    case start => rfl
    case label p => exact hashStep_withOutside B s o _ _ _ p fun _ _ => rfl
    case seedMask p => exact mgfStep_withOutside B s o _ _ p fun _ _ => rfl
    case dbMask p => exact mgfStep_withOutside B s o _ _ p fun t u => decodeFinish_withOutside u o t
  all_goals simp only [decodeStep, State.withOutside_fsm, hf]

theorem encryptStep_withOutside : encryptStep B (s.withOutside o) = (encryptStep B s).withOutside o := by
  cases hf : s.fsm
  case rsaEncrypt pt =>
    cases pt <;> simp only [encryptStep, State.withOutside_fsm, hf, State.ite_withOutside]
    all_goals rfl
  all_goals simp only [encryptStep, State.withOutside_fsm, hf]

theorem decryptStep_withOutside : decryptStep B (s.withOutside o) = (decryptStep B s).withOutside o := by
  cases hf : s.fsm
  case rsaDecrypt pt =>
    cases pt <;> simp only [decryptStep, State.withOutside_fsm, hf, State.ite_withOutside]
    all_goals rfl
  all_goals simp only [decryptStep, State.withOutside_fsm, hf]

theorem exponentFound_withOutside (w : Side) (d : Nat) :
    exponentFound w d (s.withOutside o) = (exponentFound w d s).withOutside o := by
  cases w <;> rfl

theorem serializeField_withOutside (k : KeyField) (t : Bytes) :
    serializeField k t (s.withOutside o) = (serializeField k t s).withOutside o := by
  cases k <;> rfl

theorem generateStep_withOutside : generateStep B (s.withOutside o) = (generateStep B s).withOutside o := by
  cases hf : s.fsm
  case keyGenerate pt =>
    cases pt <;> simp only [generateStep, State.withOutside_fsm, hf, State.ite_withOutside,
      ← exponentFound_withOutside, ← serializeField_withOutside]
    case coFactor w => cases w <;> rfl
    all_goals rfl
  all_goals simp only [generateStep, State.withOutside_fsm, hf]

theorem require_withOutside (c : Bool) (pt : ValidatePoint) :
    require c pt (s.withOutside o) = (require c pt s).withOutside o := by
  cases c <;> rfl

theorem validateStep_withOutside : validateStep B (s.withOutside o) = (validateStep B s).withOutside o := by
  cases hf : s.fsm
  case keyValidate pt =>
    cases pt <;> simp only [validateStep, State.withOutside_fsm, hf, State.ite_withOutside,
      ← require_withOutside]
    all_goals rfl
  all_goals simp only [validateStep, State.withOutside_fsm, hf]

theorem killStep_withOutside : killStep (s.withOutside o) = (killStep s).withOutside o := by
  cases hf : s.fsm <;> simp only [killStep, State.withOutside_fsm, hf]
  rfl

theorem commandStep_withOutside (i : Instr) :
    commandStep B i (s.withOutside o) = (commandStep B i s).withOutside o := by
  cases i with
  | mgfExpand => exact expandStep_withOutside B s o
  | oaepEncode => exact encodeStep_withOutside B s o
  | oaepDecode => exact decodeStep_withOutside B s o
  | rsaEncrypt => exact encryptStep_withOutside B s o
  | rsaDecrypt => exact decryptStep_withOutside B s o
  | keyGenerate => exact generateStep_withOutside B s o
  | keyValidate => exact validateStep_withOutside B s o
  | keyKill => exact killStep_withOutside s o

end

/-! ## A run commutes with a change of the surroundings -/

theorem engineLoop_withOutside (B : Backend) (i : Instr) (n : Nat) (s : State) (o : Outside) :
    engineLoop (commandStep B i) n (s.withOutside o) = (engineLoop (commandStep B i) n s).withOutside o :=
  engineLoop_map (commandStep B i) (State.withOutside · o) (fun _ => True) (fun _ => rfl)
    (fun _ _ _ => trivial) (fun s _ _ => commandStep_withOutside B s o i) n s trivial

/-- A run leaves its surroundings as they are. -/
theorem engineLoop_outside (B : Backend) (i : Instr) (n : Nat) (s : State) :
    (engineLoop (commandStep B i) n s).outside = s.outside := by
  have h := engineLoop_withOutside B i n s s.outside
  rw [State.withOutside_outside] at h
  rw [h, State.outside_withOutside]

theorem engineLoop_withGrant (B : Backend) (i : Instr) (n k : Nat) (s : State) :
    engineLoop (commandStep B i) n (s.withGrant k) = (engineLoop (commandStep B i) n s).withGrant k := by
  rw [State.withGrant_eq_withOutside, engineLoop_withOutside, State.withGrant_eq_withOutside, engineLoop_outside]

/-- What a command does with `n` granted steps. -/
theorem exec_withGrant (i : Instr) (s : State) (n : Nat) :
    exec i (s.withGrant n) = .next ((engineLoop (commandStep Config.backend i) n s).withGrant 0) := by
  rw [exec_eq, runGranted, State.withGrant_grant, engineLoop_withGrant]
  rfl

/-- Settles O23: both runs are the loop of `m + n` steps, cut after `m` in the first (`engineLoop_add`). -/
theorem engineStepsCompose : Obligations.EngineStepsCompose := by
  intro i s m n
  refine ⟨_, _, exec_withGrant i s m, exec_withGrant i _ n, ?_⟩
  rw [exec_withGrant, engineLoop_add, engineLoop_withGrant]
  rfl

/-- Settles O24: the loop commutes with `State.withOutside`, which makes all four changes. -/
theorem runningCommandIgnoresOverrunAndInterrupt : Obligations.RunningCommandIgnoresOverrunAndInterrupt := by
  intro i s t ovr ie r q ht
  rw [exec_eq] at ht ⊢
  cases ht
  have h := engineLoop_withOutside Config.backend i s.grant s
    { ovr := ovr, ie := ie, resp := r, sched := q, grant := s.grant }
  exact congrArg (fun u => Host.Outcome.next (u.withGrant 0)) h

end Sys2Proof.Machine
end

section
/-! The host's accesses to the control registers, the acceptance of a command word and what the engine then runs:
one equation per access, from which the register statements follow. -/

namespace Sys2Proof.Machine

/-! ## The address of a control register (spec/10_state.md R31) -/

@[simp] theorem regAt_regOffset (r : Reg) : regAt (regOffset r) = some r := by
  cases r <;> rfl

theorem eq_regOffset_of_regAt {a : Addr} {r : Reg} (h : regAt a = some r) : a = regOffset r := by
  unfold regAt at h
  split at h <;> cases h <;> rfl

theorem aligned_of_regAt {a : Addr} {r : Reg} (h : regAt a = some r) : a.toNat % 4 = 0 :=
  ((regAt_isSome a).1 (by rw [h]; rfl)).1

/-! ## A host access to a control register -/

theorem hostAccess_readReg (B : Backend) (s : State) {a : Addr} {r : Reg} (h : regAt a = some r) :
    hostAccess B (.read32 a) s = .next { s with resp := .data32 (s.readReg r) } := by
  simp [hostAccess, h, aligned_of_regAt h]

theorem hostAccess_writeReg (B : Backend) (s : State) {a : Addr} {r : Reg} (w : Word) (h : regAt a = some r) :
    hostAccess B (.write32 a w) s = .next (s.writeReg r w).ack := by
  simp [hostAccess, h, aligned_of_regAt h]

theorem step_readReg {s : State} {rest : List Event} (r : Reg)
    (h : s.sched = .host (.read32 (regOffset r)) :: rest) :
    step s = .next { s with sched := rest, resp := .data32 (s.readReg r) } := by
  rw [step_host h, hostAccess_readReg _ _ (regAt_regOffset r)]
  cases r <;> rfl

theorem step_writeReg {s : State} {w : Word} {rest : List Event} (r : Reg)
    (h : s.sched = .host (.write32 (regOffset r) w) :: rest) :
    step s = .next (({ s with sched := rest } : State).writeReg r w).ack := by
  rw [step_host h, hostAccess_writeReg _ _ w (regAt_regOffset r)]

theorem State.ifIdle_idle {s : State} (h : s.status.busy = false) (s' : State) : s.ifIdle s' = s' := by
  simp [State.ifIdle, h]

theorem State.writeCmd_idle {s : State} (h : s.status.busy = false) (w : Word) : s.writeCmd w = s.accept w := by
  simp [State.writeCmd, h]

theorem State.writeCmd_busy {s : State} (h : s.status.busy = true) (w : Word) :
    s.writeCmd w = { s with status := s.status.overrun } := by
  simp [State.writeCmd, h]

/-! ## The FSM under a host access (spec/10_state.md R48) -/

theorem State.ifIdle_fsm {s s' : State} (h : s'.fsm = s.fsm) : (s.ifIdle s').fsm = s.fsm := by
  unfold State.ifIdle
  split
  · rfl
  · exact h

theorem State.writeBuf_fsm (s : State) (a : Addr) (t : Bytes) : (s.writeBuf a t).fsm = s.fsm :=
  State.ifIdle_fsm rfl

/-- No register but CMD touches the FSM. -/
theorem State.writeReg_fsm (s : State) {r : Reg} (w : Word) (h : r ≠ .cmd) : (s.writeReg r w).fsm = s.fsm := by
  cases r with
  | cmd => exact absurd rfl h
  | id | cfgRfs | cfgHlen | ctrl | status => rfl
  | msgLen | lblLen | blkLen | outLen | e => exact State.ifIdle_fsm rfl

theorem State.writeCmd_fsm (s : State) (w : Word) :
    (s.writeCmd w).fsm = s.fsm ∨ s.status.busy = false ∧ (s.writeCmd w).fsm = Fsm.run (opOfWord w) := by
  cases h : s.status.busy with
  | true => exact .inl (by rw [State.writeCmd_busy h])
  | false => exact .inr ⟨rfl, by rw [State.writeCmd_idle h, State.accept_fsm]⟩

/-- A host access moves the FSM only by a 32-bit write of CMD that is accepted. -/
theorem hostAccess_fsm {B : Backend} {x : Access} {s t : State} (h : hostAccess B x s = .next t) :
    t.fsm = s.fsm ∨
      ∃ w, x = .write32 (regOffset .cmd) w ∧ s.status.busy = false ∧ t.fsm = Fsm.run (opOfWord w) := by
  obtain ⟨-, r, d, rfl⟩ | ⟨hw, -⟩ := hostAccess_next B x s t h
  · exact .inl rfl
  · cases x with
    | read8 a => cases hw
    | read32 a => cases hw
    | write8 a v =>
      simp only [hostAccess] at h
      split at h
      · cases h
        exact .inl (s.writeBuf_fsm a [v])
      · cases h
    | write32 a w =>
      simp only [hostAccess] at h
      split at h
      · cases h
      · split at h
        · next r hr =>
          cases h
          by_cases hc : r = .cmd
          · subst hc
            rw [eq_regOffset_of_regAt hr]
            exact (s.writeCmd_fsm w).imp_right fun ⟨hb, hf⟩ => ⟨w, rfl, hb, hf⟩
          · exact .inl (s.writeReg_fsm w hc)
        · cases h
          exact .inl (s.writeBuf_fsm a _)
        · cases h

/-- An engine's turn that changes which command runs ends it by a completion. -/
theorem turn_ends_command {s t : State} (h : TurnMoves s t) (hop : t.fsm.op ≠ s.fsm.op) :
    t.fsm = .idle ∧ t.status.done = true := by
  cases h with
  | waits => exact absurd rfl hop
  | inside _ hu => exact absurd hu.op hop
  | completes hu =>
    obtain ⟨c, hstatus, hfsm, -, -⟩ := completes_fields hu
    exact ⟨hfsm, by rw [hstatus]; rfl⟩

/-- Under the invariant an engine with BUSY = 0 is in IDLE (10_state.md R38). -/
theorem Inv.idle_of_not_busy {s : State} (h : Inv s) (hb : s.status.busy = false) : s.fsm = .idle := by
  have hidle := h.busy
  rw [hb] at hidle
  exact (isIdle_iff _).1 (by simpa using hidle)

/-- Settles O31, by the cases of `StepMoves`: only an accepted CMD write starts a command, only a completion or the
reset event ends one. -/
theorem onlyAcceptanceCompletionAndResetMoveTheFsm : Obligations.OnlyAcceptanceCompletionAndResetMoveTheFsm := by
  intro s t h ht hop
  have running : t.fsm = .idle → s.fsm ≠ .idle := fun htf hsf => hop (by rw [htf, hsf])
  cases step_moves ht with
  | turn q n r hu =>
    obtain ⟨hfsm, hdone⟩ := turn_ends_command hu hop
    exact .inr ⟨running hfsm, hfsm, .inl hdone⟩
  | host x rest hs hx =>
    obtain hf | ⟨w, rfl, hb, hf⟩ := hostAccess_fsm hx
    · exact absurd (congrArg Fsm.op hf) hop
    · exact .inl ⟨h.idle_of_not_busy hb, w, rest, hs, hf⟩
  | polled rest => exact absurd rfl hop
  | reset rest hs => exact .inr ⟨running rfl, rfl, .inr ⟨rest, hs⟩⟩

/-! ## Reset (spec/10_state.md R54) -/

/-- Settles O3: storage lists no byte at reset, and every other value is the record's own. -/
theorem resetStateHoldsSpecValues : Obligations.ResetStateHoldsSpecValues :=
  ⟨rfl, rfl, rfl, rfl, rfl, rfl, rfl, rfl, rfl, rfl, fun _ _ => rfl, rfl, rfl, rfl⟩

/-- Settles O29: `Inv.reset`, and the key FSM's invariant asks nothing in IDLE. -/
theorem invariantHoldsAtReset : Obligations.InvariantHoldsAtReset := ⟨Inv.reset, trivial⟩

/-! ## Accepting and running a command (spec/10_state.md R36, R48, R49) -/

@[simp] theorem op_run (o : Op) : (Fsm.run o).op = some o := by
  cases o with
  | illegal => rfl
  | cmd i => cases i <;> rfl

theorem State.accept_fsm_of_decodeWord (s : State) {w : Word} {i : Instr} (h : decodeWord w = .ok i) :
    (s.accept w).fsm = Fsm.run (.cmd i) := by
  rw [State.accept_fsm, opOfWord, h]

theorem State.accept_op_of_decodeWord (s : State) {w : Word} {i : Instr} (h : decodeWord w = .ok i) :
    (s.accept w).fsm.op = some (.cmd i) := by
  rw [s.accept_fsm_of_decodeWord h, op_run]

/-- An ILLEGAL word completes in the first step that the schedule grants. -/
theorem engineTurn_illegal_succ {s : State} {n : Nat} (hf : s.fsm = .illegal) (hg : s.grant = n + 1) :
    engineTurn s = .next ((s.complete .illegalCmd).withGrant 0) := by
  rw [engineTurn_illegal hf, runGranted_eq illegalStep (hg ▸ engineLoop_illegal_succ hf n)]

theorem State.withFetchWord_toNat (s : State) (w : Word) :
    s.withFetchWord 32 w.toNat = { s.accept w with sched := .engine fetchGrant :: s.sched } := by
  have hw : BitVec.ofNat 32 (w.toNat % 2 ^ 32) = w := by
    rw [Nat.mod_eq_of_lt w.isLt, BitVec.ofNat_toNat, BitVec.setWidth_eq]
  rw [State.withFetchWord, hw]

/-- Settles O6: a write of CMD by `writeCmd_idle` and `writeCmd_busy`, the ILLEGAL word by its one engine step, the
read by `step_readReg`. -/
theorem cmdRegisterAcceptsOrDrops : Obligations.CmdRegisterAcceptsOrDrops := by
  intro s w n rest
  refine ⟨fun hs hb => ?_, fun hs hb => ?_, fun hs hf => ?_, step_readReg .cmd⟩
  · have hb' : ({ s with sched := rest } : State).status.busy = false := hb
    rw [step_writeReg .cmd hs, State.writeReg, State.writeCmd_idle hb']
    rfl
  · have hb' : ({ s with sched := rest } : State).status.busy = true := hb
    rw [step_writeReg .cmd hs, State.writeReg, State.writeCmd_busy hb']
    rfl
  · exact ⟨_, (step_engine hs).trans (engineTurn_illegal_succ hf rfl), rfl, rfl⟩

/-- Settles O7: the engine's turn dispatches on the `op` that acceptance put in the FSM. -/
theorem stepRunsDecodedCommand : Obligations.StepRunsDecodedCommand := by
  refine ⟨fun s i n rest hs hop => ?_, fun s w i h => ?_, fun s w i h => ?_, fun s i hs hop => ?_, fun s hs hf => ?_⟩
  · exact (step_engine hs).trans (engineTurn_cmd hop)
  · exact ⟨s.accept_op_of_decodeWord h, s.accept_fsm_of_decodeWord h⟩
  · rw [State.withFetchWord_toNat, step_engine rfl]
    exact engineTurn_cmd (s.accept_op_of_decodeWord h)
  · exact (step_empty hs).trans (engineTurn_cmd hop)
  · exact (step_empty hs).trans (engineTurn_illegal_succ (s := s.withGrant 1) hf rfl)

/-- Settles O21: `engineTurn_idle` on the two schedules that give the engine its turn. -/
theorem idleEngineWaits : Obligations.IdleEngineWaits := by
  intro s n rest hf
  exact ⟨fun hs => (step_engine hs).trans (engineTurn_idle hf),
    fun hs => (step_empty hs).trans (engineTurn_idle hf)⟩

/-! ## Reading the control registers -/

theorem State.ctrlWord_eq (s : State) : s.ctrlWord = if s.ie then 1#32 else 0#32 := by
  unfold State.ctrlWord
  cases s.ie <;> rfl

/-- STATUS bit by bit, from BUSY in bit 0 to ERR from bit 4 on (10_state.md R37). -/
theorem Status.word_getLsbD (t : Status) (i : Nat) :
    t.word.getLsbD i = [t.busy, t.done, t.ok, t.ovr].getD i (t.err.bits.getLsbD (i - 4)) := by
  change BitVec.getLsbD (w := 24 + 4 + 1 + 1 + 1 + 1) t.word i = _
  simp only [Status.word, BitVec.getLsbD_append]
  match i with
  | 0 | 1 | 2 | 3 => simp
  | i + 4 => simpa using fun h => BitVec.lt_of_getLsbD h

theorem Status.word_err (t : Status) : t.word.extractLsb' 4 4 = t.err.bits := by
  apply BitVec.eq_of_getLsbD_eq
  intro i hi
  rw [BitVec.getLsbD_extractLsb', Status.word_getLsbD, Nat.add_comm]
  simp [hi]

theorem Status.word_reserved (t : Status) : t.word.extractLsb' 8 24 = 0#24 := by
  apply BitVec.eq_of_getLsbD_eq
  intro i hi
  rw [BitVec.getLsbD_extractLsb', Status.word_getLsbD, Nat.add_comm]
  simp

/-- Settles O10: every register's read by `step_readReg`, STATUS by the bits of `Status.word`. -/
theorem controlRegisterReads : Obligations.ControlRegisterReads := by
  intro s rest
  refine ⟨fun a v hav hs => ?_, fun hs => ⟨s.status.word, step_readReg .status hs, s.status.word_getLsbD 0,
    s.status.word_getLsbD 1, s.status.word_getLsbD 2, s.status.word_getLsbD 3, s.status.word_err,
    s.status.word_reserved⟩⟩
  have read : ∀ r : Reg, a = regOffset r → s.readReg r = v →
      step s = .next { s with sched := rest, resp := .data32 v } := by
    rintro r rfl rfl
    exact step_readReg r hs
  simp only [List.mem_cons, Prod.mk.injEq, List.not_mem_nil, or_false] at hav
  obtain ⟨ha, hv⟩ | ⟨ha, hv⟩ | ⟨ha, hv⟩ | ⟨ha, hv⟩ | ⟨ha, hv⟩ | ⟨ha, hv⟩ | ⟨ha, hv⟩ | ⟨ha, hv⟩ | ⟨ha, hv⟩ |
    ⟨ha, hv⟩ := hav
  · exact read .id ha hv.symm
  · exact read .cfgRfs ha hv.symm
  · exact read .cfgHlen ha hv.symm
  · exact read .ctrl ha (s.ctrlWord_eq.trans hv.symm)
  · exact read .cmd ha hv.symm
  · exact read .msgLen ha hv.symm
  · exact read .lblLen ha hv.symm
  · exact read .blkLen ha hv.symm
  · exact read .outLen ha hv.symm
  · exact read .e ha hv.symm

/-! ## Writing the control registers -/

/-- A write of 1 clears a flag, a write of 0 leaves it. -/
theorem and_not_eq_ite (b c : Bool) : (b && !c) = if c then false else b := by
  cases c <;> simp

/-- Settles O13: the STATUS write is `Status.w1c`, busy or idle. -/
theorem statusWriteIsWriteOneToClear : Obligations.StatusWriteIsWriteOneToClear := by
  intro s w rest hs
  rw [step_writeReg .status hs, ← and_not_eq_ite, ← and_not_eq_ite]
  rfl

/-- Settles O14: the CTRL write stores IE, and IRQ is DONE and IE. -/
theorem ctrlWriteStoresInterruptEnable : Obligations.CtrlWriteStoresInterruptEnable := by
  intro s w rest hs
  have hstep : step s = .next { s with sched := rest, resp := .ack, ie := w.getLsbD 0 } := step_writeReg .ctrl hs
  refine ⟨hstep, fun t ht => ?_⟩
  rw [hstep] at ht
  cases ht
  rfl

/-- Settles O15: in an idle engine `ifIdle` stores. -/
theorem operandRegisterWriteStoresAllBits : Obligations.OperandRegisterWriteStoresAllBits := by
  intro s w rest hb
  have stored : ∀ {r s'}, s.sched = .host (.write32 (regOffset r) w) :: rest →
      ({ s with sched := rest } : State).writeReg r w = ({ s with sched := rest } : State).ifIdle s' →
      step s = .next s'.ack := by
    intro r s' hs hr
    rw [step_writeReg r hs, hr, State.ifIdle_idle (s := { s with sched := rest }) hb]
  exact ⟨(stored (r := .msgLen) · rfl), (stored (r := .lblLen) · rfl), (stored (r := .blkLen) · rfl),
    (stored (r := .outLen) · rfl), (stored (r := .e) · rfl)⟩

/-- Settles O16: `writeReg` of a hardwired register is the state itself, whether BUSY is 1 or 0. -/
theorem hardwiredRegisterWriteIsIgnored : Obligations.HardwiredRegisterWriteIsIgnored := by
  intro s a w rest ha hs
  simp only [List.mem_cons, List.not_mem_nil, or_false] at ha
  obtain rfl | rfl | rfl := ha
  · exact step_writeReg .id hs
  · exact step_writeReg .cfgRfs hs
  · exact step_writeReg .cfgHlen hs

end Sys2Proof.Machine
end

section
/-! The host's accesses to the buffers and key regions, the bus error, the writes that a busy engine drops, and the
engine's own output: one equation per access, from which the window statements follow. -/

namespace Sys2Proof.Machine

/-! ## OutWrite and the running command (spec/20_memory.md R90, R100) -/

/-- Settles O28: storage by `readByte_outWrite`, the rest by the fields that OutWrite names. -/
theorem outWriteStoresAndZeroFills : Obligations.OutWriteStoresAndZeroFills := by
  intro s b t ht
  refine ⟨fun k hk => ?_, fun a ha => ?_, rfl, rfl, rfl⟩
  · rw [State.bufByte, readByte_outWrite s b t ht, if_pos ⟨Nat.le_add_right _ _, Nat.add_lt_add_left hk _⟩,
      Nat.add_sub_cancel_left]
  · rw [readByte_outWrite s b t ht]
    exact if_neg fun ⟨hlo, hhi⟩ => ha.elim (Nat.not_lt.2 hlo) (Nat.not_le.2 hhi)

/-- Settles O25: a run that has not completed is inside the command (`exec_run`), and `RunsOn` frames it. -/
theorem outputsChangeOnlyAtCompletion : Obligations.OutputsChangeOnlyAtCompletion := by
  intro i s t hop ht hrun
  obtain ⟨u, hu | hu, rfl⟩ := exec_run i s t hop ht
  · have hopu : u.fsm.op = some (.cmd i) := hu.op.trans hop
    rw [hu.frame]
    exact ⟨hopu, rfl, rfl, rfl, rfl, rfl, rfl, rfl, rfl, fun _ => rfl⟩
  · obtain ⟨_, -, hidle, -⟩ := completes_fields hu
    rw [show ({ u with grant := 0 } : State).fsm = .idle from hidle] at hrun
    cases hrun

/-! ## A host access to a buffer or key region -/

theorem exists_bufAt {a : Addr} (h : 0x400 ≤ a.toNat ∧ a.toNat < 0x2800) : ∃ b, bufAt a = some b :=
  Option.isSome_iff_exists.1 ((bufAt_isSome a).2 h)

section
variable (B : Backend) (s : State) {a : Addr}

theorem hostAccess_readBuf8 (h : 0x400 ≤ a.toNat ∧ a.toNat < 0x2800) :
    hostAccess B (.read8 a) s = .next (s.readBuf8 B a) := by
  obtain ⟨b, hb⟩ := exists_bufAt h
  simp [hostAccess, hb]

theorem hostAccess_writeBuf8 (h : 0x400 ≤ a.toNat ∧ a.toNat < 0x2800) (v : Byte) :
    hostAccess B (.write8 a v) s = .next (s.writeBuf a [v]).ack := by
  obtain ⟨b, hb⟩ := exists_bufAt h
  simp [hostAccess, hb]

theorem hostAccess_readBuf32 (h : 0x400 ≤ a.toNat ∧ a.toNat < 0x2800) (h4 : a.toNat % 4 = 0) :
    hostAccess B (.read32 a) s = .next (s.readBuf32 B a) := by
  obtain ⟨b, hb⟩ := exists_bufAt h
  simp [hostAccess, hb, regAt_eq_none_of_buf a h.1, h4]

theorem hostAccess_writeBuf32 (h : 0x400 ≤ a.toNat ∧ a.toNat < 0x2800) (h4 : a.toNat % 4 = 0) (w : Word) :
    hostAccess B (.write32 a w) s = .next (s.writeBuf a (bytesOfWord w)).ack := by
  obtain ⟨b, hb⟩ := exists_bufAt h
  simp [hostAccess, hb, regAt_eq_none_of_buf a h.1, h4]

end

/-! ## The bus error (spec/20_memory.md R82, R83, R86, R87) -/

/-- A well-formed access is a 32-bit access to a control register, or an access to a buffer that is aligned where it
is wide. -/
theorem wellFormed_cases {x : Access} (h : x.wellFormed = true) :
    (x.wide = true ∧ ∃ r, regAt x.addr = some r) ∨
    ((0x400 ≤ x.addr.toNat ∧ x.addr.toNat < 0x2800) ∧ (x.wide = true → x.addr.toNat % 4 = 0)) := by
  rw [wellFormed_iff] at h
  split at h
  · next hwide =>
    obtain ⟨h4, hreg | hbuf⟩ := h
    · exact .inl ⟨hwide, Option.isSome_iff_exists.1 ((regAt_isSome _).2 ⟨h4, hreg⟩)⟩
    · exact .inr ⟨hbuf, fun _ => h4⟩
  · next hnarrow => exact .inr ⟨h, fun hwide => absurd hwide hnarrow⟩

theorem hostAccess_answers (B : Backend) (s : State) {x : Access} (h : x.wellFormed = true) :
    ∃ t, hostAccess B x s = .next t := by
  obtain ⟨hwide, r, hr⟩ | ⟨hbuf, h4⟩ := wellFormed_cases h
  · cases x with
    | read8 a => cases hwide
    | read32 a => exact ⟨_, hostAccess_readReg B s hr⟩
    | write8 a v => cases hwide
    | write32 a w => exact ⟨_, hostAccess_writeReg B s w hr⟩
  · cases x with
    | read8 a => exact ⟨_, hostAccess_readBuf8 B s hbuf⟩
    | read32 a => exact ⟨_, hostAccess_readBuf32 B s hbuf (h4 rfl)⟩
    | write8 a v => exact ⟨_, hostAccess_writeBuf8 B s hbuf v⟩
    | write32 a w => exact ⟨_, hostAccess_writeBuf32 B s hbuf (h4 rfl) w⟩

theorem hostAccess_busError (B : Backend) (s : State) {x : Access} (h : ¬ x.wellFormed = true) :
    hostAccess B x s = .fault (.busError x) := by
  rw [wellFormed_iff] at h
  have narrow : x.wide = false → bufAt x.addr = none := fun hw => bufAt_eq_none _ (by simpa [hw] using h)
  have wide : x.wide = true → x.addr.toNat % 4 = 0 → regAt x.addr = none ∧ bufAt x.addr = none := by
    intro hw h4
    rw [if_pos hw] at h
    exact ⟨regAt_eq_none _ (by omega), bufAt_eq_none _ (by omega)⟩
  cases x with
  | read8 a | write8 a _ =>
    have hb : bufAt a = none := narrow rfl
    simp only [hostAccess, hb]
  | read32 a | write32 a _ =>
    simp only [hostAccess]
    split
    · rfl
    · next h4 =>
      obtain ⟨hr, hb⟩ : regAt a = none ∧ bufAt a = none := wide rfl (not_not.1 h4)
      simp only [hr, hb]

/-- The accesses that get a bus error, as R82 and R87 list them, are the ill-formed ones. -/
theorem not_wellFormed_iff (x : Access) : ¬ x.wellFormed = true ↔
    (x.wide = true ∧ x.addr.toNat % 4 ≠ 0) ∨ (x.wide = false ∧ x.addr.toNat < 0x2C) ∨
      (0x2C ≤ x.addr.toNat ∧ x.addr.toNat < 0x400) ∨ 0x2800 ≤ x.addr.toNat := by
  rw [wellFormed_iff]
  cases x.wide with
  | true => simp; omega
  | false => simp; omega

/-- Settles O9: an access is answered exactly when it is well formed, and `not_wellFormed_iff` lists the others. -/
theorem busErrorExactlyOnBadAccess : Obligations.BusErrorExactlyOnBadAccess := by
  intro s x rest hs
  rw [step_host hs]
  exact ⟨fun hbad => hostAccess_busError _ _ ((not_wellFormed_iff x).2 hbad),
    fun hgood => hostAccess_answers _ _ (not_not.1 (mt (not_wellFormed_iff x).1 hgood))⟩

/-! ## Reads (spec/20_memory.md R88) -/

/-- Settles O12: `hostAccess_next` gives a read the bus's answer and the draw counter, and nothing else. -/
theorem hostReadHasNoSideEffect : Obligations.HostReadHasNoSideEffect := by
  intro s t x rest hs hread ht
  rw [step_host hs] at ht
  obtain ⟨-, r, d, rfl⟩ | ⟨hwrite, -⟩ := hostAccess_next _ _ _ _ ht
  · rfl
  · rw [hread] at hwrite
    cases hwrite

/-! ## Writes that a busy engine drops (spec/20_memory.md R91, spec/60_exceptions.md R359) -/

theorem Status.overrun_of_busy {t : Status} (h : t.busy = true) :
    t.overrun = { busy := true, done := t.done, ok := t.ok, ovr := true, err := t.err } := by
  rw [Status.overrun, h]

theorem State.ifIdle_busy {s : State} (h : s.status.busy = true) (s' : State) :
    s.ifIdle s' = { s with status := s.status.overrun } := by
  simp [State.ifIdle, h]

theorem State.writeReg_busy {s : State} (h : s.status.busy = true) {r : Reg}
    (hr : r ∉ [.id, .cfgRfs, .cfgHlen, .ctrl, .status]) (w : Word) :
    s.writeReg r w = { s with status := s.status.overrun } := by
  cases r with
  | id | cfgRfs | cfgHlen | ctrl | status => exact absurd (by decide) hr
  | cmd => exact State.writeCmd_busy h w
  | msgLen | lblLen | blkLen | outLen | e => exact State.ifIdle_busy h _

theorem hostAccess_dropped (B : Backend) {s : State} {x : Access} (hb : s.status.busy = true)
    (hw : x.isWrite = true) (hwf : x.wellFormed = true)
    (hreg : ∀ r, x.wide = true → regAt x.addr = some r → r ∉ [.id, .cfgRfs, .cfgHlen, .ctrl, .status]) :
    hostAccess B x s = .next ({ s with status := s.status.overrun } : State).ack := by
  obtain ⟨hwide, r, hr⟩ | ⟨hbuf, h4⟩ := wellFormed_cases hwf
  · cases x with
    | read8 a | read32 a => cases hw
    | write8 a v => cases hwide
    | write32 a w => rw [hostAccess_writeReg B s (a := a) w hr, State.writeReg_busy hb (hreg r hwide hr)]
  · cases x with
    | read8 a | read32 a => cases hw
    | write8 a v => rw [hostAccess_writeBuf8 B s (a := a) hbuf, State.writeBuf, State.ifIdle_busy hb]
    | write32 a w => rw [hostAccess_writeBuf32 B s (a := a) hbuf (h4 rfl), State.writeBuf, State.ifIdle_busy hb]

/-- Settles O18: the five excluded addresses are those of the registers that a busy engine still writes or ignores;
every other write is dropped (`hostAccess_dropped`). -/
theorem busyWritesAreDroppedWithOverrun : Obligations.BusyWritesAreDroppedWithOverrun := by
  intro s x rest hb hs hw hwf haddr
  have hreg : ∀ r, x.wide = true → regAt x.addr = some r → r ∉ [.id, .cfgRfs, .cfgHlen, .ctrl, .status] := by
    intro r hwide hr hmem
    refine haddr hwide ?_
    rw [eq_regOffset_of_regAt hr]
    exact List.mem_map_of_mem (f := regOffset) hmem
  have hb' : ({ s with sched := rest } : State).status.busy = true := hb
  rw [step_host hs, hostAccess_dropped _ hb' hw hwf hreg, Status.overrun_of_busy hb']
  rfl

/-! ## Buffer accesses of an idle engine (spec/20_memory.md R83, R84) -/

theorem toNat_append_eq_add {m n : Nat} (x : BitVec m) (y : BitVec n) :
    (x ++ y).toNat = x.toNat * 2 ^ n + y.toNat := by
  rw [BitVec.toNat_append, ← Nat.shiftLeft_add_eq_or_of_lt y.isLt, Nat.shiftLeft_eq]

theorem wordOfBytes_toNat (b0 b1 b2 b3 : Byte) :
    (wordOfBytes b0 b1 b2 b3).toNat = b0.toNat * 2 ^ 24 + b1.toNat * 2 ^ 16 + b2.toNat * 2 ^ 8 + b3.toNat := by
  change (b0 ++ b1 ++ b2 ++ b3).toNat = _
  simp only [toNat_append_eq_add]
  omega

theorem State.readBuf8_idle (B : Backend) {s : State} (h : s.status.busy = false) (a : Addr) :
    s.readBuf8 B a = { s with resp := .data8 (readByte s.mem a.toNat) } := by
  simp [State.readBuf8, h]

theorem State.readBuf32_idle (B : Backend) {s : State} (h : s.status.busy = false) (a : Addr) :
    s.readBuf32 B a =
      { s with resp := .data32 (wordOfBytes (readByte s.mem a.toNat) (readByte s.mem (a.toNat + 1))
                 (readByte s.mem (a.toNat + 2)) (readByte s.mem (a.toNat + 3))) } := by
  simp [State.readBuf32, h]

theorem State.writeBuf_idle {s : State} (h : s.status.busy = false) (a : Addr) (t : Bytes) :
    s.writeBuf a t = { s with mem := writeBytes s.mem a.toNat t } :=
  State.ifIdle_idle h _

/-- Byte `i` of a stored string. -/
theorem readByte_writeBytes_add (m : List Host.Cell) (a : Nat) (t : Bytes) {i : Nat} (h : i < t.length) :
    readByte (writeBytes m a t) (a + i) = t[i] := by
  rw [readByte_writeBytes, if_pos ⟨Nat.le_add_right _ _, Nat.add_lt_add_left h _⟩, Nat.add_sub_cancel_left]
  simp [h]

/-- A byte outside a stored string. -/
theorem readByte_writeBytes_outside (m : List Host.Cell) (a : Nat) (t : Bytes) {k : Nat}
    (h : k < a ∨ a + t.length ≤ k) : readByte (writeBytes m a t) k = readByte m k := by
  rw [readByte_writeBytes, if_neg (by omega)]

/-- Settles O17: an idle engine stores and reads as `writeBuf_idle` and `readBuf32_idle` say; the bytes of the new
storage are those of `bytesOfWord`, first byte first. -/
theorem bufferAccessIsBigEndian : Obligations.BufferAccessIsBigEndian := by
  intro s a rest hb hlo hhi
  have hbuf : 0x400 ≤ a.toNat ∧ a.toNat < 0x2800 := ⟨hlo, hhi⟩
  have hb' : ({ s with sched := rest } : State).status.busy = false := hb
  refine ⟨fun w h4 hs => ⟨writeBytes s.mem a.toNat (bytesOfWord w), ?_, ?_⟩,
    fun v hs => ⟨writeBytes s.mem a.toNat [v], ?_, ?_⟩, fun hs => ?_, fun h4 hs => ?_⟩
  · rw [step_host hs, hostAccess_writeBuf32 _ _ hbuf h4, State.writeBuf_idle hb']
    rfl
  · have stored := fun i (h : i < 4) => readByte_writeBytes_add s.mem a.toNat (bytesOfWord w) (i := i) h
    exact ⟨stored 0 (by decide), stored 1 (by decide), stored 2 (by decide), stored 3 (by decide),
      fun k hk => readByte_writeBytes_outside _ _ _ hk⟩
  · rw [step_host hs, hostAccess_writeBuf8 _ _ hbuf, State.writeBuf_idle hb']
    rfl
  · exact ⟨readByte_writeBytes_add s.mem a.toNat [v] Nat.zero_lt_one,
      fun k hk => readByte_writeBytes_outside _ _ _ (by simp only [List.length_singleton]; omega)⟩
  · rw [step_host hs, hostAccess_readBuf8 _ _ hbuf, State.readBuf8_idle _ hb']
  · refine ⟨_, ?_, wordOfBytes_toNat _ _ _ _⟩
    rw [step_host hs, hostAccess_readBuf32 _ _ hbuf h4, State.readBuf32_idle _ hb']

end Sys2Proof.Machine
end

section
/-! The decoder against the encoder: a word decodes to a command exactly when its two fields are the command's, and
the eight rows of the opcode table (spec/30_encoding.md R121 to R126) are the encoder's. -/

namespace Sys2Proof

/-! ## A command word and its two fields -/

/-- OPC and RSV make up the whole word (30_encoding.md R121). -/
theorem rsvOf_append_opcOf (w : Word) : rsvOf w ++ opcOf w = w :=
  (BitVec.extractLsb'_append_extractLsb'_eq_extractLsb' (start₁ := 0) (len₁ := 8) rfl).trans
    BitVec.extractLsb'_eq_self

/-- The facts of `Laws.Encoding`, of every command. -/
theorem encoding_statement (i : Instr) : Laws.Encoding.Statement i :=
  match i with
  | .mgfExpand => Laws.Encoding.mgfExpand
  | .oaepEncode => Laws.Encoding.oaepEncode
  | .oaepDecode => Laws.Encoding.oaepDecode
  | .rsaEncrypt => Laws.Encoding.rsaEncrypt
  | .rsaDecrypt => Laws.Encoding.rsaDecrypt
  | .keyGenerate => Laws.Encoding.keyGenerate
  | .keyValidate => Laws.Encoding.keyValidate
  | .keyKill => Laws.Encoding.keyKill

/-- A command's word has RSV zero and the command's OPC, and it decodes to the command. -/
theorem encode_fields_and_decode (i : Instr) :
    decodeWord (encode i) = .ok i ∧ rsvOf (encode i) = 0#24 ∧ opcOf (encode i) = opcode i := by
  obtain ⟨-, hrsv, hopc, hdecode, -⟩ := encoding_statement i
  exact ⟨hdecode, hrsv, hopc⟩

theorem decodeWord_encode (i : Instr) : decodeWord (encode i) = .ok i := (encode_fields_and_decode i).1

/-- The two fields determine the word. -/
theorem eq_encode_of_fields {w : Word} {i : Instr} (hrsv : rsvOf w = 0#24) (hopc : opcOf w = opcode i) :
    w = encode i := by
  rw [← rsvOf_append_opcOf w, hrsv, hopc, encode]

/-! ## Decoding (spec/30_encoding.md R123) -/

/-- What `decodeWord` accepts: RSV zero and the command's OPC. -/
theorem fields_of_decodeWord {w : Word} {i : Instr} (h : decodeWord w = .ok i) :
    rsvOf w = 0#24 ∧ opcOf w = opcode i := by
  unfold decodeWord at h
  split at h
  · cases h
  · next hrsv =>
    refine ⟨not_not.1 hrsv, ?_⟩
    split at h <;> cases h <;> assumption

theorem decodeWord_eq_ok_iff (w : Word) (i : Instr) : decodeWord w = .ok i ↔ w = encode i :=
  ⟨fun h => (fields_of_decodeWord h).elim eq_encode_of_fields, fun h => h ▸ decodeWord_encode i⟩

theorem opOfWord_eq_cmd_iff (w : Word) (i : Instr) : opOfWord w = .cmd i ↔ w = encode i := by
  rw [← decodeWord_eq_ok_iff, opOfWord]
  cases decodeWord w with
  | ok j => simp
  | error r => simp

theorem opOfWord_eq_illegal {w : Word} (h : ∀ i, w ≠ encode i) : opOfWord w = .illegal := by
  cases hop : opOfWord w with
  | illegal => rfl
  | cmd i => exact absurd ((opOfWord_eq_cmd_iff w i).1 hop) (h i)

/-! ## The opcode table (spec/30_encoding.md R122) -/

/-- The commands in the order of the opcode table. -/
def allCommands : List Instr :=
  [.mgfExpand, .oaepEncode, .oaepDecode, .rsaEncrypt, .rsaDecrypt, .keyGenerate, .keyValidate, .keyKill]

theorem mem_allCommands (i : Instr) : i ∈ allCommands := by
  cases i <;> decide

/-- The opcode table: every command beside its word. -/
def commandTable : List (Word × Instr) := allCommands.map fun i => (encode i, i)

theorem commandTable_eq : commandTable =
    [(0x1#32, .mgfExpand), (0x2#32, .oaepEncode), (0x3#32, .oaepDecode), (0x10#32, .rsaEncrypt),
     (0x11#32, .rsaDecrypt), (0x20#32, .keyGenerate), (0x21#32, .keyValidate), (0x22#32, .keyKill)] := by
  decide

theorem mem_commandTable_iff (w : Word) (i : Instr) : (w, i) ∈ commandTable ↔ w = encode i := by
  simp [commandTable, mem_allCommands, eq_comm]

theorem map_encode_allCommands :
    allCommands.map encode = [0x1#32, 0x2#32, 0x3#32, 0x10#32, 0x11#32, 0x20#32, 0x21#32, 0x22#32] := by
  decide

/-- A word outside the table's eight is no command's encoding. -/
theorem ne_encode_of_not_mem {w : Word} (h : w ∉ allCommands.map encode) (i : Instr) : w ≠ encode i :=
  fun hw => h (hw ▸ List.mem_map_of_mem (mem_allCommands i))

/-- Settles O2: both decoders are inverse to `encode` by the two fields of the word, and the table is `encode`'s. -/
theorem decodeAgreesWithEncode : Obligations.DecodeAgreesWithEncode := by
  refine ⟨fun w i => ?_, fun w hw => ?_, encode_fields_and_decode, decodeWord_eq_ok_iff⟩
  · rw [← commandTable_eq, mem_commandTable_iff, opOfWord_eq_cmd_iff]
  · rw [← map_encode_allCommands] at hw
    exact opOfWord_eq_illegal (ne_encode_of_not_mem hw)

/-- Settles O1: each word is its command's encoding. -/
theorem commandWordsDecode : Obligations.CommandWordsDecode :=
  ⟨decodeWord_encode .mgfExpand, decodeWord_encode .oaepEncode, decodeWord_encode .oaepDecode,
    decodeWord_encode .rsaEncrypt, decodeWord_encode .rsaDecrypt, decodeWord_encode .keyGenerate,
    decodeWord_encode .keyValidate, decodeWord_encode .keyKill⟩

end Sys2Proof
end

section
/-! The host's `wait`: a poll of STATUS and the engine step that follows one that reads DONE = 0. -/

namespace Sys2Proof.Machine

/-! ## Waiting for a completion (spec/30_encoding.md R129) -/

theorem step_wait_done {s : State} {rest : List Event} (h : s.sched = .wait :: rest) (hd : s.status.done = true) :
    step s = .next { s with sched := rest, resp := .data32 s.status.word } := by
  rw [step_wait h, if_pos hd]
  rfl

/-- After a poll that reads DONE = 0 the engine makes one step and the `wait` is still pending. -/
theorem step_wait_pending {s : State} {rest : List Event} (h : s.sched = .wait :: rest)
    (hd : s.status.done = false) :
    step s = engineTurn { s with resp := .data32 s.status.word, grant := 1 } := by
  rw [step_wait h, hd]
  rfl

/-- Settles O20: bit 1 of the polled word is DONE, and the engine's turn after a poll that reads 0 is that of the
FSM's command, of an ILLEGAL word or of IDLE. -/
theorem waitPollsUntilDone : Obligations.WaitPollsUntilDone := by
  intro s rest hs
  have polled : s.status.word.getLsbD 1 = s.status.done := s.status.word_getLsbD 1
  refine ⟨fun hd => ⟨_, step_wait_done hs hd, polled.trans hd⟩, fun hd i hop => ⟨_, ?_, polled.trans hd⟩,
    fun hd hf => ⟨_, polled.trans hd, ?_⟩, fun hd hf => ⟨_, polled.trans hd, ?_⟩⟩
  · exact (step_wait_pending hs hd).trans (engineTurn_cmd hop)
  · exact (step_wait_pending hs hd).trans (engineTurn_illegal_succ hf rfl)
  · exact (step_wait_pending hs hd).trans (engineTurn_idle hf)

end Sys2Proof.Machine
end

section
/-! The backend ports: the hash port's absorbed bytes over a run of requests, and the big-integer answers inside
their domains (spec/40_backend_primitives.md R151 to R167). -/

namespace Sys2Proof.Machine

/-! ## The hash port (spec/40_backend_primitives.md R151) -/

/-- The request that absorbs a byte string or an integer. -/
def absorbRequest (x : Bytes ⊕ Nat) : Request := x.elim .hashAbsorb .hashAbsorbInt

/-- The bytes that an absorb counts as. -/
def absorbContent (x : Bytes ⊕ Nat) : Bytes := x.elim id be32

@[simp] theorem hashAcc_absorbRequest (acc : Bytes) (x : Bytes ⊕ Nat) :
    (absorbRequest x).hashAcc acc = acc ++ absorbContent x := by
  cases x with
  | inl t => rfl
  | inr i => rfl

/-- A request sequence leaves HLEN and RFS as they are. -/
theorem foldl_issue_cfg {α : Type} (B : Backend) (request : α → Request) (l : List α) (s : State) :
    (l.foldl (fun u x => u.issue B (request x)) s).cfg = s.cfg := by
  induction l generalizing s with
  | nil => rfl
  | cons x l ih => exact ih (s.issue B (request x))

/-- Absorbs append their contents, in order, to what the hash port holds. -/
theorem foldl_absorb_hashAcc (B : Backend) (absorbs : List (Bytes ⊕ Nat)) (s : State) :
    (absorbs.foldl (fun u x => u.issue B (absorbRequest x)) s).hashAcc =
      s.hashAcc ++ absorbs.flatMap absorbContent := by
  induction absorbs generalizing s with
  | nil => simp
  | cons x absorbs ih =>
    rw [List.foldl_cons, ih, State.issue_hashAcc, hashAcc_absorbRequest, List.flatMap_cons, List.append_assoc]

theorem State.answer_hashFinal (B : Backend) (s : State) :
    s.answer B .hashFinal = digest B s.cfg.hlen s.hashAcc := rfl

/-- Settles O32: HASH.INIT empties the port, each absorb appends its content, and HASH.FINAL digests what is held. -/
theorem hashPortComputesH : Obligations.HashPortComputesH := by
  intro B s absorbs request content
  have hcfg := foldl_issue_cfg B absorbRequest absorbs (s.issue B .hashInit)
  have hacc := foldl_absorb_hashAcc B absorbs (s.issue B .hashInit)
  exact (State.answer_hashFinal B _).trans (congrArg₂ (fun c => digest B c.hlen) hcfg hacc)

/-! ## The big-integer requests that have a domain (spec/40_backend_primitives.md R159, R161 to R163) -/

theorem State.answer_sub (B : Backend) (s : State) {a b : Nat} (h : b ≤ a) : s.answer B (.sub a b) = a - b :=
  if_pos h

theorem State.answer_mod (B : Backend) (s : State) (a : Nat) {m : Nat} (h : 1 ≤ m) :
    s.answer B (.mod a m) = a % m :=
  if_pos h

theorem State.answer_modExp (B : Backend) (s : State) {b m : Nat} (x : Nat) (hodd : m % 2 = 1) (hb : b < m) :
    s.answer B (.modExp b x m) = b ^ x % m :=
  (if_pos ⟨hodd, hb⟩).trans (powMod_eq b x m)

theorem State.answer_modInv (B : Backend) (s : State) {a m : Nat} (hm : 1 ≤ m) (hgcd : Nat.gcd a m = 1) :
    s.answer B (.modInv a m) = modInverse a m :=
  if_pos ⟨hm, hgcd⟩

theorem State.answer_coFactor_iff (B : Backend) (s : State) (a e : Nat) :
    s.answer B (.coFactor a e) = true ↔ Nat.gcd a e ≠ 1 :=
  decide_eq_true_iff

/-- Settles O33: the answers of the requests that have a domain are the lemmas above, with the laws of ToBytes and
MODINV; every other answer is its arithmetic by definition. -/
theorem bigIntegerAnswersAreExact : Obligations.BigIntegerAnswersAreExact := by
  intro B s a b m x len t
  have hsub (h : b ≤ a) : s.answer B (.sub a b) + b = a := by
    rw [State.answer_sub B s h, Nat.sub_add_cancel h]
  have hinv (hm : 1 ≤ m) (hgcd : Nat.gcd a m = 1) :
      s.answer B (.modInv a m) < m ∧ a * s.answer B (.modInv a m) % m = 1 % m := by
    rw [State.answer_modInv B s hm hgcd]
    exact modInverse_spec a m hm hgcd
  exact ⟨rfl, rfl, fromBytes_toBytes x len, rfl, hsub, rfl, State.answer_mod B s a, State.answer_modExp B s x, hinv,
    rfl, rfl, rfl, Nat.compare_eq_lt, Nat.compare_eq_eq, Nat.compare_eq_gt, State.answer_coFactor_iff B s a b⟩

end Sys2Proof.Machine
end

section
/-! The key FSM's promise (spec/41_key_fsm.md R204 to R207, R209): a drawn string has its top bit set, raising to 3
modulo 4 stays below the half-width bound, and every engine step keeps `GenInv`. -/

namespace Sys2Proof.Machine

/-! ## The raise to 3 modulo 4 and the half-width bound (spec/41_key_fsm.md R204, R205) -/

theorem le_residueUp (x : Nat) : x ≤ residueUp x := by
  simp only [residueUp]; omega

theorem residueUp_eq_self {x : Nat} (h : x % 4 = 3) : residueUp x = x := by
  simp only [residueUp]; omega

theorem residueUp_succ {x : Nat} (h : x % 4 ≠ 3) : residueUp (x + 1) = residueUp x := by
  simp only [residueUp]; omega

theorem halfBound_mod_four (c : Params) : halfBound c % 4 = 0 := by
  have h : 256 ∣ halfBound c := dvd_pow_self 256 (by have := hrfs_pos c; omega)
  omega

/-- The half-width bound is a multiple of 4, so the raise does not cross it. -/
theorem residueUp_lt_halfBound {c : Params} {x : Nat} (h : x < halfBound c) : residueUp x < halfBound c := by
  have := halfBound_mod_four c
  simp only [residueUp]; omega

/-- A string with its top bit forced is at least half of `256^L` (41_key_fsm.md R204). -/
theorem le_fromBytes_forceTopBit {t : Bytes} (h : 1 ≤ t.length) :
    2 ^ (8 * t.length - 1) ≤ fromBytes (forceTopBit t) := by
  cases t with
  | nil => simp at h
  | cons b t =>
    have htop : 128 ≤ (b ||| 0x80#8).toNat := by rw [BitVec.toNat_or]; exact Nat.right_le_or
    calc 2 ^ (8 * (t.length + 1) - 1)
        = 128 * 256 ^ t.length := by
          rw [show 8 * (t.length + 1) - 1 = 7 + 8 * t.length by omega, pow_add, pow_mul]
          norm_num
      _ ≤ (b ||| 0x80#8).toNat * 256 ^ t.length := Nat.mul_le_mul_right _ htop
      _ ≤ fromBytes (forceTopBit (b :: t)) := by rw [forceTopBit, fromBytes_cons]; exact Nat.le_add_right _ _

/-- What an attempt's draw answers lies in the upper half of the half-width (41_key_fsm.md R204). -/
theorem forced_draw_range (B : Backend) (c : Params) (pos : Nat) :
    2 ^ (8 * hrfs c - 1) ≤ fromBytes (forceTopBit (randomBytes B pos (hrfs c))) ∧
      fromBytes (forceTopBit (randomBytes B pos (hrfs c))) < halfBound c := by
  have hlow := le_fromBytes_forceTopBit (t := randomBytes B pos (hrfs c)) (by simpa using hrfs_pos c)
  have hhigh := fromBytes_lt (forceTopBit (randomBytes B pos (hrfs c)))
  rw [randomBytes_length] at hlow
  rw [forceTopBit_length, randomBytes_length] at hhigh
  exact ⟨hlow, hhigh⟩

/-! ## One engine step of KEY_GENERATE keeps the invariant -/

/-- Outside KEY_GENERATE the invariant asks nothing. -/
theorem genInv_of_op_ne {s : State} (h : s.fsm.op ≠ some (.cmd .keyGenerate)) : GenInv s := by
  unfold GenInv
  cases hf : s.fsm with
  | keyGenerate pt => exact absurd (by rw [hf]; rfl) h
  | _ => trivial

/-- The invariant speaks of the build parameters, the FSM and scratch only. -/
theorem GenInv.of_eq {s t : State} (h : GenInv s) (hc : t.cfg = s.cfg) (hf : t.fsm = s.fsm)
    (hsc : t.scratch = s.scratch) : GenInv t := by
  unfold GenInv at h ⊢
  rw [hc, hf, hsc]
  exact h

/-- A new attempt for a side keeps what the search for `q` knows of `p`. -/
theorem genInv_restartAttempt {s : State} {w : Side} (h : w = .q → halfWidth s.cfg s.scratch.key.pv) :
    GenInv (restartAttempt w s) := h

theorem genInv_drawCandidate (B : Backend) {s : State} {w : Side} (h : w = .q → halfWidth s.cfg s.scratch.key.pv) :
    GenInv (drawCandidate B w s) :=
  ⟨h, forced_draw_range B s.cfg s.rngPos⟩

/-- What the invariant asks past the searches (41_key_fsm.md R204 to R207, R209). -/
def HasPrimes (s : State) : Prop :=
  halfWidth s.cfg s.scratch.key.pv ∧ halfWidth s.cfg s.scratch.key.qv ∧ s.scratch.key.pv ≠ s.scratch.key.qv

theorem genInv_exponentFound {s : State} (w : Side) (d : Nat) (h : HasPrimes s) :
    GenInv (exponentFound w d s) := by
  cases w <;> exact h

theorem genInv_serializeField {s : State} (k : KeyField) (t : Bytes) (h : HasPrimes s) :
    GenInv (serializeField k t s) := by
  cases k with
  | c => trivial
  | _ => exact h

/-- Every engine step of KEY_GENERATE keeps the promise, whatever the backends answer. -/
theorem genInv_generateStep (B : Backend) {s : State} (h : GenInv s) : GenInv (generateStep B s) := by
  by_cases hop : s.fsm.op = some (.cmd .keyGenerate)
  swap
  · rw [show generateStep B s = s from commandStep_other B .keyGenerate s hop]
    exact h
  cases hf : s.fsm with
  | keyGenerate pt =>
    simp only [GenInv, hf] at h
    simp only [generateStep, hf]
    cases pt with
    | start =>
      dsimp only
      split
      · trivial
      · exact genInv_drawCandidate B nofun
    | draw w => exact genInv_drawCandidate B h
    | fromBytes w =>
      obtain ⟨hp, hlow, hhigh⟩ := h
      exact ⟨hp, hlow, residueUp_lt_halfBound hhigh⟩
    | lowBits w =>
      obtain ⟨hp, hlow, hhigh⟩ := h
      dsimp only
      split
      · next h3 => exact ⟨hp, hlow, h3⟩
      · next h3 => exact ⟨hp, hlow, h3, hhigh⟩
    | increment w =>
      obtain ⟨hp, hlow, h3, hhigh⟩ := h
      exact ⟨hp, Nat.le_succ_of_le hlow, (residueUp_succ h3).trans_lt hhigh⟩
    | bound w =>
      obtain ⟨hp, hlow, h3⟩ := h
      dsimp only
      split
      · next hlt => exact ⟨hp, h3, hlow, Nat.compare_eq_lt.1 hlt⟩
      · exact genInv_restartAttempt hp
    | probe w =>
      dsimp only
      split <;> exact h
    | advance w =>
      obtain ⟨hp, h3, hlow, -⟩ := h
      exact ⟨hp, Nat.le_add_right_of_le hlow, (Nat.add_mod_right _ 4).trans h3⟩
    | subOne w => exact h
    | coFactor w =>
      obtain ⟨hp, hx⟩ := h
      dsimp only
      split
      · exact genInv_restartAttempt hp
      · cases w with
        | p => exact fun _ => hx
        | q => exact ⟨hp rfl, hx⟩
    | distinct =>
      obtain ⟨hp, hx⟩ := h
      dsimp only
      split
      · exact genInv_restartAttempt fun _ => hp
      · next hne => exact ⟨hp, hx, fun he => hne (Nat.compare_eq_eq.2 he.symm)⟩
    | parity w =>
      dsimp only
      split
      · exact h
      · exact genInv_exponentFound w _ h
    | adjust w => exact genInv_exponentFound w _ h
    | serialize k => exact genInv_serializeField k _ h
    | modulus | halfSub w | halve w | inverse w | coefficient => exact h
  | _ => exact absurd (hf ▸ hop) nofun

/-! ## A step keeps the invariant -/

/-- The turn of another command, of an ILLEGAL word or of IDLE does not end inside KEY_GENERATE. -/
theorem TurnMoves.op_ne {s t : State} (h : TurnMoves s t) (hs : s.fsm.op ≠ some (.cmd .keyGenerate)) :
    t.fsm.op ≠ some (.cmd .keyGenerate) := by
  cases h with
  | waits => exact hs
  | inside _ hu => rwa [hu.op]
  | completes hu =>
    obtain ⟨-, -, hfsm, -⟩ := completes_fields hu
    rw [hfsm]
    nofun

theorem GenInv.engineTurn {s t : State} (h : GenInv s) (ht : engineTurn s = .next t) : GenInv t := by
  by_cases hop : s.fsm.op = some (.cmd .keyGenerate)
  · rw [engineTurn_cmd hop, exec_eq] at ht
    cases ht
    exact (engineLoop_keeps (generateStep Config.backend) GenInv (fun _ _ hu => genInv_generateStep _ hu)
      s.grant s h).of_eq rfl rfl rfl
  · obtain ⟨u, hu, rfl⟩ := engineTurn_moves ht
    exact genInv_of_op_ne (hu.op_ne hop)

/-- A command word starts a command at its first point, where the invariant asks nothing. -/
theorem GenInv.accept (s : State) (w : Word) : GenInv (s.accept w) := by
  unfold GenInv
  rw [State.accept_fsm]
  generalize opOfWord w = o
  cases o with
  | illegal => trivial
  | cmd i => cases i <;> trivial

theorem GenInv.hostAccess {B : Backend} {x : Access} {s t : State} (h : GenInv s) (ht : hostAccess B x s = .next t) :
    GenInv t := by
  obtain ⟨-, r, d, rfl⟩ | ⟨-, u, hu, rfl⟩ := hostAccess_next B x s t ht
  · exact h.of_eq rfl rfl rfl
  · refine GenInv.of_eq (s := u) ?_ rfl rfl rfl
    cases hu with
    | command w _ => exact .accept s w
    | _ => exact h.of_eq rfl rfl rfl

/-- Settles O53: by the next event, the engine's turn runs `generateStep`, which keeps the promise at each point
(`genInv_generateStep`); a host access, a poll and the reset event keep the point or put the FSM at one where the
invariant asks nothing. -/
theorem everyStepKeepsCandidatesInRange : Obligations.EveryStepKeepsCandidatesInRange := by
  intro s t h ht
  cases hs : s.sched with
  | nil =>
    rw [step_empty hs] at ht
    exact (h.of_eq rfl rfl rfl : GenInv (s.withGrant 1)).engineTurn ht
  | cons ev rest =>
    cases ev with
    | host x =>
      rw [step_host hs] at ht
      exact (h.of_eq rfl rfl rfl : GenInv { s with sched := rest }).hostAccess ht
    | engine n =>
      rw [step_engine hs] at ht
      exact (h.of_eq rfl rfl rfl : GenInv { s with sched := rest, grant := n }).engineTurn ht
    | wait =>
      rw [step_wait hs] at ht
      split at ht
      · cases ht
        exact h.of_eq rfl rfl rfl
      · exact (h.of_eq rfl rfl rfl : GenInv (s.poll.withGrant 1)).engineTurn ht
    | reset =>
      rw [step_reset hs] at ht
      cases ht
      trivial

end Sys2Proof.Machine
end

section
/-! KEY_KILL (spec/41_key_fsm.md R221, R222). -/

namespace Sys2Proof.Machine

/-- The regions P, Q, DP, DQ and C, each zeroed by the empty OutWrite, tile 0x1400-0x27FF. -/
theorem readByte_zeroPrivateKey (s : State) (a : Nat) :
    readByte s.zeroPrivateKey.mem a = if 0x1400 ≤ a ∧ a < 0x2800 then 0#8 else readByte s.mem a := by
  simp only [State.zeroPrivateKey, readByte_outWrite_nil, bufBase, bufCap]
  grind

/-- None of the zeroed regions is MSG or BLK, so no length register moves. -/
theorem zeroPrivateKey_frame (s : State) : s.zeroPrivateKey = { s with mem := s.zeroPrivateKey.mem } := by
  simp [State.zeroPrivateKey, State.outWrite]

theorem engineLoop_kill_succ {s : State} (h : s.fsm = .keyKill) (n : Nat) :
    engineLoop killStep (n + 1) s = s.zeroPrivateKey.complete .none := by
  have hstep : killStep s = s.zeroPrivateKey.complete .none := by simp only [killStep, h]
  rw [engineLoop_succ _ _ _ (by rw [h]; rfl), hstep, engineLoop_idle _ _ _ rfl]

/-- Settles O58: the one engine step is the five empty OutWrites and the completion. -/
theorem keyKillZeroesThePrivateKey : Obligations.KeyKillZeroesThePrivateKey := by
  intro s n hs hg
  refine ⟨s.zeroPrivateKey.mem, ?_, readByte_zeroPrivateKey s⟩
  have hloop : engineLoop killStep s.grant s = s.zeroPrivateKey.complete .none := by
    rw [hg, engineLoop_kill_succ hs]
  rw [exec_eq, commandStep, runGranted_eq killStep hloop, zeroPrivateKey_frame]
  rfl

end Sys2Proof.Machine
end

section
/-! The laws of a key (spec/41_key_fsm.md R200, R216, R219): what the key FSM's checks and computations say of the
numbers, under PRIME_EXACT. -/

namespace Sys2Proof.Machine

/-! ## Congruences modulo a prime less one, which is twice an odd number (spec/41_key_fsm.md R211) -/

/-- An odd number that is 1 modulo an odd `t` is 1 modulo `2 t`. -/
theorem mod_two_mul_eq_one {a t : Nat} (ht : t % 2 = 1) (ha : a % 2 = 1) (h : a % t = 1 % t) :
    a % (2 * t) = 1 % (2 * t) := by
  have hco : Nat.Coprime 2 t := (Nat.coprime_two_left).2 (Nat.odd_iff.2 ht)
  exact (Nat.modEq_and_modEq_iff_modEq_mul hco).1 ⟨ha, h⟩

section
variable {x e : Nat} (hx : x % 4 = 3) (hco : Nat.gcd (x - 1) e = 1)
include hx

/-- The number before a prime that is 3 modulo 4 is twice an odd number. -/
theorem sub_one_eq_two_mul_odd : x - 1 = 2 * ((x - 1) / 2) ∧ (x - 1) / 2 % 2 = 1 := by omega

include hco

theorem odd_of_coprime_sub_one : e % 2 = 1 := by
  have h2 : Nat.gcd 2 e = 1 := Nat.Coprime.coprime_dvd_left (by omega) hco
  exact Nat.odd_iff.1 (Nat.coprime_two_left.1 h2)

/-- An odd exponent that inverts `e` modulo `(x - 1)/2` inverts it modulo `x - 1` (41_key_fsm.md R211, R219). -/
theorem inverse_mod_sub_one {d : Nat} (hd : d % 2 = 1) (h : e * d % ((x - 1) / 2) = 1 % ((x - 1) / 2)) :
    e * d % (x - 1) = 1 % (x - 1) := by
  obtain ⟨htwo, hodd⟩ := sub_one_eq_two_mul_odd hx
  have he := odd_of_coprime_sub_one hx hco
  rw [htwo]
  exact mod_two_mul_eq_one hodd (by rw [Nat.mul_mod, he, hd]) h

/-- R211: CrtExp's value is odd, below `x - 1`, and the inverse of `e` modulo `x - 1`. -/
theorem crtExponent_laws :
    crtExponent x e % 2 = 1 ∧ crtExponent x e < x - 1 ∧ e * crtExponent x e % (x - 1) = 1 % (x - 1) := by
  obtain ⟨htwo, hodd⟩ := sub_one_eq_two_mul_odd hx
  have hdvd : (x - 1) / 2 ∣ x - 1 := ⟨2, by omega⟩
  have hgcd : Nat.gcd e ((x - 1) / 2) = 1 := (Nat.Coprime.coprime_dvd_left hdvd hco).symm
  obtain ⟨hlt, hinv⟩ := modInverse_spec e ((x - 1) / 2) (by omega) hgcd
  by_cases heven : modInverse e ((x - 1) / 2) % 2 = 0
  · have hd : crtExponent x e = modInverse e ((x - 1) / 2) + (x - 1) / 2 := if_pos heven
    rw [hd]
    refine ⟨by omega, by omega, inverse_mod_sub_one hx hco (by omega) ?_⟩
    rw [Nat.mul_add, Nat.add_mul_mod_self_right, hinv]
  · have hd : crtExponent x e = modInverse e ((x - 1) / 2) := if_neg heven
    rw [hd]
    exact ⟨by omega, by omega, inverse_mod_sub_one hx hco (by omega) hinv⟩

end

/-! ## The half-width (spec/41_key_fsm.md R216 laws 1 and 3) -/

/-- The product of two candidates has all of RFS bytes but at most its two top bits. -/
theorem halfWidth_mul_range {c : Params} {p q : Nat} (hp : halfWidth c p) (hq : halfWidth c q) :
    2 ^ (8 * c.rfs - 2) ≤ p * q ∧ p * q < 2 ^ (8 * c.rfs) := by
  obtain ⟨-, hplow, hphigh⟩ := hp
  obtain ⟨-, hqlow, hqhigh⟩ := hq
  have hpos := hrfs_pos c
  constructor
  · calc 2 ^ (8 * c.rfs - 2) = 2 ^ (8 * hrfs c - 1) * 2 ^ (8 * hrfs c - 1) := by
          rw [← pow_add, ← two_hrfs]; congr 1; omega
      _ ≤ p * q := Nat.mul_le_mul hplow hqlow
  · calc p * q < halfBound c * halfBound c := Nat.mul_lt_mul'' hphigh hqhigh
      _ = 2 ^ (8 * c.rfs) := by rw [halfBound, ← pow_add, ← two_mul, two_hrfs, pow_mul]; norm_num

theorem pow_rfs_sub_one_le (c : Params) : 256 ^ (c.rfs - 1) ≤ 2 ^ (8 * c.rfs - 2) := by
  have := params_bounds c
  rw [show 256 = 2 ^ 8 from rfl, ← pow_mul]
  exact Nat.pow_le_pow_right (by omega) (by omega)

theorem fromBytes_toBytes_of_lt {x len : Nat} (h : x < 256 ^ len) : fromBytes (toBytes x len) = x := by
  rw [fromBytes_toBytes, Nat.mod_eq_of_lt h]

/-! ## What FindPrime returns (spec/41_key_fsm.md R204 to R209) -/

theorem le_firstCandidate (B : Backend) (c : Params) (d : DrawPoint) :
    2 ^ (8 * hrfs c - 1) ≤ firstCandidate B c d :=
  (forced_draw_range B c d.rng).1.trans (le_residueUp _)

/-- FindPrime returns a candidate of the half-width that the checks accept and some primality test answered true. -/
theorem FindsPrime.spec {B : Backend} {c : Params} {e : Nat} {avoid : Option Nat} {d d' : DrawPoint} {x : Nat}
    {tr : List Request} (h : FindsPrime B c e avoid d x d' tr) :
    halfWidth c x ∧ acceptable e avoid x ∧ ∃ k, B.primeAnswer k x = true := by
  induction h with
  | @found d _ _ _ hp ha =>
    obtain ⟨hmod, hle, hlt⟩ := probes_hit B _ hp rfl (firstCandidate_mod B _ _)
    exact ⟨⟨hmod, (le_firstCandidate B c d).trans hle, hlt⟩, ha, probes_answer B _ hp rfl⟩
  | tooWide _ _ ih => exact ih
  | rejected _ _ _ ih => exact ih

/-! ## The coefficient (spec/41_key_fsm.md R212) -/

/-- R212: for distinct primes MODINV is in its domain, and the coefficient inverts `p` modulo `q`. -/
theorem inverseAt_laws (B : Backend) (draw : Nat) {p q : Nat} (hp : p.Prime) (hq : q.Prime) (hne : p ≠ q) :
    0 < inverseAt B draw p q ∧ inverseAt B draw p q < q ∧ inverseAt B draw p q * p % q = 1 := by
  have hgcd : Nat.gcd p q = 1 := (Nat.coprime_primes hp hq).2 hne
  obtain ⟨hlt, hinv⟩ := modInverse_spec p q hq.one_le hgcd
  rw [show inverseAt B draw p q = modInverse p q from if_pos ⟨hq.one_le, hgcd⟩]
  rw [Nat.mod_eq_of_lt hq.one_lt, Nat.mul_comm] at hinv
  refine ⟨Nat.pos_of_ne_zero fun h0 => ?_, hlt, hinv⟩
  simp [h0] at hinv

/-- Settles O54: both primes by `FindsPrime.spec`, the modulus by their half-widths, the exponents by
`crtExponent_laws`, the coefficient by `inverseAt_laws`. -/
theorem generatedKeyObeysTheKeyLaws : Obligations.GeneratedKeyObeysTheKeyLaws := by
  intro B c e p q d0 d d' trP trQ hexact _ hfp hfq n dp dq cv
  obtain ⟨hpw, ⟨hpe, -⟩, kp, hpa⟩ := hfp.spec
  obtain ⟨hqw, ⟨hqe, havoid⟩, kq, hqa⟩ := hfq.spec
  have hp : p.Prime := (hexact kp p).1 hpa
  have hq : q.Prime := (hexact kq q).1 hqa
  have hne : p ≠ q := fun h => havoid (congrArg some h)
  obtain ⟨hnlow, hnhigh⟩ := halfWidth_mul_range hpw hqw
  obtain ⟨hdpodd, hdplt, hdpinv⟩ := crtExponent_laws hpw.1 hpe
  obtain ⟨hdqodd, hdqlt, hdqinv⟩ := crtExponent_laws hqw.1 hqe
  obtain ⟨hcpos, hclt, hcinv⟩ := inverseAt_laws B d'.draw hp hq hne
  have hnodd : n % 2 = 1 := by
    have hp4 := hpw.1
    have hq4 := hqw.1
    rw [Nat.mul_mod, show p % 2 = 1 by omega, show q % 2 = 1 by omega]
  have hplt : p < 256 ^ (c.rfs / 2) := hpw.2.2
  have hqlt : q < 256 ^ (c.rfs / 2) := hqw.2.2
  exact ⟨hp, hq, hne, hpw, hqw, hpe, hqe, Nat.Coprime.mul_left hpe hqe,
    hnodd, hnlow, hnhigh, (pow_rfs_sub_one_le c).trans hnlow,
    hdpodd, by omega, hdplt, hdpinv, hdqodd, by omega, hdqlt, hdqinv, hcpos, hclt, hcinv,
    fromBytes_toBytes_of_lt (by rwa [show 256 = 2 ^ 8 from rfl, ← pow_mul]),
    fromBytes_toBytes_of_lt hplt, fromBytes_toBytes_of_lt hqlt, fromBytes_toBytes_of_lt (by omega),
    fromBytes_toBytes_of_lt (by omega), fromBytes_toBytes_of_lt (by omega)⟩

/-! ## What KEY_VALIDATE accepts (spec/41_key_fsm.md R219) -/

/-- Settles O57: V3 and V4 are primality under PRIME_EXACT, and V10 and V11 hold modulo `x - 1` by
`inverse_mod_sub_one`. -/
theorem validatedKeySatisfiesTheInvariants : Obligations.ValidatedKeySatisfiesTheInvariants := by
  rintro B c draw e n p q dp dq cv hexact
    ⟨hp4, hq4, hpe, hqe, rfl, hne, hc, hdpodd, hdp, hdqodd, hdq, hn⟩ ⟨hpa, hqa⟩
  have hnodd : p * q % 2 = 1 := by rw [Nat.mul_mod, show p % 2 = 1 by omega, show q % 2 = 1 by omega]
  exact ⟨(hexact _ p).1 hpa, (hexact _ q).1 hqa, hne, hp4, hq4, rfl, hnodd, (Nat.Coprime.mul_left hpe hqe).symm,
    hdp, hdq, inverse_mod_sub_one hp4 hpe hdpodd hdp, inverse_mod_sub_one hq4 hqe hdqodd hdq, hc, hn⟩

end Sys2Proof.Machine
end

section
/-! KEY_GENERATE as a whole (spec/41_key_fsm.md R203 to R215): it completes with the primes that FindPrime returns, or
it searches for ever, for any backends. -/

namespace Sys2Proof.Machine

/-! ## The granted steps of a command -/

theorem runGranted_withGrant (B : Backend) (i : Instr) (s : State) (n : Nat) :
    runGranted (commandStep B i) (s.withGrant n) = (engineLoop (commandStep B i) n s).withGrant 0 := by
  rw [runGranted, State.withGrant_grant, engineLoop_withGrant]
  rfl

/-! ## From the start to the completion (spec/41_key_fsm.md R203, R214) -/

/-- The start of KEY_GENERATE, as a state inside it. -/
theorem genAt_start {s : State} (h : s.fsm = .keyGenerate .start) :
    genAt s .start s.scratch.key s.scratch.gen s.trace ⟨s.rngPos, s.drawPos⟩ = s := by
  simp only [genAt, ← h]

/-- KEY_GENERATE completed with the key of `p` and `q`, where the searches left the draws at `d` and made the requests
`tr` (41_key_fsm.md R213, R214). -/
def generatedKey (B : Backend) (s : State) (p q : Nat) (d : DrawPoint) (tr : List Request) : State :=
  { (generatedRegions s p q (crtExponent p s.e.toNat) (crtExponent q s.e.toNat)
      (inverseAt B d.draw p q)).complete .none with
    rngPos := d.rng
    drawPos := d.draw + inverseDraws p q
    trace := tr ++ closingTrace s.cfg s.e.toNat p q (inverseAt B d.draw p q) }

section
variable (B : Backend) (s : State) (k : KeyScratch) (x : GenScratch) (tr : List Request) (d : DrawPoint)

/-- With an odd E the pre-check passes, and the first step is the first draw for `p` (41_key_fsm.md R203, R204). -/
theorem generate_start (he : s.e.toNat % 2 = 1) :
    generateStep B (genAt s .start k x tr d) = generateStep B (genAt s (.draw .p) k x tr d) := by
  have hodd : ¬ (genAt s .start k x tr d).e.toNat % 2 = 0 := by
    show ¬ s.e.toNat % 2 = 0
    omega
  exact if_neg hodd

/-- Items 2 to 5 of R214: the modulus, both exponents, the coefficient, the conversions and the completion. -/
theorem generate_closing (hp : k.pv % 4 = 3) (hq : k.qv % 4 = 3) (hpe : Nat.gcd (k.pv - 1) s.e.toNat = 1)
    (hqe : Nat.gcd (k.qv - 1) s.e.toNat = 1) :
    Reaches (generateStep B) (genAt s .modulus k x tr d) (generatedKey B s k.pv k.qv d tr) := by
  obtain ⟨x1, h1⟩ := generate_exponent B s { k with nv := k.pv * k.qv } x (tr ++ [.mul k.pv k.qv]) d .p hp hpe
  obtain ⟨x2, h2⟩ := generate_exponent B s
    { k with nv := k.pv * k.qv, dpv := crtExponent k.pv s.e.toNat } { x1 with d := crtExponent k.pv s.e.toNat }
    (tr ++ [.mul k.pv k.qv] ++ exponentTrace k.pv s.e.toNat) d .q hq hqe
  have h3 := generate_close B s
    { k with
      nv := k.pv * k.qv, dpv := crtExponent k.pv s.e.toNat, dqv := crtExponent k.qv s.e.toNat }
    { x2 with d := crtExponent k.qv s.e.toNat }
    (tr ++ [.mul k.pv k.qv] ++ exponentTrace k.pv s.e.toNat ++ exponentTrace k.qv s.e.toNat) d
  have h := Reaches.step rfl (generate_modulus B s k x tr d) (h1.trans (h2.trans h3))
  simpa only [generatedKey, generatedRegions, closingTrace, List.append_assoc] using h

/-- Both searches and the closing: from the first draw to the completion. -/
theorem generate_key {p q : Nat} {d1 d2 : DrawPoint} {trP trQ : List Request}
    (hp : FindsPrime B s.cfg s.e.toNat none d p d1 trP) (hq : FindsPrime B s.cfg s.e.toNat (some p) d1 q d2 trQ) :
    Reaches (generateStep B) (genAt s (.draw .p) k x tr d) (generatedKey B s p q d2 (tr ++ trP ++ trQ)) := by
  obtain ⟨hpw, ⟨hpe, -⟩, -⟩ := hp.spec
  obtain ⟨hqw, ⟨hqe, -⟩, -⟩ := hq.spec
  obtain ⟨x1, rfl, h1⟩ := generate_findsPrime B s k x tr d .p hp
  obtain ⟨x2, rfl, h2⟩ := generate_findsPrime B s { k with pv := x1.x } x1 (tr ++ trP) d1 .q hq
  have h3 := generate_closing B s { k with pv := x1.x, qv := x2.x } x2 (tr ++ trP ++ trQ) d2 hpw.1 hqw.1 hpe hqe
  exact h1.trans (h2.trans h3)

end

/-- With an odd E, when FindPrime finds the two primes, every large enough number of engine steps completes
(41_key_fsm.md R203, R215). -/
theorem engineLoop_generate_completes (B : Backend) {s : State} (hs : s.fsm = .keyGenerate .start)
    (he : s.e.toNat % 2 = 1) {p q : Nat} {d d' : DrawPoint} {trP trQ : List Request}
    (hp : FindsPrime B s.cfg s.e.toNat none ⟨s.rngPos, s.drawPos⟩ p d trP)
    (hq : FindsPrime B s.cfg s.e.toNat (some p) d q d' trQ) :
    ∃ n, ∀ g, n ≤ g → engineLoop (generateStep B) g s = generatedKey B s p q d' (s.trace ++ trP ++ trQ) := by
  obtain ⟨n, hn⟩ := (generate_key B s s.scratch.key s.scratch.gen s.trace _ hp hq).done rfl
  refine ⟨n + 1, fun g hg => ?_⟩
  obtain ⟨m, rfl⟩ := Nat.exists_eq_add_of_le' (Nat.one_le_of_lt hg)
  have hfirst := generate_start B s s.scratch.key s.scratch.gen s.trace ⟨s.rngPos, s.drawPos⟩ he
  rw [genAt_start hs] at hfirst
  rw [engineLoop_step _ m (by rw [hs]; rfl) hfirst, ← engineLoop_succ _ _ _ rfl]
  exact hn _ (by omega)

/-- Settles O52: `engineLoop_generate_completes`, with the grant used up. -/
theorem keyGenerateCompletesWhenPrimesAreFound : Obligations.KeyGenerateCompletesWhenPrimesAreFound := by
  intro B s p q d d' trP trQ hs he hp hq
  obtain ⟨n, hn⟩ := engineLoop_generate_completes B hs he hp hq
  refine ⟨n, fun g hg => ?_⟩
  have h := runGranted_withGrant B .keyGenerate s g
  rw [commandStep, hn g hg] at h
  exact h

/-! ## A search that never ends (spec/41_key_fsm.md R215) -/

section
variable (B : Backend) (s : State) (w : Side) (k : KeyScratch)

/-- Whether the prime `x` of a side, found with the draws at `d`, makes a key: `p` needs a `q` after it. -/
def KeyFollows (w : Side) (x : Nat) (d : DrawPoint) : Prop :=
  match w with
  | .p => ∃ q d' tr, FindsPrime B s.cfg s.e.toNat (some x) d q d' tr
  | .q => True

/-- No prime that FindPrime may return for a side from the draws `d` makes a key. -/
def NoKey (d : DrawPoint) : Prop :=
  ∀ x d' tr, FindsPrime B s.cfg s.e.toNat (avoided k w) d x d' tr → ¬ KeyFollows B s w x d'

/-- A search's result makes no key: not by itself, where the checks accept it, and no later attempt does, where
there is none or the checks reject it. -/
def SearchFails (r : Option Nat) (d : DrawPoint) : Prop :=
  match r with
  | none => NoKey B s w k d
  | some x => (acceptable s.e.toNat (avoided k w) x → ¬ KeyFollows B s w x d) ∧
      (¬ acceptable s.e.toNat (avoided k w) x → NoKey B s w k d)

/-- Wherever the upward search from `y` ends, its result makes no key. -/
def NoHit (y : Nat) (d : DrawPoint) : Prop :=
  ∀ r d' tr, Probes B s.cfg y d r d' tr → SearchFails B s w k r d'

/-- Where no attempt makes a key, the next one does not. -/
theorem NoKey.noHit {B s w k} {d : DrawPoint} (h : NoKey B s w k d) :
    NoHit B s w k (firstCandidate B s.cfg d) (d.read (hrfs s.cfg)) := by
  intro r d' tr hp
  cases r with
  | none => exact fun x d'' tr' hf => h x d'' _ (.tooWide hp hf)
  | some y => exact ⟨fun ha => h y d' _ (.found hp ha), fun ha x d'' tr' hf => h x d'' _ (.rejected hp ha hf)⟩

end

/-- What the variables and draws of KEY_GENERATE say at each point of its searches when no key can be found; no point
past the searches is reached. -/
def Hopeless (B : Backend) (s : State) (pt : GeneratePoint) (k : KeyScratch) (x : GenScratch) (d : DrawPoint) : Prop :=
  match pt with
  | .start => s.e.toNat % 2 = 1 ∧ NoKey B s .p k d
  | .draw w => NoKey B s w k d
  | .fromBytes w => NoHit B s w k (residueUp (fromBytes x.raw)) d
  | .lowBits w => NoHit B s w k (residueUp x.x) d
  | .increment w => x.x % 4 ≠ 3 ∧ NoHit B s w k (residueUp x.x) d
  | .bound w => 1 ≤ x.x ∧ NoHit B s w k x.x d
  | .probe w => 1 ≤ x.x ∧ x.x < halfBound s.cfg ∧ NoHit B s w k x.x d
  | .advance w => NoHit B s w k (x.x + 4) d
  | .subOne w => 1 ≤ x.x ∧ SearchFails B s w k (some x.x) d
  | .coFactor w => x.x1 = x.x - 1 ∧ SearchFails B s w k (some x.x) d
  | .distinct => Nat.gcd (x.x - 1) s.e.toNat = 1 ∧ SearchFails B s .q k (some x.x) d
  | _ => False

/-- A state inside KEY_GENERATE from which it searches for ever. -/
def Searching (B : Backend) (s u : State) : Prop :=
  ∃ pt k x tr d, u = genAt s pt k x tr d ∧ Hopeless B s pt k x d

section
variable {B : Backend} {s : State}

theorem searching_of_eq {u : State} {pt : GeneratePoint} {k : KeyScratch} {x : GenScratch} {tr : List Request}
    {d : DrawPoint} (hu : u = genAt s pt k x tr d) (h : Hopeless B s pt k x d) : Searching B s u :=
  ⟨pt, k, x, tr, d, hu, h⟩

/-- Every engine step of a hopeless search is one. -/
theorem Searching.generateStep {u : State} (h : Searching B s u) : Searching B s (generateStep B u) := by
  obtain ⟨pt, k, x, tr, d, rfl, h⟩ := h
  cases pt with
  | start => exact searching_of_eq ((generate_start B s k x tr d h.1).trans (generate_draw ..)) h.2.noHit
  | draw w => exact searching_of_eq (generate_draw ..) (NoKey.noHit h)
  | fromBytes w => exact searching_of_eq (generate_fromBytes ..) h
  | lowBits w =>
    by_cases h3 : x.x % 4 = 3
    · have hx : NoHit B s w k x.x d := residueUp_eq_self h3 ▸ h
      exact searching_of_eq (generate_lowBits_three B s k x tr d w h3) ⟨by omega, hx⟩
    · exact searching_of_eq (generate_lowBits_other B s k x tr d w h3) ⟨h3, h⟩
  | increment w =>
    obtain ⟨h3, h⟩ := h
    have hx : NoHit B s w k (residueUp (x.x + 1)) d := (residueUp_succ h3).symm ▸ h
    exact searching_of_eq (generate_increment ..) hx
  | bound w =>
    obtain ⟨h1, h⟩ := h
    by_cases hb : x.x < halfBound s.cfg
    · exact searching_of_eq (generate_bound_in B s k x tr d w hb) ⟨h1, hb, h⟩
    · have hb : halfBound s.cfg ≤ x.x := Nat.le_of_not_lt hb
      exact searching_of_eq (generate_bound_out B s k x tr d w hb) (h none d _ (.bound hb))
  | probe w =>
    obtain ⟨h1, hb, h⟩ := h
    cases ha : B.primeAnswer d.draw x.x with
    | true =>
      exact searching_of_eq (generate_probe_hit B s k x tr d w ha) ⟨h1, h (some x.x) _ _ (.hit hb ha)⟩
    | false =>
      exact searching_of_eq (generate_probe_miss B s k x tr d w ha) fun r d' _ hp => h r d' _ (.miss hb ha hp)
  | advance w => exact searching_of_eq (generate_advance ..) ⟨Nat.succ_pos _, h⟩
  | subOne w =>
    obtain ⟨h1, h⟩ := h
    exact searching_of_eq (generate_subOne B s k x tr d w h1) ⟨rfl, h⟩
  | coFactor w =>
    obtain ⟨h1, haccept, hreject⟩ := h
    by_cases hg : Nat.gcd x.x1 s.e.toNat = 1
    · cases w with
      | p =>
        have hq := haccept ⟨h1 ▸ hg, nofun⟩
        exact searching_of_eq (generate_coFactor_p B s k x tr d hg) fun q d' tr' hf _ => hq ⟨q, d', tr', hf⟩
      | q => exact searching_of_eq (generate_coFactor_q B s k x tr d hg) ⟨h1 ▸ hg, haccept, hreject⟩
    · exact searching_of_eq (generate_coFactor_bad B s k x tr d w hg) (hreject fun ha => hg (h1 ▸ ha.1))
  | distinct =>
    obtain ⟨hg, haccept, hreject⟩ := h
    by_cases he : x.x = k.pv
    · exact searching_of_eq (generate_distinct_same B s k x tr d he) (hreject fun ha => ha.2 (congrArg some he.symm))
    · exact absurd trivial (haccept ⟨hg, fun hs => he (Option.some.inj hs).symm⟩)
  | _ => exact h.elim

end

/-- With an odd E, when FindPrime does not find two primes, KEY_GENERATE searches for ever (41_key_fsm.md R215). -/
theorem engineLoop_generate_searches (B : Backend) {s : State} (hs : s.fsm = .keyGenerate .start)
    (he : s.e.toNat % 2 = 1) (hno : NoKey B s .p s.scratch.key ⟨s.rngPos, s.drawPos⟩) (n : Nat) :
    Searching B s (engineLoop (generateStep B) n s) :=
  engineLoop_keeps (generateStep B) (Searching B s) (fun _ _ h => h.generateStep) n s
    (searching_of_eq (genAt_start hs).symm ⟨he, hno⟩)

/-- Settles O51: either the searches find two primes and `engineLoop_generate_completes` applies, or every run is
`Searching`. -/
theorem keyGenerateWritesTheKeyOrSearchesForEver : Obligations.KeyGenerateWritesTheKeyOrSearchesForEver := by
  intro s hs he B e finds
  by_cases hfind : ∃ p q d' tr, finds p q d' tr
  · obtain ⟨p, q, d', tr, d, trP, trQ, hp, hq, rfl⟩ := hfind
    obtain ⟨n, hn⟩ := engineLoop_generate_completes B hs he hp hq
    refine .inl ⟨p, q, d', _, ⟨d, trP, trQ, hp, hq, rfl⟩, n, fun g hg => ?_⟩
    rw [exec_withGrant, commandStep, hn g hg, List.append_assoc]
    rfl
  · have hno : NoKey B s .p s.scratch.key ⟨s.rngPos, s.drawPos⟩ :=
      fun p d trP hp ⟨q, d', trQ, hq⟩ => hfind ⟨p, q, d', _, d, trP, trQ, hp, hq, rfl⟩
    refine .inr ⟨hfind, fun g => ⟨_, exec_withGrant .keyGenerate s g, ?_⟩⟩
    obtain ⟨pt, k, x, tr, d, hu, -⟩ := engineLoop_generate_searches B hs he hno g
    rw [commandStep, hu]
    exact ⟨rfl, rfl⟩

/-! ## The corner case RFS = 2 (spec/41_key_fsm.md R215) -/

/-- The exponent 3·5·7·83·89·113, which has a factor in common with `x - 1` for every prime `x` that is 3 modulo 4 and
has eight bits. -/
def hostileExponent : Nat := 87646755

/-- Of the 32 numbers `131 + 4 i`, those whose predecessor is coprime to the hostile exponent are composite. -/
theorem small_factor_of_coprime_hostile : ∀ i < 32, Nat.gcd (130 + 4 * i) hostileExponent = 1 →
    ∃ r ∈ [3, 5, 7, 11, 13], r ∣ 131 + 4 * i := by decide

theorem gcd_hostileExponent_ne_one {x : Nat} (hp : x.Prime) (h4 : x % 4 = 3) (hlow : 128 ≤ x) (hhigh : x < 256) :
    Nat.gcd (x - 1) hostileExponent ≠ 1 := by
  intro hg
  obtain ⟨i, hi, rfl⟩ : ∃ i < 32, x = 131 + 4 * i := ⟨(x - 131) / 4, by omega, by omega⟩
  obtain ⟨r, hr, hdvd⟩ := small_factor_of_coprime_hostile i hi (by simpa using hg)
  rcases (Nat.dvd_prime hp).1 hdvd with rfl | h
  · simp at hr
  · simp only [List.mem_cons, List.not_mem_nil, or_false] at hr
    omega

theorem hostileExponent_finds_nothing {B : Backend} {c : Params} {avoid : Option Nat} {d d' : DrawPoint} {x : Nat}
    {tr : List Request} (hB : PrimeExact B) (hc : c.rfs = 2) :
    ¬ FindsPrime B c hostileExponent avoid d x d' tr := by
  intro h
  obtain ⟨⟨h4, hlow, hhigh⟩, ⟨hg, -⟩, n, ha⟩ := h.spec
  have hh : hrfs c = 1 := by rw [hrfs, hc]
  rw [hh] at hlow
  rw [halfBound, hh] at hhigh
  exact gcd_hostileExponent_ne_one ((hB n x).1 ha) h4 hlow hhigh hg

/-- Settles O55: FindPrime never returns with the hostile exponent, so every run is `Searching`, and STATUS stays. -/
theorem keyGenerateHangsOnHostileExponent : Obligations.KeyGenerateHangsOnHostileExponent := by
  intro B s n hB hs hc he hbusy
  have hE : s.e.toNat = hostileExponent := by rw [he]; rfl
  have hno : NoKey B s .p s.scratch.key ⟨s.rngPos, s.drawPos⟩ :=
    fun p d tr hf => absurd (hE ▸ hf) (hostileExponent_finds_nothing hB hc)
  obtain ⟨pt, k, x, tr, d, hu, -⟩ := engineLoop_generate_searches B hs (by rw [hE]; rfl) hno n
  have h := runGranted_withGrant B .keyGenerate s n
  rw [commandStep, hu] at h
  rw [h]
  exact hbusy

end Sys2Proof.Machine
end

section
/-! KEY_VALIDATE as a whole (spec/41_key_fsm.md R218 to R220): the verdict as a statement about the numbers, and the
run to the completion. -/

namespace Sys2Proof.Machine

theorem upToFailure_length_le (l : List (List Request × Bool)) :
    (upToFailure l).length ≤ (l.flatMap Prod.fst).length := by
  induction l with
  | nil => rfl
  | cons c l ih =>
    obtain ⟨r, ok⟩ := c
    cases ok with
    | true => simpa [upToFailure] using ih
    | false => simp [upToFailure]

section
variable (B : Backend) (c : Params) (draw e n p q dp dq cv : Nat)

/-- All checks together make 28 requests (41_key_fsm.md R220). -/
theorem validateChecks_requests : ((validateChecks B c draw e n p q dp dq cv).flatMap Prod.fst).length = 28 := rfl

/-- V10's two `require`s pass when the exponent is odd and inverts `e` modulo `(x - 1)/2`. -/
theorem exponentChecks_all_iff (x d : Nat) :
    (exponentChecks e x d).all (·.2) = true ↔ d % 2 = 1 ∧ e * d % ((x - 1) / 2) = 1 % ((x - 1) / 2) := by
  simp [exponentChecks]

/-- All checks pass when the numbers are valid and both primality tests answer true (41_key_fsm.md R218, R219). -/
theorem validateChecks_all_iff :
    (validateChecks B c draw e n p q dp dq cv).all (·.2) = true ↔
      validNumbers c e n p q dp dq cv ∧ primesAccepted B draw p q := by
  simp only [validateChecks, List.all_append, Bool.and_eq_true, exponentChecks_all_iff, List.all_cons, List.all_nil,
    beq_iff_eq, bne_iff_ne, decide_eq_true_eq, and_true, validNumbers, primesAccepted]
  tauto

end

/-- The key values after the six conversions (10_state.md R47). -/
def State.loadedKey (s : State) : KeyScratch :=
  { nv := s.keyValue .n, pv := s.keyValue .p, qv := s.keyValue .q, dpv := s.keyValue .dp, dqv := s.keyValue .dq
    cv := s.keyValue .c }

/-- KEY_VALIDATE with non-zero `p` and `q`: six conversions, then the checks up to the first that fails
(41_key_fsm.md R218, R220). -/
theorem engineLoop_validate (B : Backend) {s : State} (hs : s.fsm = .keyValidate .start)
    (hp : s.keyValue .p ≠ 0) (hq : s.keyValue .q ≠ 0) :
    let checks := validateChecks B s.cfg s.drawPos s.e.toNat (s.keyValue .n) (s.keyValue .p) (s.keyValue .q)
      (s.keyValue .dp) (s.keyValue .dq) (s.keyValue .c)
    engineLoop (validateStep B) (6 + (upToFailure checks).length) s
      = valEnd s (if checks.all (·.2) then .none else .keyInvalid)
          (s.trace ++ [.fromBytes (s.keyBytes .n), .fromBytes (s.keyBytes .p), .fromBytes (s.keyBytes .q),
            .fromBytes (s.keyBytes .dp), .fromBytes (s.keyBytes .dq), .fromBytes (s.keyBytes .c)]
            ++ upToFailure checks)
          (drawsAfter B ⟨s.rngPos, s.drawPos⟩ (upToFailure checks)) := by
  intro checks
  have hzp : allZero (s.keyBytes .p) = false := Bool.eq_false_iff.2 fun h => hp ((allZero_iff _).1 h)
  have hzq : allZero (s.keyBytes .q) = false := Bool.eq_false_iff.2 fun h => hq ((allZero_iff _).1 h)
  rw [engineLoop_add, validate_reads B s hs hzp hzq]
  exact validate_checks B s s.loadedKey ⟨s.rngPos, s.drawPos⟩ hp hq _ _ trivial

/-- Settles O56: the verdict by `validateChecks_all_iff`, the run by `engineLoop_validate`, of at most 34 steps. -/
theorem keyValidateVerdict : Obligations.KeyValidateVerdict := by
  intro s hs hg half n p q dp dq c hp hq checks code d
  refine ⟨?_, ?_⟩
  · rw [← validateChecks_all_iff]
    refine ⟨fun h => ?_, fun hall => if_pos hall⟩
    by_contra hall
    exact absurd ((if_neg hall).symm.trans h) nofun
  · have hlen : 6 + (upToFailure checks).length ≤ s.grant := by
      have hle := upToFailure_length_le checks
      rw [validateChecks_requests] at hle
      omega
    have hloop := engineLoop_done (validateStep Config.backend) (engineLoop_validate Config.backend hs hp hq) rfl hlen
    rw [exec_eq, commandStep, runGranted_eq _ hloop]
    rfl

end Sys2Proof.Machine
end

section
/-! The mask generator: the bytes of the mask stream (spec/42_mgf_oaep.md R250, R252), and MGF_EXPAND as a whole
(R251, R253). -/

namespace Sys2Proof.Machine

/-! ## The legal build parameters (spec/00_scope.md R7, R9) -/

theorem hlen_pos (c : Params) : 1 ≤ c.hlen := by
  obtain ⟨-, -, -, hpos, -⟩ := params_bounds c
  exact hpos

theorem rfs_le (c : Params) : c.rfs ≤ 1024 := by
  obtain ⟨-, -, hle, -⟩ := params_bounds c
  exact hle

/-! ## A command that completes within its grant -/

/-- A command that is complete after `n` of its granted engine steps (log 3). -/
theorem exec_of_completed (i : Instr) {n : Nat} {s u : State}
    (h : engineLoop (commandStep Config.backend i) n s = u) (hu : u.fsm = .idle) (hn : n ≤ s.grant) :
    exec i s = .next (u.withGrant 0) := by
  rw [exec_eq, runGranted_eq _ (engineLoop_done _ h ((isIdle_iff _).2 hu) hn)]

/-- A command whose first engine step completes it. -/
theorem exec_of_first_step (i : Instr) {n : Nat} {s u : State} (hs : s.fsm.isIdle = false)
    (h : commandStep Config.backend i s = u) (hu : u.fsm = .idle) (hg : s.grant = n + 1) :
    exec i s = .next (u.withGrant 0) :=
  exec_of_completed i (n := 1) (engineLoop_step _ 0 hs h) hu (by omega)

/-! ## The mask stream (spec/42_mgf_oaep.md R250, R252) -/

theorem mgfBlocks_getElem? (B : Backend) {hlen : Nat} (z : Bytes) {n k : Nat} (h : k < n * hlen) :
    (mgfBlocks B hlen z n)[k]? = (digest B hlen (z ++ be32 (k / hlen)))[k % hlen]? := by
  induction n with
  | zero => omega
  | succ n ih =>
    rw [mgfBlocks_succ]
    rcases Nat.lt_or_ge k (n * hlen) with hk | hk
    · rw [List.getElem?_append_left (by rwa [mgfBlocks_length]), ih hk]
    · have hdiv : k / hlen = n := Nat.div_eq_of_lt_le hk h
      have hmod : k % hlen = k - n * hlen := by rw [Nat.mod_eq_sub_mul_div, hdiv, Nat.mul_comm]
      rw [List.getElem?_append_right (by rwa [mgfBlocks_length]), mgfBlocks_length, hdiv, hmod]

/-- Byte `k` of a mask of `len` bytes does not depend on `len`. -/
theorem mgf_getElem? (B : Backend) {hlen : Nat} (z : Bytes) (len k : Nat) (h : 1 ≤ hlen) :
    (mgf B hlen z len)[k]? =
      if k < len then (digest B hlen (z ++ be32 (k / hlen)))[k % hlen]? else none := by
  rw [mgf_eq, List.getElem?_take]
  split
  · next hk => exact mgfBlocks_getElem? B z (hk.trans_le (ceilDiv_le len hlen h))
  · rfl

/-- Settles O37: each byte of the mask by `mgf_getElem?`, in which the mask's length is only a bound. -/
theorem maskStreamExtendsItself : Obligations.MaskStreamExtendsItself := by
  intro B hlen z len k h
  refine ⟨mgf_length B hlen z len h, List.ext_getElem? fun i => ?_, fun hk => ?_⟩
  · rw [List.getElem?_take, mgf_getElem? B z _ i h, mgf_getElem? B z _ i h]
    split
    · next hi => rw [if_pos (Nat.lt_add_right k hi)]
    · rfl
  · rw [List.getD_eq_getElem?_getD, List.getD_eq_getElem?_getD, mgf_getElem? B z len k h, if_pos hk]

/-! ## MGF_EXPAND (spec/42_mgf_oaep.md R253) -/

theorem ceilDiv_zero {b : Nat} (hb : 1 ≤ b) : ceilDiv 0 b = 0 := Nat.div_eq_of_lt (by omega)

/-- The start of MGF_EXPAND as the start of its first block's requests. -/
def expandReady (s : State) : State :=
  { s with scratch.mgf := mgfInit s.message s.outLen.toNat, fsm := .mgfExpand (.mgf .init) }

/-- OutWrite sets BLKLEN to the length of the result (20_memory.md R100). -/
theorem State.outWrite_blk_of_length {s : State} {t : Bytes} {w : Word} (h : BitVec.ofNat 32 t.length = w) :
    s.outWrite .blk t = { s.outWrite .blk t with blkLen := w } := by
  rw [← h]
  rfl

section
variable (B : Backend) {s : State} (hs : s.fsm = .mgfExpand .start) (hm : s.msgLen.toNat ≤ 1024)
include hs hm

theorem expandStep_start_empty (h0 : s.outLen.toNat = 0) : expandStep B s = expandFinish [] s := by
  simp only [expandStep, hs]
  rw [if_neg (by simp only [bufCap]; omega), if_pos h0]

variable (ho : s.outLen.toNat ≤ 1024)
include ho

theorem expandStep_start (h0 : s.outLen.toNat ≠ 0) : expandStep B s = expandStep B (expandReady s) := by
  simp only [expandStep, hs]
  rw [if_neg (by simp only [bufCap]; omega), if_neg h0]
  rfl

/-- MGF_EXPAND completes after the requests of its mask, or at once when it has none (42_mgf_oaep.md R251, R253). -/
theorem engineLoop_expand :
    engineLoop (expandStep B) (max 1 (mgfRequests s.cfg.hlen s.outLen.toNat)) s =
      expandFinish (mgf B s.cfg.hlen s.message s.outLen.toNat)
        { s with
          trace := s.trace ++ mgfTrace s.cfg.hlen s.message s.outLen.toNat
          hashAcc := if s.outLen.toNat = 0 then s.hashAcc else [] } := by
  have hh := hlen_pos s.cfg
  by_cases h0 : s.outLen.toNat = 0
  · have hempty : mgf B s.cfg.hlen s.message 0 = [] := List.take_zero
    have htrace : mgfTrace s.cfg.hlen s.message 0 = [] := by rw [mgfTrace, ceilDiv_zero hh]; rfl
    rw [h0, mgfRequests, ceilDiv_zero hh, hempty, htrace, List.append_nil, if_pos rfl]
    exact engineLoop_step _ 0 (by rw [hs]; rfl) (expandStep_start_empty B hs hm h0)
  · have hc : 1 ≤ ceilDiv s.outLen.toNat s.cfg.hlen := ceilDiv_pos _ _ (by omega) hh
    obtain ⟨n, hn⟩ : ∃ n, mgfRequests s.cfg.hlen s.outLen.toNat = n + 1 :=
      Nat.exists_eq_add_of_le' (by rw [mgfRequests]; omega)
    have hrun := mgf_run B (fun p => .mgfExpand (.mgf p)) expandFinish (expandStep B)
      (fun p u hu => by simp only [expandStep, hu]) (fun _ => rfl) s.message s.outLen.toNat (expandReady s) rfl rfl
      (by omega)
    rw [show (expandReady s).cfg = s.cfg from rfl, hn, engineLoop_succ _ _ _ rfl] at hrun
    rw [hn, max_eq_right (by omega), engineLoop_step _ n (by rw [hs]; rfl) (expandStep_start B hs hm ho h0), hrun,
      if_neg h0]
    rfl

end

/-- Settles O36: the run is `engineLoop_expand`, and the mask has OUTLEN bytes. -/
theorem mgfExpandWritesTheMask : Obligations.MgfExpandWritesTheMask := by
  intro s hs hm ho hg
  have hlen : BitVec.ofNat 32 (mgf Config.backend s.cfg.hlen s.message s.outLen.toNat).length = s.outLen := by
    rw [mgf_length _ _ _ _ (hlen_pos s.cfg), BitVec.ofNat_toNat, BitVec.setWidth_eq]
  rw [exec_of_completed .mgfExpand (engineLoop_expand Config.backend hs hm ho) rfl hg, expandFinish,
    State.outWrite_blk_of_length hlen]
  rfl

end Sys2Proof.Machine
end

section
/-! The label hash that both OAEP commands begin with, and OAEP_ENCODE as a whole (spec/42_mgf_oaep.md R254 to
R258). -/

namespace Sys2Proof.Machine

/-! ## Inside an OAEP command -/

/-- A state inside an OAEP command with no hash in progress, from the state the command started in. -/
def oaepAt (s : State) (f : Fsm) (o : OaepScratch) (m : MgfScratch) (tr : List Request) (pos : Nat) : State :=
  { s with
    fsm := f, scratch := { s.scratch with oaep := o, mgf := m }, trace := s.trace ++ tr, hashAcc := []
    rngPos := pos }

/-- The mask generator's variables after the last block of `MGF(z, L)`. -/
def mgfLast (B : Backend) (hlen : Nat) (z : Bytes) (len : Nat) : MgfScratch :=
  { z := z, len := len, i := ceilDiv len hlen - 1, t := mgfBlocks B hlen z (ceilDiv len hlen - 1) }

/-- `HASH(label)` at the start of a command (40_backend_primitives.md R152): after three engine steps the command's
local computation has the digest. -/
theorem engineLoop_label (B : Backend) (at_ : HashPoint → Fsm) (finish : Bytes → State → State) (f : State → State)
    (hf : ∀ p u, u.fsm = at_ p → f u = hashStep B at_ u.labelBytes finish p u) (hi : ∀ p, (at_ p).isIdle = false)
    {s : State} (hs : s.fsm.isIdle = false) (hstart : f s = { s.issue B .hashInit with fsm := at_ .absorb }) :
    engineLoop f 3 s =
      finish (digest B s.cfg.hlen s.labelBytes)
        (oaepAt s (at_ .final) s.scratch.oaep s.scratch.mgf (hashTrace s.labelBytes) s.rngPos) := by
  rw [engineLoop_step f 2 hs hstart, engineLoop_step f 1 (hi .absorb) (hf .absorb _ rfl),
    engineLoop_step f 0 (hi .final) (hf .final _ rfl)]
  simp [engineLoop, hashStep, hashTrace, oaepAt, State.issue, State.answer, Request.hashAcc, Request.rngTaken,
    Request.draws, State.labelBytes, State.bufBytes]

/-- `MGF(z, L)` inside a command: `mgf_run` between two such states (42_mgf_oaep.md R250, R251). -/
theorem engineLoop_mask (B : Backend) (at_ : MgfPoint → Fsm) (finish : Bytes → State → State) (f : State → State)
    (hf : ∀ p u, u.fsm = at_ p → f u = mgfStep B at_ finish p u) (hi : ∀ p, (at_ p).isIdle = false)
    (s : State) (o : OaepScratch) (z : Bytes) {len : Nat} (tr : List Request) (pos : Nat) (hl : 1 ≤ len) :
    engineLoop f (mgfRequests s.cfg.hlen len) (oaepAt s (at_ .init) o (mgfInit z len) tr pos) =
      finish (mgf B s.cfg.hlen z len)
        (oaepAt s (at_ .final) o (mgfLast B s.cfg.hlen z len) (tr ++ mgfTrace s.cfg.hlen z len) pos) := by
  have hrun := mgf_run B at_ finish f hf hi z len (oaepAt s (at_ .init) o (mgfInit z len) tr pos) rfl rfl hl
  simpa only [mgfDone, oaepAt, mgfLast, List.append_assoc] using hrun

/-! ## The checks of OAEP_ENCODE (spec/42_mgf_oaep.md R254, R255) -/

/-- A message that is longer than MAXMSG. -/
theorem maxMsg_lt_iff (c : Params) (n : Nat) : maxMsg c < n ↔ c.rfs < n + 2 * c.hlen + 2 := by
  simp only [maxMsg, oLen]; omega

theorem encodeStep_tooLong (B : Backend) {s : State} (hs : s.fsm = .oaepEncode .start)
    (hm : s.msgLen.toNat ≤ 1024) (hl : s.lblLen.toNat ≤ 1024)
    (hlong : s.cfg.rfs < s.msgLen.toNat + 2 * s.cfg.hlen + 2) :
    encodeStep B s = (s.outWrite .blk []).complete .encodingTooLong := by
  simp only [encodeStep, hs]
  rw [if_neg (by simp only [bufCap]; omega), if_pos ((maxMsg_lt_iff _ _).2 hlong)]

/-- Settles O39: the first engine step refuses the message (`encodeStep_tooLong`). -/
theorem oaepEncodeRefusesLongMessages : Obligations.OaepEncodeRefusesLongMessages := by
  intro s n hs hg hm hl hlong
  exact exec_of_first_step .oaepEncode (by rw [hs]; rfl) (encodeStep_tooLong _ hs hm hl hlong) rfl hg

/-! ## OAEP_ENCODE of a message that fits (spec/42_mgf_oaep.md R256, R257) -/

theorem State.message_length (s : State) : s.message.length = s.msgLen.toNat := readBytes_length _ _ _

theorem State.fits_message (s : State) (h : s.msgLen.toNat + 2 * s.cfg.hlen + 2 ≤ s.cfg.rfs) :
    fits s.cfg s.message := by
  rwa [fits, s.message_length]

/-- The trace of OAEP_ENCODE past its checks (42_mgf_oaep.md R257). -/
def encodeTrace (B : Backend) (c : Params) (label message seed : Bytes) : List Request :=
  let mDB := xorBytes (dataBlock c (digest B c.hlen label) message) (mgf B c.hlen seed (dbLen c).toNat)
  hashTrace label ++ [.rngRead c.hlen] ++ mgfTrace c.hlen seed (dbLen c).toNat ++ mgfTrace c.hlen mDB c.hlen

/-- OAEP_ENCODE completed with the block of the next HLEN random bytes (42_mgf_oaep.md R256, R257). -/
def encodedState (B : Backend) (s : State) : State :=
  let seed := randomBytes B s.rngPos s.cfg.hlen
  { (s.outWrite .blk (encodedBlock B s.cfg s.labelBytes s.message seed)).complete .none with
    rngPos := s.rngPos + s.cfg.hlen
    trace := s.trace ++ encodeTrace B s.cfg s.labelBytes s.message seed
    hashAcc := [] }

section
variable (B : Backend) (s : State) (f : Fsm) (o : OaepScratch) (m : MgfScratch) (tr : List Request) (pos : Nat)

theorem encodeLabelled_oaepAt (lhash : Bytes) :
    encodeLabelled lhash (oaepAt s f o m tr pos) =
      oaepAt s (.oaepEncode .seed) { o with lhash := lhash, db := dataBlock s.cfg lhash s.message } m tr pos := rfl

theorem encodeStep_seed :
    encodeStep B (oaepAt s (.oaepEncode .seed) o m tr pos) =
      oaepAt s (.oaepEncode (.dbMask .init)) { o with seed := randomBytes B pos s.cfg.hlen }
        (mgfInit (randomBytes B pos s.cfg.hlen) (dbLen s.cfg).toNat) (tr ++ [.rngRead s.cfg.hlen])
        (pos + s.cfg.hlen) := by
  simp [encodeStep, oaepAt, State.issue, State.answer, Request.hashAcc, Request.rngTaken, Request.draws]

theorem encodeDbMasked_oaepAt (mask : Bytes) :
    encodeDbMasked mask (oaepAt s f o m tr pos) =
      oaepAt s (.oaepEncode (.seedMask .init)) { o with dbMask := mask, mDB := xorBytes o.db mask }
        (mgfInit (xorBytes o.db mask) s.cfg.hlen) tr pos := rfl

end

section
variable (B : Backend) {s : State} (hs : s.fsm = .oaepEncode .start)
  (hfits : s.msgLen.toNat + 2 * s.cfg.hlen + 2 ≤ s.cfg.rfs) (hl : s.lblLen.toNat ≤ 1024)
include hs hfits hl

theorem encodeStep_start :
    encodeStep B s = { s.issue B .hashInit with fsm := .oaepEncode (.label .absorb) } := by
  have hrfs := rfs_le s.cfg
  simp only [encodeStep, hs]
  rw [if_neg (by simp only [bufCap]; omega), if_neg (by rw [maxMsg_lt_iff]; omega)]

/-- OAEP_ENCODE writes its block after `encodeRequests` engine steps: the label hash, the seed, the two masks. -/
theorem engineLoop_encode : engineLoop (encodeStep B) (encodeRequests s.cfg) s = encodedState B s := by
  have hdb : 1 ≤ (dbLen s.cfg).toNat := by rw [dbLen_toNat]; omega
  have hlabel := engineLoop_label B (fun p => .oaepEncode (.label p)) encodeLabelled (encodeStep B)
    (fun p u hu => by simp only [encodeStep, hu]) (fun _ => rfl) (by rw [hs]; rfl) (encodeStep_start B hs hfits hl)
  have hdbMask := engineLoop_mask B (fun p => .oaepEncode (.dbMask p)) encodeDbMasked (encodeStep B)
    (fun p u hu => by simp only [encodeStep, hu]) (fun _ => rfl) s
  have hseedMask := engineLoop_mask B (fun p => .oaepEncode (.seedMask p)) encodeFinish (encodeStep B)
    (fun p u hu => by simp only [encodeStep, hu]) (fun _ => rfl) s
  rw [encodeRequests, engineLoop_add, engineLoop_add, engineLoop_add, hlabel, encodeLabelled_oaepAt,
    engineLoop_step _ 0 rfl (encodeStep_seed ..), engineLoop, hdbMask _ _ _ _ hdb, encodeDbMasked_oaepAt,
    hseedMask _ _ _ _ (hlen_pos s.cfg)]
  rfl

/-- OAEP_ENCODE with enough engine steps granted. -/
theorem exec_encode (hg : encodeRequests s.cfg ≤ s.grant) :
    exec .oaepEncode s = .next ((encodedState Config.backend s).withGrant 0) :=
  exec_of_completed .oaepEncode (engineLoop_encode Config.backend hs hfits hl) rfl hg

end

/-- Settles O38: the run is `exec_encode`; PSLEN and DBLEN are exact for a message that fits, and the block has RFS
bytes. -/
theorem oaepEncodeWritesTheBlock : Obligations.OaepEncodeWritesTheBlock := by
  intro s hs hfits hl hg B seed lhash db mDB mSeed
  have hdb : dataBlock s.cfg lhash s.message = db := by
    rw [dataBlock_eq _ _ _ (s.fits_message hfits), State.message_length]
    simp only [db, List.append_assoc]
  have hblock : encodedBlock B s.cfg s.labelBytes s.message seed = [0x00#8] ++ mSeed ++ mDB := by
    simp only [encodedBlock, dbLen_toNat]
    rw [show digest B s.cfg.hlen s.labelBytes = lhash from rfl, hdb]
  have htrace : s.trace ++ encodeTrace B s.cfg s.labelBytes s.message seed =
      s.trace ++ hashTrace s.labelBytes ++ [.rngRead s.cfg.hlen]
        ++ mgfTrace s.cfg.hlen seed (s.cfg.rfs - 1 - s.cfg.hlen) ++ mgfTrace s.cfg.hlen mDB s.cfg.hlen := by
    simp only [encodeTrace, dbLen_toNat, List.append_assoc]
    rw [show digest B s.cfg.hlen s.labelBytes = lhash from rfl, hdb]
  have hlen : BitVec.ofNat 32 ([0x00#8] ++ mSeed ++ mDB).length = BitVec.ofNat 32 s.cfg.rfs := by
    rw [← hblock, (encodedBlock_unmasks B s.cfg _ _ seed (randomBytes_length ..) (s.fits_message hfits)).1]
  rw [exec_encode hs hfits hl hg, encodedState, hblock, htrace, State.outWrite_blk_of_length hlen]
  rfl

end Sys2Proof.Machine
end

section
/-! OAEP_DECODE as a whole (spec/42_mgf_oaep.md R259 to R272): the acceptance condition, and the run to the
completion. -/

namespace Sys2Proof.Machine

/-! ## The check of OAEP_DECODE (spec/42_mgf_oaep.md R260) -/

theorem decodeStep_narrow (B : Backend) {s : State} (hs : s.fsm = .oaepDecode .start)
    (hb : s.blkLen.toNat ≤ s.cfg.rfs) (hl : s.lblLen.toNat ≤ 1024) (hnarrow : s.cfg.rfs < 2 * s.cfg.hlen + 2) :
    decodeStep B s = (s.outWrite .msg []).complete .configError := by
  simp only [decodeStep, hs]
  rw [if_neg (by simp only [bufCap]; omega), if_pos hnarrow]

/-- Settles O40: the first engine step refuses the build parameters (`decodeStep_narrow`). -/
theorem oaepDecodeRefusesNarrowBlocks : Obligations.OaepDecodeRefusesNarrowBlocks := by
  intro s n hs hg hb hl hnarrow
  exact exec_of_first_step .oaepDecode (by rw [hs]; rfl) (decodeStep_narrow _ hs hb hl hnarrow) rfl hg

/-! ## The acceptance condition (spec/42_mgf_oaep.md R266 to R269) -/

theorem drop_past_separator (k : Nat) (b : Byte) (m : Bytes) : (zeros k ++ b :: m).drop (k + 1) = m := by
  rw [List.append_cons]
  exact List.drop_left' (by simp)

/-- The scan accepts a region with message `m` exactly when the region is zeros, 0x01, `m`. -/
theorem scan_separator_iff (r m : Bytes) :
    ((scan r).found = true ∧ (scan r).t = 0x01#8) ∧ r.drop ((scan r).k + 1) = m ↔
      ∃ k, r = zeros k ++ [0x01#8] ++ m := by
  have hone : (0x01#8 : Byte) ≠ 0#8 := by decide
  constructor
  · rintro ⟨⟨hfound, ht⟩, rfl⟩
    obtain ⟨n, rfl⟩ | ⟨n, b, t, hb, rfl⟩ := zeros_or_first r
    · rw [scan_none] at hfound
      cases hfound
    · rw [scan_first n b t hb] at ht ⊢
      obtain rfl : b = 0x01#8 := ht
      exact ⟨n, by rw [drop_past_separator, List.append_assoc, List.singleton_append]⟩
  · rintro ⟨k, rfl⟩
    rw [List.append_assoc, List.singleton_append, scan_first k _ m hone]
    exact ⟨⟨rfl, rfl⟩, drop_past_separator k _ m⟩

/-- The four terms of R269. -/
theorem openDataBlock_eq_some_iff (hlen : Nat) (chash : Bytes) (x : Byte) (db m : Bytes)
    (h : (db.take hlen).length = chash.length) :
    openDataBlock hlen chash x db = some m ↔
      db.take hlen = chash ∧ x = 0#8 ∧ ∃ k, db.drop hlen = zeros k ++ [0x01#8] ++ m := by
  rw [← cteq_iff _ _ h, ← scan_separator_iff]
  simp only [openDataBlock, Option.ite_none_right_eq_some, Bool.and_eq_true, beq_iff_eq, Option.some.injEq]
  tauto

/-! ## OAEP_DECODE past its checks (spec/42_mgf_oaep.md R262 to R270, R272) -/

/-- How OAEP_DECODE ends: with the message it found, or with the empty result (42_mgf_oaep.md R269, R270). -/
def decodeOutcome (r : Option Bytes) (s : State) : State :=
  match r with
  | some m => (s.outWrite .msg m).complete .none
  | none => (s.outWrite .msg []).complete .paddingInvalid

/-- Both outcomes complete. -/
theorem decodeOutcome_fsm (r : Option Bytes) (s : State) : (decodeOutcome r s).fsm = .idle := by
  cases r <;> rfl

theorem decodeOutcome_trace (r : Option Bytes) (s : State) : (decodeOutcome r s).trace = s.trace := by
  cases r <;> rfl

theorem decodeFinish_eq (mask : Bytes) (s : State) :
    decodeFinish mask s =
      decodeOutcome (openDataBlock s.cfg.hlen s.scratch.oaep.lhash (s.scratch.oaep.f.headD 0#8)
        (xorBytes mask s.scratch.oaep.mDB)) s := rfl

/-- The trace of OAEP_DECODE past its checks, on the label and the normalised block (42_mgf_oaep.md R272). -/
def decodeTrace (B : Backend) (c : Params) (label f : Bytes) : List Request :=
  let mDB := f.drop (1 + c.hlen)
  let seed := xorBytes (mgf B c.hlen mDB c.hlen) ((f.drop 1).take c.hlen)
  hashTrace label ++ mgfTrace c.hlen mDB c.hlen ++ mgfTrace c.hlen seed (dbLen c).toNat

/-- OAEP_DECODE completed (42_mgf_oaep.md R262, R269 to R272). -/
def decodedState (B : Backend) (s : State) : State :=
  decodeOutcome (decodedMessage B s.cfg s.labelBytes s.paddedBlock)
    { s with trace := s.trace ++ decodeTrace B s.cfg s.labelBytes s.paddedBlock, hashAcc := [] }

section
variable (s : State) (f : Fsm) (o : OaepScratch) (m : MgfScratch) (tr : List Request) (pos : Nat)

theorem decodeLabelled_oaepAt (chash : Bytes) :
    decodeLabelled chash (oaepAt s f o m tr pos) =
      oaepAt s (.oaepDecode (.seedMask .init))
        { o with
          lhash := chash, f := s.paddedBlock, mSeed := (s.paddedBlock.drop 1).take s.cfg.hlen
          mDB := s.paddedBlock.drop (1 + s.cfg.hlen) }
        (mgfInit (s.paddedBlock.drop (1 + s.cfg.hlen)) s.cfg.hlen) tr pos := rfl

theorem decodeSeedFound_oaepAt (mask : Bytes) :
    decodeSeedFound mask (oaepAt s f o m tr pos) =
      oaepAt s (.oaepDecode (.dbMask .init)) { o with sMask := mask, seed := xorBytes mask o.mSeed }
        (mgfInit (xorBytes mask o.mSeed) (dbLen s.cfg).toNat) tr pos := rfl

/-- The completion forgets the command's point and its variables. -/
theorem decodeOutcome_oaepAt (r : Option Bytes) :
    decodeOutcome r (oaepAt s f o m tr pos) =
      decodeOutcome r { s with trace := s.trace ++ tr, hashAcc := [], rngPos := pos } := by
  cases r <;> rfl

end

section
variable (B : Backend) {s : State} (hs : s.fsm = .oaepDecode .start) (hb : s.blkLen.toNat ≤ s.cfg.rfs)
  (hl : s.lblLen.toNat ≤ 1024) (hwide : 2 * s.cfg.hlen + 2 ≤ s.cfg.rfs)
include hs hb hl hwide

theorem decodeStep_start :
    decodeStep B s = { s.issue B .hashInit with fsm := .oaepDecode (.label .absorb) } := by
  simp only [decodeStep, hs]
  rw [if_neg (by simp only [bufCap]; omega), if_neg (by omega)]

/-- OAEP_DECODE ends after `decodeRequests` engine steps: the label hash and the two masks. -/
theorem engineLoop_decode : engineLoop (decodeStep B) (decodeRequests s.cfg) s = decodedState B s := by
  have hdb : 1 ≤ (dbLen s.cfg).toNat := by rw [dbLen_toNat]; omega
  have hlabel := engineLoop_label B (fun p => .oaepDecode (.label p)) decodeLabelled (decodeStep B)
    (fun p u hu => by simp only [decodeStep, hu]) (fun _ => rfl) (by rw [hs]; rfl) (decodeStep_start B hs hb hl hwide)
  have hseedMask := engineLoop_mask B (fun p => .oaepDecode (.seedMask p)) decodeSeedFound (decodeStep B)
    (fun p u hu => by simp only [decodeStep, hu]) (fun _ => rfl) s
  have hdbMask := engineLoop_mask B (fun p => .oaepDecode (.dbMask p)) decodeFinish (decodeStep B)
    (fun p u hu => by simp only [decodeStep, hu]) (fun _ => rfl) s
  rw [decodeRequests, engineLoop_add, engineLoop_add, hlabel, decodeLabelled_oaepAt,
    hseedMask _ _ _ _ (hlen_pos s.cfg), decodeSeedFound_oaepAt, hdbMask _ _ _ _ hdb, decodeFinish_eq,
    decodeOutcome_oaepAt]
  rfl

/-- OAEP_DECODE with enough engine steps granted. -/
theorem exec_decode (hg : decodeRequests s.cfg ≤ s.grant) :
    exec .oaepDecode s = .next ((decodedState Config.backend s).withGrant 0) :=
  exec_of_completed .oaepDecode (engineLoop_decode Config.backend hs hb hl hwide) (decodeOutcome_fsm _ _) hg

end

/-- The normalised block has RFS bytes (42_mgf_oaep.md R263). -/
theorem State.paddedBlock_length (s : State) (h : s.blkLen.toNat ≤ s.cfg.rfs) :
    s.paddedBlock.length = s.cfg.rfs := by
  rw [State.paddedBlock, List.length_append, zeros_length, State.bufBytes, readBytes_length, Nat.sub_add_cancel h]

theorem head?_eq_some_iff_headD {f : Bytes} (h : 1 ≤ f.length) (d x : Byte) :
    f.head? = some x ↔ f.headD d = x := by
  cases f with
  | nil => simp at h
  | cons b t => simp

/-- What OAEP_DECODE accepts, on the unmasked data block (42_mgf_oaep.md R266 to R269). -/
theorem decodedMessage_eq_some_iff (B : Backend) (c : Params) (label f m : Bytes) (hf : f.length = c.rfs)
    (hwide : 2 * c.hlen + 2 ≤ c.rfs) :
    let mDB := f.drop (1 + c.hlen)
    let seed := xorBytes (mgf B c.hlen mDB c.hlen) ((f.drop 1).take c.hlen)
    let db := xorBytes (mgf B c.hlen seed (dbLen c).toNat) mDB
    decodedMessage B c label f = some m ↔
      db.take c.hlen = digest B c.hlen label ∧ f.head? = some 0#8 ∧
        ∃ k, db.drop c.hlen = zeros k ++ [0x01#8] ++ m := by
  intro mDB seed db
  have hdb : (db.take c.hlen).length = (digest B c.hlen label).length := by
    have hh := hlen_pos c
    simp only [db, mDB, List.length_take, xorBytes_length, mgf_length _ _ _ _ hh, dbLen_toNat, List.length_drop, hf,
      digest_length]
    omega
  rw [head?_eq_some_iff_headD (by omega) 0#8, ← openDataBlock_eq_some_iff _ _ _ _ _ hdb]
  rfl

/-- Settles O41: the run is `exec_decode`, and `decodedMessage_eq_some_iff` says when it finds which message. -/
theorem oaepDecodeAcceptsExactlyValidBlocks : Obligations.OaepDecodeAcceptsExactlyValidBlocks := by
  intro s hs hb hl hwide hg B h f mSeed mDB seed db r
  have hiff := fun m => decodedMessage_eq_some_iff B s.cfg s.labelBytes s.paddedBlock m (s.paddedBlock_length hb) hwide
  simp only [dbLen_toNat] at hiff
  have htrace : s.trace ++ decodeTrace B s.cfg s.labelBytes f =
      s.trace ++ hashTrace s.labelBytes ++ mgfTrace h mDB h ++ mgfTrace h seed (s.cfg.rfs - 1 - h) := by
    simp only [decodeTrace, dbLen_toNat, List.append_assoc]
    rfl
  refine ⟨_, exec_decode hs hb hl hwide hg, fun m hhash hhead hrest => ?_, fun hnone => ?_, ?_⟩
  · rw [decodedState, (hiff m).2 ⟨hhash, hhead, hrest⟩]
    rfl
  · have hrejects : decodedMessage B s.cfg s.labelBytes s.paddedBlock = none := by
      refine Option.eq_none_iff_forall_ne_some.2 fun m hm => ?_
      obtain ⟨hhash, hhead, k, hrest⟩ := (hiff m).1 hm
      exact hnone ⟨hhash, hhead, k, m, hrest⟩
    rw [decodedState, hrejects]
    rfl
  · exact (decodeOutcome_trace _ _).trans htrace

end Sys2Proof.Machine
end

section
/-! The OAEP round trip (spec/42_mgf_oaep.md R273): decoding a block of OAEP_ENCODE finds the message, and the two
commands run one after the other hand the block over in BLK. -/

namespace Sys2Proof.Machine

/-! ## The codec in closed form -/

/-- Decoding inverts encoding under the same label, whatever the seed and the hash (42_mgf_oaep.md R273). -/
theorem decodedMessage_encodedBlock (B : Backend) (c : Params) (label message seed : Bytes)
    (hs : seed.length = c.hlen) (h : fits c message) :
    decodedMessage B c label (encodedBlock B c label message seed) = some message := by
  obtain ⟨hlen, hhead, hseed, hdb⟩ := encodedBlock_unmasks B c label message seed hs h
  obtain ⟨hhash, hrest⟩ := dataBlock_parts c (digest B c.hlen label) message (digest_length ..) h
  have hwide : 2 * c.hlen + 2 ≤ c.rfs := by unfold fits at h; omega
  refine (decodedMessage_eq_some_iff B c label _ message hlen hwide).2 ?_
  rw [hseed, hdb]
  exact ⟨hhash, hhead, _, hrest⟩

/-! ## What OutWrite hands to the next command (spec/20_memory.md R100) -/

section
variable (s : State) (t : Bytes)

theorem State.message_outWrite (h : t.length ≤ 1024) : (s.outWrite .msg t).message = t := by
  have hlen : (BitVec.ofNat 32 t.length).toNat = t.length := by rw [BitVec.toNat_ofNat]; omega
  rw [State.message, State.outWrite_msgLen, if_pos rfl, hlen]
  exact bufBytes_outWrite_same s .msg t h

theorem State.blkLen_outWrite_rfs (h : t.length = s.cfg.rfs) : (s.outWrite .blk t).blkLen.toNat = s.cfg.rfs := by
  have := rfs_le s.cfg
  rw [State.outWrite_blkLen, if_pos rfl, BitVec.toNat_ofNat]
  omega

theorem State.paddedBlock_outWrite (h : t.length = s.cfg.rfs) : (s.outWrite .blk t).paddedBlock = t := by
  have hcap : t.length ≤ bufCap := h ▸ rfs_le s.cfg
  rw [State.paddedBlock, s.blkLen_outWrite_rfs t h, State.outWrite_cfg, Nat.sub_self, ← h,
    bufBytes_outWrite_same s .blk t hcap]
  rfl

theorem State.labelBytes_outWrite_blk (h : s.lblLen.toNat ≤ 1024) : (s.outWrite .blk t).labelBytes = s.labelBytes :=
  bufBytes_outWrite_other s .blk .lbl t _ (by decide) h

end

/-! ## A whole run (spec/30_encoding.md R131) -/

theorem ceilDiv_le_self (a : Nat) {b : Nat} (hb : 1 ≤ b) : ceilDiv a b ≤ a := by
  have ha : a ≤ b * a := Nat.le_mul_of_pos_left a hb
  refine Nat.lt_succ_iff.1 (Nat.div_lt_of_lt_mul ?_)
  rw [Nat.mul_succ]
  omega

/-- Every OAEP_ENCODE and OAEP_DECODE has enough engine steps in `fetchGrant` (log 3). -/
theorem oaepRequests_le_fetchGrant (c : Params) :
    encodeRequests c ≤ fetchGrant ∧ decodeRequests c ≤ fetchGrant := by
  obtain ⟨-, -, hrfs, hh, hh'⟩ := params_bounds c
  have h1 := ceilDiv_le_self (dbLen c).toNat hh
  have h2 := ceilDiv_le_self c.hlen hh
  rw [dbLen_toNat] at h1
  simp only [encodeRequests, decodeRequests, mgfRequests, fetchGrant, dbLen_toNat]
  omega

/-- The state in which a command has been accepted and has its engine steps. -/
def State.started (s : State) (i : Instr) : State := (s.accept (encode i)).withGrant fetchGrant

theorem State.started_fsm (s : State) (i : Instr) : (s.started i).fsm = Fsm.run (.cmd i) :=
  s.accept_fsm_of_decodeWord (decodeWord_encode i)

/-- OAEP_ENCODE from acceptance to completion leaves a block of its message in BLK. -/
theorem runs_encode {s t : State} (hfits : s.msgLen.toNat + 2 * s.cfg.hlen + 2 ≤ s.cfg.rfs)
    (hl : s.lblLen.toNat ≤ 1024) (h : Runs .oaepEncode s t) :
    t.fsm = .idle ∧ t.cfg = s.cfg ∧ t.lblLen = s.lblLen ∧ t.labelBytes = s.labelBytes ∧
      t.blkLen.toNat = s.cfg.rfs ∧ ∃ seed, seed.length = s.cfg.hlen ∧
        t.paddedBlock = encodedBlock Config.backend s.cfg s.labelBytes s.message seed := by
  have hfits' := s.fits_message hfits
  let seed := randomBytes Config.backend s.rngPos s.cfg.hlen
  have hseed : seed.length = s.cfg.hlen := randomBytes_length ..
  have hlen := (encodedBlock_unmasks Config.backend s.cfg s.labelBytes s.message seed hseed hfits').1
  have hrun := exec_encode (s := s.started .oaepEncode) (s.started_fsm _) hfits hl (oaepRequests_le_fetchGrant _).1
  have ht : t = _ := Host.Outcome.next.inj (h.symm.trans hrun)
  subst ht
  exact ⟨rfl, rfl, rfl, s.labelBytes_outWrite_blk _ hl, s.blkLen_outWrite_rfs _ hlen, seed, hseed,
    s.paddedBlock_outWrite _ hlen⟩

/-- OAEP_DECODE from acceptance to completion writes the message it finds to MSG. -/
theorem runs_decode {t u : State} {m : Bytes} (hb : t.blkLen.toNat ≤ t.cfg.rfs) (hl : t.lblLen.toNat ≤ 1024)
    (hwide : 2 * t.cfg.hlen + 2 ≤ t.cfg.rfs) (hm : m.length ≤ 1024)
    (hfound : decodedMessage Config.backend t.cfg t.labelBytes t.paddedBlock = some m) (h : Runs .oaepDecode t u) :
    u.fsm = .idle ∧ u.status.err = .none ∧ u.status.ok = true ∧ u.message = m := by
  have hrun := exec_decode (s := t.started .oaepDecode) (t.started_fsm _) hb hl hwide (oaepRequests_le_fetchGrant _).2
  have hu : u = _ := Host.Outcome.next.inj (h.symm.trans hrun)
  have hfound' : decodedMessage Config.backend (t.started .oaepDecode).cfg (t.started .oaepDecode).labelBytes
    (t.started .oaepDecode).paddedBlock = some m := hfound
  rw [decodedState, hfound'] at hu
  subst hu
  exact ⟨rfl, rfl, rfl, (t.started .oaepDecode).message_outWrite m hm⟩

/-- Settles O43: OAEP_ENCODE leaves a block of the message in BLK (`runs_encode`), in which OAEP_DECODE finds the
message (`decodedMessage_encodedBlock`) and writes it (`runs_decode`). -/
theorem oaepRoundTrip : Obligations.OaepRoundTrip := by
  intro s t u hfits hl ht hu
  obtain ⟨hidle, hcfg, hlbl, hlabel, hblk, seed, hseed, hblock⟩ := runs_encode hfits hl ht
  have hfits' := s.fits_message hfits
  have hm : s.message.length ≤ 1024 := by
    have := rfs_le s.cfg
    rw [State.message_length]
    omega
  have hfound := decodedMessage_encodedBlock Config.backend s.cfg s.labelBytes s.message seed hseed hfits'
  obtain ⟨hidle', herr, hok, hmsg⟩ := runs_decode (by rw [hblk, hcfg]) (by rwa [hlbl]) (by rw [hcfg]; omega) hm
    (by rw [hcfg, hlabel, hblock]; exact hfound) hu
  exact ⟨hidle, hblk, hidle', herr, hok, hmsg⟩

end Sys2Proof.Machine
end

section
/-! Data independence of OAEP_DECODE (spec/42_mgf_oaep.md R272): two runs that differ in their data only make the same
moves, step by step. -/

namespace Sys2Proof.Machine

/-- Two step functions' runs from related states stay related, when related states are running or idle together. -/
theorem engineLoop_related {f : State → State} {R : State → State → Prop}
    (hidle : ∀ s s', R s s' → s.fsm.isIdle = s'.fsm.isIdle) (hf : ∀ s s', R s s' → R (f s) (f s')) (n : Nat)
    {s s' : State} (h : R s s') : R (engineLoop f n s) (engineLoop f n s') := by
  induction n generalizing s s' with
  | zero => exact h
  | succ n ih =>
    cases hs : s.fsm.isIdle with
    | true => rwa [engineLoop_idle _ _ _ hs, engineLoop_idle _ _ _ (hidle s s' h ▸ hs)]
    | false =>
      rw [engineLoop_succ _ _ _ hs, engineLoop_succ _ _ _ (hidle s s' h ▸ hs)]
      exact ih (hf s s' h)

theorem related_ite {α : Type} {R : α → α → Prop} {c c' : Prop} [Decidable c] [Decidable c'] {a b a' b' : α}
    (hc : c ↔ c') (ha : R a a') (hb : R b b') : R (if c then a else b) (if c' then a' else b') := by
  by_cases h : c
  · rwa [if_pos h, if_pos (hc.1 h)]
  · rwa [if_neg h, if_neg (mt hc.2 h)]

/-! ## States that differ in their data only -/

/-- The variables that OAEP_DECODE's next moves depend on: equal counters, and byte strings of equal lengths. -/
structure ScratchAlike (x x' : Scratch) : Prop where
  z : x.mgf.z.length = x'.mgf.z.length
  len : x.mgf.len = x'.mgf.len
  i : x.mgf.i = x'.mgf.i
  t : x.mgf.t.length = x'.mgf.t.length
  mSeed : x.oaep.mSeed.length = x'.oaep.mSeed.length
  mDB : x.oaep.mDB.length = x'.oaep.mDB.length

/-- Whether OAEP_DECODE makes one of its masks: from there on its variables hold what the command put in them. -/
def Fsm.isDecodeMask : Fsm → Bool
  | .oaepDecode (.seedMask _) => true
  | .oaepDecode (.dbMask _) => true
  | _ => false

/-- Two states of OAEP_DECODE that are alike but for the data: the FSM's point, the shapes of the requests and the
public lengths agree; both blocks pass R260's check. -/
structure DecodeAlike (s s' : State) : Prop where
  cfg : s.cfg = s'.cfg
  lblLen : s.lblLen = s'.lblLen
  fsm : s.fsm = s'.fsm
  trace : s.trace.map Request.shape = s'.trace.map Request.shape
  scratch : s.fsm.isDecodeMask = true → ScratchAlike s.scratch s'.scratch
  block : s.blkLen.toNat ≤ s.cfg.rfs
  block' : s'.blkLen.toNat ≤ s'.cfg.rfs

namespace DecodeAlike

variable {B : Backend} {s s' : State}

theorem issue (h : DecodeAlike s s') {r r' : Request} (hr : r.shape = r'.shape) :
    DecodeAlike (s.issue B r) (s'.issue B r') :=
  { h with trace := by simp [h.trace, hr] }

theorem moveTo (h : DecodeAlike s s') (f : Fsm) {x x' : Scratch}
    (hx : f.isDecodeMask = true → ScratchAlike x x') :
    DecodeAlike { s with fsm := f, scratch := x } { s' with fsm := f, scratch := x' } :=
  { h with fsm := rfl, scratch := hx }

theorem complete (h : DecodeAlike s s') (c c' : Code) : DecodeAlike (s.complete c) (s'.complete c') :=
  { h with fsm := rfl, scratch := nofun }

/-- The message found is data. -/
theorem outWrite_msg (h : DecodeAlike s s') (m m' : Bytes) :
    DecodeAlike (s.outWrite .msg m) (s'.outWrite .msg m') :=
  { h with }

theorem outcome (h : DecodeAlike s s') (r r' : Option Bytes) :
    DecodeAlike (decodeOutcome r s) (decodeOutcome r' s') := by
  cases r <;> cases r' <;> exact (h.outWrite_msg _ _).complete _ _

end DecodeAlike

/-! ## One engine step of OAEP_DECODE -/

theorem State.labelBytes_length (s : State) : s.labelBytes.length = s.lblLen.toNat := readBytes_length _ _ _

section
variable (B : Backend) {s s' : State} (h : DecodeAlike s s')

section
include h

theorem decodeLabelled_alike (t t' : Bytes) : DecodeAlike (decodeLabelled t s) (decodeLabelled t' s') := by
  have hlen : s.paddedBlock.length = s'.paddedBlock.length := by
    rw [s.paddedBlock_length h.block, s'.paddedBlock_length h.block', h.cfg]
  refine h.moveTo _ fun _ => ⟨?_, ?_, rfl, rfl, ?_, ?_⟩
  · simp [mgfInit, hlen, h.cfg]
  · simp [mgfInit, h.cfg]
  · simp [hlen, h.cfg]
  · simp [hlen, h.cfg]

theorem labelStep_alike (p : HashPoint) :
    DecodeAlike (hashStep B (fun p => .oaepDecode (.label p)) s.labelBytes decodeLabelled p s)
      (hashStep B (fun p => .oaepDecode (.label p)) s'.labelBytes decodeLabelled p s') := by
  cases p with
  | absorb =>
    have hlabel : s.labelBytes.length = s'.labelBytes.length := by
      rw [State.labelBytes_length, State.labelBytes_length, h.lblLen]
    exact (h.issue (by simp [Request.shape, hlabel])).moveTo _ nofun
  | final => exact decodeLabelled_alike (h.issue rfl) _ _

end

/-- A local computation of OAEP_DECODE that keeps states alike, for masks of equal lengths. -/
def KeepsAlike (finish : Bytes → State → State) : Prop :=
  ∀ t t' s s', t.length = t'.length → DecodeAlike s s' → ScratchAlike s.scratch s'.scratch →
    DecodeAlike (finish t s) (finish t' s')

theorem decodeSeedFound_alike : KeepsAlike decodeSeedFound := by
  intro t t' s s' ht h hx
  have hseed : (xorBytes t s.scratch.oaep.mSeed).length = (xorBytes t' s'.scratch.oaep.mSeed).length := by
    rw [xorBytes_length, xorBytes_length, ht, hx.mSeed]
  refine h.moveTo _ fun _ => ⟨hseed, ?_, rfl, rfl, hx.mSeed, hx.mDB⟩
  simp [mgfInit, h.cfg]

theorem decodeFinish_alike : KeepsAlike decodeFinish := fun _ _ _ _ _ h _ => h.outcome _ _

include h

theorem mgfStep_alike (hx : ScratchAlike s.scratch s'.scratch) (at_ : MgfPoint → Fsm)
    {finish : Bytes → State → State} (hf : KeepsAlike finish) (p : MgfPoint) :
    DecodeAlike (mgfStep B at_ finish p s) (mgfStep B at_ finish p s') := by
  have ⟨hz, hlen, hi, ht, hmSeed, hmDB⟩ := hx
  cases p with
  | init => exact (h.issue rfl).moveTo _ fun _ => hx
  | absorb => exact (h.issue (by simp [Request.shape, hz])).moveTo _ fun _ => hx
  | absorbInt => exact (h.issue (by rw [hi])).moveTo _ fun _ => hx
  | final =>
    have hblock : (s.scratch.mgf.t ++ s.answer B .hashFinal).length =
        (s'.scratch.mgf.t ++ s'.answer B .hashFinal).length := by
      simp [State.answer_hashFinal, ht, h.cfg]
    refine related_ite (by rw [hi, hlen, h.cfg]) ?_ (hf _ _ _ _ ?_ (h.issue rfl) hx)
    · exact (h.issue rfl).moveTo _ fun _ => ⟨hz, hlen, congrArg (· + 1) hi, hblock, hmSeed, hmDB⟩
    · rw [List.length_take, List.length_take, hblock, hlen]

theorem decodeStep_alike : DecodeAlike (decodeStep B s) (decodeStep B s') := by
  have hfsm := h.fsm
  have hx := h.scratch
  cases hs : s.fsm with
  | oaepDecode pt =>
    rw [hs] at hfsm hx
    simp only [decodeStep, hs, ← hfsm]
    cases pt with
    | start =>
      have hbad : s.cfg.rfs < s.blkLen.toNat ∨ bufCap < s.lblLen.toNat ↔
          s'.cfg.rfs < s'.blkLen.toNat ∨ bufCap < s'.lblLen.toNat := by
        rw [or_iff_right (Nat.not_lt.2 h.block), or_iff_right (Nat.not_lt.2 h.block'), h.lblLen]
      refine related_ite hbad (h.complete _ _) (related_ite (by rw [h.cfg]) ?_ ?_)
      · exact (h.outWrite_msg _ _).complete _ _
      · exact (h.issue rfl).moveTo _ nofun
    | label p => exact labelStep_alike B h p
    | seedMask p => exact mgfStep_alike B h (hx rfl) _ decodeSeedFound_alike p
    | dbMask p => exact mgfStep_alike B h (hx rfl) _ decodeFinish_alike p
  | _ =>
    rw [hs] at hfsm
    simp only [decodeStep, hs, ← hfsm]
    exact h

end

/-- Settles O42: the start states are alike but for the data, and every engine step keeps them so
(`decodeStep_alike`). -/
theorem oaepDecodeTraceIsDataIndependent : Obligations.OaepDecodeTraceIsDataIndependent := by
  intro s s' t t' hs hs' hcfg hlbl hg htr htr' hb hb' _ _ ht ht'
  have hstart : DecodeAlike s s' :=
    { cfg := hcfg, lblLen := hlbl, fsm := by rw [hs, hs'], trace := by rw [htr, htr'], scratch := by rw [hs]; nofun
      block := hb, block' := hb' }
  have hend := engineLoop_related (fun _ _ h => congrArg Fsm.isIdle h.fsm)
    (fun _ _ h => decodeStep_alike Config.backend h) s.grant hstart
  rw [exec_eq, runGranted] at ht ht'
  cases ht
  cases ht'
  rw [← hg]
  exact ⟨hend.fsm, hend.trace⟩

end Sys2Proof.Machine
end

section
/-! The number theory of the CRT schedule (spec/43_rsa_crt.md R310, R311, R315, R316): what steps 4 and 5 compute
modulo each prime, and why steps 2 to 5 undo the public-key operation. -/

namespace Sys2Proof.Machine

/-! ## Steps 4 and 5 (spec/43_rsa_crt.md R310, R311) -/

/-- What step 4 leaves in `jq`: the difference of step 3's values modulo `q`, in `0..q` (43_rsa_crt.md R310). -/
def crtDifference (q jp jq : Nat) : Nat := (if jq < jp % q then jq + q else jq) - jp % q

section
variable {p q : Nat} (c jp jq : Nat)

theorem crtCombine_eq : crtCombine p q c jp jq = crtDifference q jp jq * c % q * p + jp := rfl

/-- The adjustment of R310 keeps the difference exact: the subtraction never cuts at 0. -/
theorem crtDifference_add_modEq (hq : 0 < q) : crtDifference q jp jq + jp ≡ jq [MOD q] := by
  have ha : jp % q < q := Nat.mod_lt _ hq
  have hdiff : crtDifference q jp jq + jp % q = if jq < jp % q then jq + q else jq := by
    unfold crtDifference
    split <;> omega
  calc crtDifference q jp jq + jp
      ≡ crtDifference q jp jq + jp % q [MOD q] := (Nat.mod_modEq jp q).symm.add_left _
    _ = if jq < jp % q then jq + q else jq := hdiff
    _ ≡ jq [MOD q] := by
        split
        · exact Nat.add_mod_right jq q
        · rfl

theorem crtCombine_modEq_left : crtCombine p q c jp jq ≡ jp [MOD p] :=
  Nat.mul_add_mod_self_right _ p jp

theorem crtCombine_modEq_right (hq : 0 < q) (hc : c * p ≡ 1 [MOD q]) : crtCombine p q c jp jq ≡ jq [MOD q] := by
  calc crtCombine p q c jp jq
      = crtDifference q jp jq * c % q * p + jp := crtCombine_eq c jp jq
    _ ≡ crtDifference q jp jq * c * p + jp [MOD q] := ((Nat.mod_modEq _ q).mul_right p).add_right jp
    _ = crtDifference q jp jq * (c * p) + jp := by rw [mul_assoc]
    _ ≡ crtDifference q jp jq * 1 + jp [MOD q] := (hc.mul_left _).add_right jp
    _ = crtDifference q jp jq + jp := by rw [mul_one]
    _ ≡ jq [MOD q] := crtDifference_add_modEq jp jq hq

/-- R311: the result is already reduced. -/
theorem crtCombine_lt (hq : 0 < q) (hjp : jp < p) : crtCombine p q c jp jq < p * q := by
  have hh : crtDifference q jp jq * c % q < q := Nat.mod_lt _ hq
  calc crtCombine p q c jp jq
      < crtDifference q jp jq * c % q * p + p := Nat.add_lt_add_left hjp _
    _ = (crtDifference q jp jq * c % q + 1) * p := (Nat.succ_mul _ p).symm
    _ ≤ q * p := Nat.mul_le_mul_right p hh
    _ = p * q := Nat.mul_comm q p

end

/-- R316: `g` enters the schedule only through `g mod p` and `g mod q`. -/
theorem crtResult_mod (g p q dp dq c : Nat) : crtResult (g % (p * q)) p q dp dq c = crtResult g p q dp dq c := by
  rw [crtResult, Nat.mod_mul_right_mod, Nat.mod_mul_left_mod]
  rfl

/-! ## CRT correctness (spec/43_rsa_crt.md R315) -/

/-- The key of R315, as numbers: laws 1, 4 and 5 of 41_key_fsm.md R216, with the exponents modulo `x - 1`. -/
structure CrtKey (p q e dp dq c : Nat) : Prop where
  prime_p : p.Prime
  prime_q : q.Prime
  distinct : p ≠ q
  odd_p : p % 2 = 1
  odd_q : q % 2 = 1
  exponent_p : e * dp % (p - 1) = 1 % (p - 1)
  exponent_q : e * dq % (q - 1) = 1 % (q - 1)
  coefficient : c * p % q = 1

/-- Fermat's little theorem, also where the prime divides `x` (43_rsa_crt.md R315). -/
theorem pow_modEq_self_of_prime {p n : Nat} (hp : p.Prime) (hodd : p % 2 = 1) (hn : n % (p - 1) = 1 % (p - 1))
    (x : Nat) : x ^ n ≡ x [MOD p] := by
  have hp2 := hp.two_le
  have : Fact p.Prime := ⟨hp⟩
  obtain ⟨k, rfl⟩ : ∃ k, n = 1 + (p - 1) * k := by
    have hdiv := Nat.mod_add_div n (p - 1)
    rw [hn, Nat.mod_eq_of_lt (show 1 < p - 1 by omega)] at hdiv
    exact ⟨_, hdiv.symm⟩
  rw [← ZMod.natCast_eq_natCast_iff]
  push_cast
  by_cases hx : (x : ZMod p) = 0
  · simp [hx, pow_add]
  · rw [pow_add, pow_mul, ZMod.pow_card_sub_one_eq_one hx, one_pow, pow_one, mul_one]

/-- Steps 2 and 3 for one prime undo the public-key operation modulo that prime. -/
theorem halfDecrypt_eq {p n e d : Nat} (hp : p.Prime) (hodd : p % 2 = 1) (hd : e * d % (p - 1) = 1 % (p - 1))
    (hdvd : p ∣ n) (f : Nat) : (f ^ e % n % p) ^ d % p = f % p := by
  rw [Nat.mod_mod_of_dvd _ hdvd, ← Nat.pow_mod, ← pow_mul]
  exact pow_modEq_self_of_prime hp hodd hd f

/-- R315: the schedule inverts `f ↦ f^e mod p q`, by the Chinese remainder theorem. -/
theorem CrtKey.crtResult_pow {p q e dp dq c f : Nat} (key : CrtKey p q e dp dq c) (hf : f < p * q) :
    crtResult (f ^ e % (p * q)) p q dp dq c = f := by
  have hcoprime : Nat.Coprime p q := (Nat.coprime_primes key.prime_p key.prime_q).2 key.distinct
  have hc : c * p ≡ 1 [MOD q] := key.coefficient.trans (Nat.mod_eq_of_lt key.prime_q.one_lt).symm
  rw [crtResult, halfDecrypt_eq key.prime_p key.odd_p key.exponent_p (Nat.dvd_mul_right p q) f,
    halfDecrypt_eq key.prime_q key.odd_q key.exponent_q (Nat.dvd_mul_left q p) f]
  have hmod : crtCombine p q c (f % p) (f % q) ≡ f [MOD p * q] :=
    (Nat.modEq_and_modEq_iff_modEq_mul hcoprime).1
      ⟨(crtCombine_modEq_left c _ _).trans (Nat.mod_modEq f p),
        (crtCombine_modEq_right c _ _ key.prime_q.pos hc).trans (Nat.mod_modEq f q)⟩
  exact hmod.eq_of_lt_of_lt (crtCombine_lt c _ _ key.prime_q.pos (Nat.mod_lt _ key.prime_p.pos)) hf

end Sys2Proof.Machine
end

section
/-! RSA_ENCRYPT and RSA_DECRYPT as whole commands (spec/43_rsa_crt.md R302, R303, R306 to R317). -/

namespace Sys2Proof.Machine

/-! ## The key's values (spec/10_state.md R46, R47) -/

theorem State.keyBytes_eq (s : State) (k : KeyField) : s.keyBytes k = s.bufBytes k.buf (k.width s.cfg) := by
  cases k <;> rfl

theorem State.keyValue_lt (s : State) (k : KeyField) : s.keyValue k < 256 ^ k.width s.cfg := by
  have hlt := fromBytes_lt (s.keyBytes k)
  rwa [s.keyBytes_eq, State.bufBytes, readBytes_length, ← State.bufBytes, ← s.keyBytes_eq] at hlt

theorem State.keyValue_congr {s t : State} {k : KeyField} (hcfg : t.cfg = s.cfg)
    (h : t.bufBytes k.buf (k.width s.cfg) = s.bufBytes k.buf (k.width s.cfg)) : t.keyValue k = s.keyValue k := by
  rw [State.keyValue, t.keyBytes_eq, hcfg, h, ← s.keyBytes_eq]
  rfl

theorem KeyField.width_of_ne_n (c : Params) {k : KeyField} (h : k ≠ .n) : k.width c = hrfs c := by
  cases k
  case n => exact absurd rfl h
  all_goals rfl

theorem KeyField.width_le (c : Params) (k : KeyField) : k.width c ≤ 1024 := by
  have hrfs := rfs_le c
  cases k
  case n => exact hrfs
  all_goals exact (Nat.div_le_self c.rfs 2).trans hrfs

/-- R315: the product of the two primes fits the block, so that TOBYTES never drops a high part. -/
theorem State.modulus_lt (s : State) : s.keyValue .p * s.keyValue .q < 256 ^ s.cfg.rfs := by
  calc s.keyValue .p * s.keyValue .q
      < 256 ^ hrfs s.cfg * 256 ^ hrfs s.cfg := Nat.mul_lt_mul'' (s.keyValue_lt .p) (s.keyValue_lt .q)
    _ = 256 ^ s.cfg.rfs := by rw [← pow_add, ← two_mul, two_hrfs]

/-! ## The block that a cipher command writes -/

/-- BLKLEN stays RFS when the block is written (20_memory.md R100). -/
theorem State.outWrite_blk_toBytes {s : State} (hb : s.blkLen.toNat = s.cfg.rfs) (x : Nat) :
    s.outWrite .blk (toBytes x s.cfg.rfs) =
      { s.outWrite .blk (toBytes x s.cfg.rfs) with blkLen := s.blkLen } :=
  State.outWrite_blk_of_length (by rw [toBytes_length, ← hb, BitVec.ofNat_toNat, BitVec.setWidth_eq])

theorem State.block_outWrite (s : State) {t : Bytes} (h : t.length = s.cfg.rfs) : (s.outWrite .blk t).block = t := by
  have hcap : t.length ≤ bufCap := h ▸ rfs_le s.cfg
  rw [State.block, State.outWrite_cfg, ← h]
  exact bufBytes_outWrite_same s .blk t hcap

/-- The whole of a buffer after OutWrite is the image that was written. -/
theorem State.bufBytes_outWrite_bufCap (s : State) (b : Buf) {t : Bytes} (ht : t.length ≤ bufCap) :
    (s.outWrite b t).bufBytes b bufCap = outImage t := by
  refine List.ext_getElem (by rw [State.bufBytes, readBytes_length, outImage_length]) fun k hk hk' => ?_
  rw [outImage_length] at hk'
  simp only [State.bufBytes, readBytes, List.getElem_map, List.getElem_range]
  rw [readByte_outWrite s b t ht, if_pos ⟨by omega, by omega⟩, Nat.add_sub_cancel_left, outImage_getElem t k _ ht]

/-! ## RSA_ENCRYPT -/

/-- RSA_ENCRYPT completed, when MODEXP answers `y` and draws `d` free values (43_rsa_crt.md R302). -/
def encryptedState (s : State) (y d : Nat) : State :=
  { (s.outWrite .blk (toBytes y s.cfg.rfs)).complete .none with
    blkLen := s.blkLen
    trace := s.trace ++ [.fromBytes s.block, .fromBytes (s.keyBytes .n),
      .modExp (fromBytes s.block) s.e.toNat (s.keyValue .n), .toBytes y s.cfg.rfs]
    drawPos := s.drawPos + d }

section
variable (B : Backend) (s : State) (k : KeyScratch) (x : RsaScratch) (tr : List Request)

theorem encryptStep_readN :
    encryptStep B (rsaAt s (.rsaEncrypt .readN) k x tr) =
      rsaAt s (.rsaEncrypt .modExp) { k with nv := s.keyValue .n } x (tr ++ [.fromBytes (s.keyBytes .n)]) := by
  simp only [rsaAt, ← List.append_assoc]
  rfl

theorem encryptStep_modExp :
    let r := Request.modExp x.f s.e.toNat k.nv
    encryptStep B (rsaAt s (.rsaEncrypt .modExp) k x tr) =
      rsaAt { s with drawPos := s.drawPos + r.draws } (.rsaEncrypt .serialize) k { x with y := s.answer B r }
        (tr ++ [r]) := by
  simp only [rsaAt, ← List.append_assoc]
  rfl

theorem encryptStep_serialize (hb : s.blkLen.toNat = s.cfg.rfs) :
    encryptStep B (rsaAt s (.rsaEncrypt .serialize) k x tr) =
      { (s.outWrite .blk (toBytes x.y s.cfg.rfs)).complete .none with
        blkLen := s.blkLen, trace := s.trace ++ (tr ++ [.toBytes x.y s.cfg.rfs]) } := by
  have hstep : encryptStep B (rsaAt s (.rsaEncrypt .serialize) k x tr) =
      { (s.outWrite .blk (toBytes x.y s.cfg.rfs)).complete .none with
        trace := s.trace ++ (tr ++ [.toBytes x.y s.cfg.rfs]) } := by
    rw [← List.append_assoc]
    rfl
  rw [hstep, State.outWrite_blk_toBytes hb]
  rfl

end

section
variable {s : State} (hs : s.fsm = .rsaEncrypt .start) (hb : s.blkLen.toNat = s.cfg.rfs) (hn : s.keyValue .n ≠ 0)
include hs hb hn

theorem encryptStep_start (B : Backend) :
    encryptStep B s =
      rsaAt s (.rsaEncrypt .readN) s.scratch.key { s.scratch.rsa with f := fromBytes s.block }
        [.fromBytes s.block] := by
  have hz : ¬ allZero (s.keyBytes .n) = true := by rwa [allZero_iff]
  simp only [encryptStep, hs]
  rw [if_neg (not_not.2 hb), if_neg hz]
  rfl

/-- RSA_ENCRYPT completes after its four requests, whatever MODEXP answers. -/
theorem engineLoop_encrypt (B : Backend) :
    let modExp := Request.modExp (fromBytes s.block) s.e.toNat (s.keyValue .n)
    engineLoop (encryptStep B) 4 s = encryptedState s (s.answer B modExp) modExp.draws := by
  rw [engineLoop_step _ 3 (by rw [hs]; rfl) (encryptStep_start hs hb hn B),
    engineLoop_step _ 2 rfl (encryptStep_readN ..), engineLoop_step _ 1 rfl (encryptStep_modExp ..)]
  exact engineLoop_step _ 0 rfl (encryptStep_serialize _ _ _ _ _ hb)

variable (hg : 4 ≤ s.grant)
include hg

/-- RSA_ENCRYPT with enough engine steps granted. -/
theorem exec_encrypt :
    let modExp := Request.modExp (fromBytes s.block) s.e.toNat (s.keyValue .n)
    exec .rsaEncrypt s =
      .next ((encryptedState s (s.answer Config.backend modExp) modExp.draws).withGrant 0) :=
  exec_of_completed .rsaEncrypt (engineLoop_encrypt hs hb hn Config.backend) rfl hg

omit hn in
/-- R303: in its domain MODEXP answers the power and draws nothing. -/
theorem exec_encrypt_inDomain (hlt : fromBytes s.block < s.keyValue .n) (hodd : s.keyValue .n % 2 = 1) :
    exec .rsaEncrypt s =
      .next ((encryptedState s (fromBytes s.block ^ s.e.toNat % s.keyValue .n) 0).withGrant 0) := by
  have hdraws : (Request.modExp (fromBytes s.block) s.e.toNat (s.keyValue .n)).draws = 0 := if_pos ⟨hodd, hlt⟩
  rw [exec_encrypt hs hb (by omega) hg, State.answer_modExp _ s _ hodd hlt, hdraws]

/-- R303: outside its domain MODEXP answers some value and draws it. -/
theorem exec_encrypt_outOfDomain (hout : s.keyValue .n % 2 = 0 ∨ s.keyValue .n ≤ fromBytes s.block) :
    ∃ y, exec .rsaEncrypt s = .next ((encryptedState s y 1).withGrant 0) := by
  have hdraws : (Request.modExp (fromBytes s.block) s.e.toNat (s.keyValue .n)).draws = 1 := if_neg (by omega)
  exact ⟨_, by rw [exec_encrypt hs hb hn hg, hdraws]⟩

end

/-- Settles O44: the run is `exec_encrypt_inDomain`. -/
theorem rsaEncryptIsModularExponentiation : Obligations.RsaEncryptIsModularExponentiation := by
  intro s hs hb hg f n y hlt hodd
  exact exec_encrypt_inDomain hs hb hg hlt hodd

/-- Settles O45: the run is `exec_encrypt_outOfDomain`. -/
theorem rsaEncryptOutOfDomainStillCompletes : Obligations.RsaEncryptOutOfDomainStillCompletes := by
  intro s hs hb hg f n hn hout
  exact exec_encrypt_outOfDomain hs hb hn hg hout

/-! ## RSA_DECRYPT -/

/-- RSA_DECRYPT completed, when step 3 answers `jp` and `jq` (43_rsa_crt.md R306 to R314). -/
def decryptedState (s : State) (jp jq : Nat) : State :=
  { (s.outWrite .blk (toBytes (crtCombine (s.keyValue .p) (s.keyValue .q) (s.keyValue .c) jp jq) s.cfg.rfs)).complete
      .none with
    blkLen := s.blkLen
    trace := s.trace ++ decryptTraceFrom s.block (s.keyBytes .p) (s.keyBytes .q) (s.keyBytes .dp) (s.keyBytes .dq)
      (s.keyBytes .c) s.cfg.rfs (fromBytes s.block) (s.keyValue .p) (s.keyValue .q) (s.keyValue .dp) (s.keyValue .dq)
      (s.keyValue .c) jp jq
    drawPos := s.drawPos + (1 - s.keyValue .p % 2) + (1 - s.keyValue .q % 2)
    grant := 0 }

/-- RSA_DECRYPT with enough engine steps granted; step 3 is exact for an odd modulus. -/
theorem exec_decrypt {s : State} (hs : s.fsm = .rsaDecrypt .start) (hb : s.blkLen.toNat = s.cfg.rfs)
    (hg : 19 ≤ s.grant) (hp : s.keyValue .p ≠ 0) (hq : s.keyValue .q ≠ 0) :
    ∃ jp jq,
      (s.keyValue .p % 2 = 1 → jp = (fromBytes s.block % s.keyValue .p) ^ s.keyValue .dp % s.keyValue .p) ∧
      (s.keyValue .q % 2 = 1 → jq = (fromBytes s.block % s.keyValue .q) ^ s.keyValue .dq % s.keyValue .q) ∧
      exec .rsaDecrypt s = .next (decryptedState s jp jq) := by
  obtain ⟨n, hn, hrun⟩ := decrypt_run Config.backend s hs hb rfl rfl hp hq
  refine ⟨stepThree Config.backend s.drawPos (fromBytes s.block % s.keyValue .p) (s.keyValue .dp) (s.keyValue .p),
    stepThree Config.backend (s.drawPos + (1 - s.keyValue .p % 2)) (fromBytes s.block % s.keyValue .q)
      (s.keyValue .dq) (s.keyValue .q),
    fun h => if_pos h, fun h => if_pos h, (exec_of_completed .rsaDecrypt hrun rfl (hn.trans hg)).trans ?_⟩
  rw [State.outWrite_blk_toBytes hb]
  rfl

/-- Settles O47: the run is `exec_decrypt`, where step 3 may answer any value for an even modulus. -/
theorem rsaDecryptNeverFailsOnItsOwn : Obligations.RsaDecryptNeverFailsOnItsOwn := by
  intro s hs hb hg half g p q dp dq c hp hq
  exact exec_decrypt hs hb hg hp hq

/-! ## RSA_DECRYPT with odd moduli: every request is in its domain -/

/-- The value that the CRT schedule computes from the block and the key in a state. -/
def State.plainValue (s : State) : Nat :=
  crtResult (fromBytes s.block) (s.keyValue .p) (s.keyValue .q) (s.keyValue .dp) (s.keyValue .dq) (s.keyValue .c)

/-- RSA_DECRYPT completed with odd `p` and `q` (43_rsa_crt.md R306 to R314). -/
def plainState (s : State) : State :=
  { (s.outWrite .blk (toBytes s.plainValue s.cfg.rfs)).complete .none with
    blkLen := s.blkLen
    trace := s.trace ++ decryptTrace s.block (s.keyBytes .p) (s.keyBytes .q) (s.keyBytes .dp) (s.keyBytes .dq)
      (s.keyBytes .c) s.cfg.rfs (fromBytes s.block) (s.keyValue .p) (s.keyValue .q) (s.keyValue .dp) (s.keyValue .dq)
      (s.keyValue .c)
    grant := 0 }

theorem exec_decrypt_odd {s : State} (hs : s.fsm = .rsaDecrypt .start) (hb : s.blkLen.toNat = s.cfg.rfs)
    (hg : 19 ≤ s.grant) (hp : s.keyValue .p % 2 = 1) (hq : s.keyValue .q % 2 = 1) :
    exec .rsaDecrypt s = .next (plainState s) := by
  obtain ⟨jp, jq, hjp, hjq, hrun⟩ := exec_decrypt hs hb hg (by omega) (by omega)
  rw [hrun, hjp hp, hjq hq, decryptedState, hp, hq]
  rfl

theorem plainState_block (s : State) : (plainState s).block = toBytes s.plainValue s.cfg.rfs :=
  s.block_outWrite (toBytes_length ..)

theorem plainState_blk_image (s : State) :
    (plainState s).bufBytes .blk 1024 = outImage (toBytes s.plainValue s.cfg.rfs) :=
  s.bufBytes_outWrite_bufCap .blk (by rw [toBytes_length]; exact rfs_le s.cfg)

/-- Settles O46: the run is `exec_decrypt_odd`. -/
theorem rsaDecryptRunsTheCrtSchedule : Obligations.RsaDecryptRunsTheCrtSchedule := by
  intro s hs hb hg half g p q dp dq c hp hq
  exact exec_decrypt_odd hs hb hg hp hq

/-- Settles O49: both runs write the value of the schedule, which is the same by `crtResult_mod`. -/
theorem decryptionDependsOnCiphertextModN : Obligations.DecryptionDependsOnCiphertextModN := by
  intro s s' hs hs' hcfg hb hb' hg hg' half p q hkey hp hq hblock
  have hvalue : ∀ k, k ≠ KeyField.n → s'.keyValue k = s.keyValue k := by
    intro k hk
    have hmem : k.buf ∈ [Buf.p, .q, .dp, .dq, .c] := by
      cases k
      case n => exact absurd rfl hk
      all_goals decide
    refine State.keyValue_congr hcfg.symm ?_
    rw [KeyField.width_of_ne_n _ hk]
    exact (hkey k.buf hmem).symm
  have hplain : s'.plainValue = s.plainValue := by
    rw [State.plainValue, hvalue .p nofun, hvalue .q nofun, hvalue .dp nofun, hvalue .dq nofun, hvalue .c nofun, hblock]
    exact crtResult_mod ..
  refine ⟨_, _, exec_decrypt_odd hs hb hg hp hq,
    exec_decrypt_odd hs' hb' hg' (by rwa [hvalue .p nofun]) (by rwa [hvalue .q nofun]), ?_, ?_,
    rfl, rfl, rfl, rfl, rfl, rfl⟩
  · rw [plainState_blk_image, plainState_blk_image, hplain, hcfg]
  · exact BitVec.eq_of_toNat_eq (by rw [plainState, plainState, hb, hb', hcfg])

/-! ## Decryption inverts encryption (spec/43_rsa_crt.md R315) -/

/-- The CRT key in a state belongs to the public exponent `e`. -/
def State.HasCrtKey (s : State) (e : Nat) : Prop :=
  CrtKey (s.keyValue .p) (s.keyValue .q) e (s.keyValue .dp) (s.keyValue .dq) (s.keyValue .c)

theorem State.plainValue_of_key {s : State} {e f : Nat} (key : s.HasCrtKey e)
    (hf : f < s.keyValue .p * s.keyValue .q)
    (hblock : s.block = toBytes (f ^ e % (s.keyValue .p * s.keyValue .q)) s.cfg.rfs) : s.plainValue = f := by
  have hlt : f ^ e % (s.keyValue .p * s.keyValue .q) < 256 ^ s.cfg.rfs :=
    (Nat.mod_lt _ (Nat.zero_lt_of_lt hf)).trans s.modulus_lt
  rw [State.plainValue, hblock, fromBytes_toBytes_of_lt hlt]
  exact key.crtResult_pow hf

/-- Settles O48: the schedule's value is `f` by `CrtKey.crtResult_pow`. -/
theorem rsaDecryptInvertsEncryption : Obligations.RsaDecryptInvertsEncryption := by
  intro s e f hs hb hg half p q hp hq hne hpo hqo hdp hdq hc hf hblock
  have key : s.HasCrtKey e := ⟨hp, hq, hne, hpo, hqo, hdp, hdq, hc⟩
  refine ⟨_, exec_decrypt_odd hs hb hg hpo hqo, rfl, rfl, ?_, hb⟩
  rw [plainState_block, State.plainValue_of_key key hf hblock]

end Sys2Proof.Machine
end

section
/-! The cipher round trip, and the sequence of all four commands (spec/43_rsa_crt.md R318, spec/30_encoding.md R131):
what each command hands to the next in BLK, and that no command of the sequence touches the key or the label. -/

namespace Sys2Proof.Machine

/-! ## What commands that write BLK leave in place -/

/-- The later state has the build parameters, E, LBLLEN and every region but BLK of the earlier one. -/
structure KeepsOperands (s t : State) : Prop where
  cfg : t.cfg = s.cfg
  e : t.e = s.e
  lblLen : t.lblLen = s.lblLen
  bufBytes : ∀ b len, b ≠ .blk → len ≤ bufCap → t.bufBytes b len = s.bufBytes b len

namespace KeepsOperands
variable {s t u : State}

theorem trans (h : KeepsOperands s t) (h' : KeepsOperands t u) : KeepsOperands s u :=
  ⟨h'.cfg.trans h.cfg, h'.e.trans h.e, h'.lblLen.trans h.lblLen,
    fun b len hb hl => (h'.bufBytes b len hb hl).trans (h.bufBytes b len hb hl)⟩

/-- A command whose only output is BLK. -/
theorem of_outWrite {x : Bytes} (hcfg : t.cfg = s.cfg) (he : t.e = s.e) (hl : t.lblLen = s.lblLen)
    (hm : t.mem = (s.outWrite .blk x).mem) : KeepsOperands s t := by
  refine ⟨hcfg, he, hl, fun b len hb hlen => ?_⟩
  rw [← bufBytes_outWrite_other s .blk b x len hb.symm hlen, State.bufBytes, hm]
  rfl

theorem keyValue (h : KeepsOperands s t) (k : KeyField) : t.keyValue k = s.keyValue k := by
  refine State.keyValue_congr h.cfg (h.bufBytes _ _ ?_ (k.width_le s.cfg))
  cases k <;> decide

theorem labelBytes (h : KeepsOperands s t) (hl : s.lblLen.toNat ≤ 1024) : t.labelBytes = s.labelBytes := by
  rw [State.labelBytes, h.lblLen]
  exact h.bufBytes .lbl _ (by decide) hl

end KeepsOperands

/-! ## Each command from acceptance to completion -/

theorem Runs.eq_of_exec {i : Instr} {s t u : State} (h : Runs i s t) (hu : exec i (s.started i) = .next u) : t = u :=
  Host.Outcome.next.inj (h.symm.trans hu)

theorem runs_encode_keepsOperands {s t : State} (hfits : s.msgLen.toNat + 2 * s.cfg.hlen + 2 ≤ s.cfg.rfs)
    (hl : s.lblLen.toNat ≤ 1024) (h : Runs .oaepEncode s t) : KeepsOperands s t := by
  obtain rfl := h.eq_of_exec (exec_encode (s.started_fsm _) hfits hl (oaepRequests_le_fetchGrant _).1)
  exact .of_outWrite rfl rfl rfl rfl

theorem runs_encrypt {s t : State} (hb : s.blkLen.toNat = s.cfg.rfs) (hlt : fromBytes s.block < s.keyValue .n)
    (hodd : s.keyValue .n % 2 = 1) (h : Runs .rsaEncrypt s t) :
    KeepsOperands s t ∧ t.status.err = .none ∧ t.blkLen = s.blkLen ∧
      t.block = toBytes (fromBytes s.block ^ s.e.toNat % s.keyValue .n) s.cfg.rfs := by
  obtain rfl := h.eq_of_exec (exec_encrypt_inDomain (s.started_fsm _) hb (show 4 ≤ fetchGrant by decide) hlt hodd)
  exact ⟨.of_outWrite rfl rfl rfl rfl, rfl, rfl, s.block_outWrite (toBytes_length ..)⟩

theorem runs_decrypt {s t : State} (hb : s.blkLen.toNat = s.cfg.rfs) (hp : s.keyValue .p % 2 = 1)
    (hq : s.keyValue .q % 2 = 1) (h : Runs .rsaDecrypt s t) :
    KeepsOperands s t ∧ t.fsm = .idle ∧ t.status.err = .none ∧ t.blkLen = s.blkLen ∧
      t.block = toBytes s.plainValue s.cfg.rfs := by
  obtain rfl := h.eq_of_exec (exec_decrypt_odd (s.started_fsm _) hb (show 19 ≤ fetchGrant by decide) hp hq)
  exact ⟨.of_outWrite rfl rfl rfl rfl, rfl, rfl, rfl, plainState_block _⟩

/-! ## The cipher round trip (spec/43_rsa_crt.md R318) -/

/-- The key pair in a state obeys the laws 1, 3, 4 and 5 of 41_key_fsm.md R216. -/
structure State.HasKeyPair (s : State) : Prop where
  crt : s.HasCrtKey s.e.toNat
  modulus : s.keyValue .n = s.keyValue .p * s.keyValue .q
  wide : 256 ^ (s.cfg.rfs - 1) ≤ s.keyValue .n

theorem State.HasKeyPair.of_keepsOperands {s t : State} (key : s.HasKeyPair) (h : KeepsOperands s t) :
    t.HasKeyPair := by
  obtain ⟨hcrt, hmod, hwide⟩ := key
  refine ⟨?_, ?_, ?_⟩
  · simpa only [State.HasCrtKey, h.keyValue, h.e] using hcrt
  · simpa only [h.keyValue] using hmod
  · simpa only [h.keyValue, h.cfg] using hwide

/-- A string whose first byte is 0 is below `256^(L - 1)`. -/
theorem fromBytes_lt_of_head?_zero {t : Bytes} (h : t.head? = some 0#8) : fromBytes t < 256 ^ (t.length - 1) := by
  cases t with
  | nil => cases h
  | cons b t =>
    obtain rfl : b = 0#8 := by simpa using h
    simpa using fromBytes_lt t

theorem State.block_length (s : State) : s.block.length = s.cfg.rfs := readBytes_length _ _ _

theorem State.block_head? (s : State) : s.block.head? = some (s.bufByte .blk 0) := by
  obtain ⟨-, hpos, -⟩ := params_bounds s.cfg
  obtain ⟨n, hn⟩ := Nat.exists_eq_add_of_le' (show 1 ≤ s.cfg.rfs by omega)
  rw [State.block, State.bufBytes, readBytes, hn, List.range_succ_eq_map]
  rfl

/-- R318: a block whose first byte is 0 comes back, and nothing but BLK was touched. -/
theorem runs_cipher {s t u : State} (key : s.HasKeyPair) (hb : s.blkLen.toNat = s.cfg.rfs)
    (hzero : s.block.head? = some 0#8) (ht : Runs .rsaEncrypt s t) (hu : Runs .rsaDecrypt t u) :
    KeepsOperands s u ∧ t.status.err = .none ∧ u.status.err = .none ∧ u.fsm = .idle ∧ u.blkLen = s.blkLen ∧
      u.block = s.block := by
  have hlt : fromBytes s.block < s.keyValue .n := by
    have hhead := fromBytes_lt_of_head?_zero hzero
    rw [s.block_length] at hhead
    exact hhead.trans_le key.wide
  have hodd : s.keyValue .n % 2 = 1 := by rw [key.modulus, Nat.mul_mod, key.crt.odd_p, key.crt.odd_q]
  obtain ⟨hst, hterr, htblk, htblock⟩ := runs_encrypt hb hlt hodd ht
  obtain ⟨hcrt, hmod, -⟩ := key.of_keepsOperands hst
  obtain ⟨htu, hidle, huerr, hublk, hublock⟩ :=
    runs_decrypt (by rw [htblk, hst.cfg, hb]) hcrt.odd_p hcrt.odd_q hu
  have hplain : t.plainValue = fromBytes s.block := by
    refine State.plainValue_of_key hcrt ?_ ?_
    · rwa [← hmod, hst.keyValue]
    · rw [htblock, ← hmod, hst.keyValue, hst.e, hst.cfg]
  refine ⟨hst.trans htu, hterr, huerr, hidle, hublk.trans htblk, ?_⟩
  rw [hublock, hplain, hst.cfg, ← s.block_length, toBytes_fromBytes]

/-- Settles O50: `runs_cipher`, with the laws put together as `State.HasKeyPair`. -/
theorem cipherRoundTrip : Obligations.CipherRoundTrip := by
  intro s t u half p q n hp hq hne hpo hqo hmod hwide hdp hdq hc hb hzero ht hu
  have key : s.HasKeyPair := ⟨⟨hp, hq, hne, hpo, hqo, hdp, hdq, hc⟩, hmod, hwide⟩
  exact (runs_cipher key hb (s.block_head?.trans (congrArg some hzero)) ht hu).2

/-! ## The sequence of all four commands (spec/30_encoding.md R131) -/

/-- Decode's normalised block is the block itself when BLKLEN is RFS. -/
theorem State.paddedBlock_eq_block {s : State} (hb : s.blkLen.toNat = s.cfg.rfs) : s.paddedBlock = s.block := by
  rw [State.paddedBlock, hb, Nat.sub_self]
  rfl

/-- Settles O59: OAEP_ENCODE leaves a block whose first byte is 0, the cipher gives it back (`runs_cipher`), and
OAEP_DECODE finds the message in it. -/
theorem sealThenOpenRecoversTheMessage : Obligations.SealThenOpenRecoversTheMessage := by
  intro s t1 t2 t3 t4 half p q n hp hq hne hpo hqo hmod hwide hdp hdq hc hfits hl h1 h2 h3 h4
  have key : s.HasKeyPair := ⟨⟨hp, hq, hne, hpo, hqo, hdp, hdq, hc⟩, hmod, hwide⟩
  have hfits' := s.fits_message hfits
  obtain ⟨-, hcfg1, hlbl1, hlabel1, hblk1, seed, hseed, hpadded1⟩ := runs_encode hfits hl h1
  have hkeep1 := runs_encode_keepsOperands hfits hl h1
  have hb1 : t1.blkLen.toNat = t1.cfg.rfs := by rw [hblk1, hcfg1]
  have hblock1 : t1.block = encodedBlock Config.backend s.cfg s.labelBytes s.message seed := by
    rw [← State.paddedBlock_eq_block hb1, hpadded1]
  obtain ⟨-, hhead, -⟩ := encodedBlock_unmasks Config.backend s.cfg s.labelBytes s.message seed hseed hfits'
  obtain ⟨hkeep, -, -, -, hblk3, hblock3⟩ :=
    runs_cipher (key.of_keepsOperands hkeep1) hb1 (by rw [hblock1]; exact hhead) h2 h3
  have hkeep3 := hkeep1.trans hkeep
  have hb3 : t3.blkLen.toNat = t3.cfg.rfs := by rw [hblk3, hb1, hkeep.cfg]
  have hfound : decodedMessage Config.backend t3.cfg t3.labelBytes t3.paddedBlock = some s.message := by
    rw [State.paddedBlock_eq_block hb3, hblock3, hblock1, hkeep3.cfg, hkeep3.labelBytes hl]
    exact decodedMessage_encodedBlock _ _ _ _ _ hseed hfits'
  have hrfs := rfs_le s.cfg
  obtain ⟨hidle, herr, -, hmsg⟩ := runs_decode (by rw [hb3]) (by rwa [hkeep3.lblLen]) (by rw [hkeep3.cfg]; omega)
    (by rw [State.message_length]; omega) hfound h4
  exact ⟨hidle, herr, hmsg⟩

end Sys2Proof.Machine
end

section
/-! Completions (spec/60_exceptions.md): the completion step of every command and what it writes (R351, R362, R363),
the STATUS word after it (R351), the ILLEGAL word (R352), and the two pre-checks that several commands share,
BAD_OPERAND and NO_KEY (R353, R354). -/

namespace Sys2Proof.Machine

/-! ## The completion step (spec/60_exceptions.md R362) -/

/-- A command whose `exec` answers in IDLE has completed: a run still inside the command is not in IDLE. -/
theorem exec_completes {i : Instr} {s t : State} (hop : s.fsm.op = some (.cmd i)) (ht : exec i s = .next t)
    (hidle : t.fsm = .idle) : ∃ u, Completes s u ∧ t = u.withGrant 0 := by
  obtain ⟨u, hu | hu, rfl⟩ := exec_run i s t hop ht
  · have hnone : u.fsm.op = none := (op_none_iff _).2 hidle
    rw [hu.op, hop] at hnone
    cases hnone
  · exact ⟨u, hu, rfl⟩

/-- Settles O26: the completion state's fields are those of `completes_fields`. -/
theorem completionStep : Obligations.CompletionStep := by
  intro i s t hop ht hidle
  obtain ⟨u, hu, rfl⟩ := exec_completes hop ht hidle
  obtain ⟨c, hstatus, -, hscratch, hframe⟩ := completes_fields hu
  have hie : u.ie = s.ie := by rw [hframe]
  have hirq : (u.withGrant 0).irq = s.ie := by
    rw [State.irq, State.withGrant_status, hstatus, State.withGrant_ie, hie]
    rfl
  rw [State.withGrant_status, hstatus]
  refine ⟨rfl, rfl, decide_eq_true_iff, rfl, hscratch, hirq, hie, ?_⟩
  rw [hframe]
  exact ⟨rfl, rfl, rfl, rfl⟩

/-! ## What a completion writes besides STATUS (spec/60_exceptions.md R351, R363) -/

/-- OutWrites store the same after a run inside the command as before it. -/
theorem RunsOn.outWrites {s u : State} (h : RunsOn s u) (l : List (Buf × Bytes)) :
    RunsOn (s.outWrites l) (u.outWrites l) := by
  induction l generalizing s u with
  | nil => exact h
  | cons x l ih =>
    refine ih ⟨h.op, ?_⟩
    rw [h.frame]
    rfl

/-- A completion's registers and storage are those the command started with, after the OutWrites of its code. -/
theorem Completes.outputs {s t : State} (h : Completes s t) :
    ∃ l, outputsOf t.status.err l ∧ t.msgLen = (s.outWrites l).msgLen ∧ t.blkLen = (s.outWrites l).blkLen ∧
      t.mem = (s.outWrites l).mem := by
  cases h with
  | mk u l c hu hl =>
    refine ⟨l, hl, ?_⟩
    simp only [State.complete_msgLen, State.complete_blkLen, State.complete_mem]
    rw [(hu.outWrites l).frame]
    exact ⟨rfl, rfl, rfl⟩

theorem outputsOf_nothing {c : Code} {l : List (Buf × Bytes)} (h : outputsOf c l)
    (hc : c ∈ [Code.illegalCmd, .badOperand, .noKey, .keyInvalid]) : l = [] := by
  cases c with
  | illegalCmd | badOperand | noKey | keyInvalid => exact h
  | none | configError | encodingTooLong | paddingInvalid => exact absurd hc (by decide)

theorem outputsOf_emptyMessage {c : Code} {l : List (Buf × Bytes)} (h : outputsOf c l)
    (hc : c ∈ [Code.configError, .paddingInvalid]) : l = [(.msg, [])] := by
  cases c with
  | configError | paddingInvalid => exact h
  | none | illegalCmd | badOperand | noKey | encodingTooLong | keyInvalid => exact absurd hc (by decide)

/-- Settles O27: the OutWrites of a completion are those of its code (`Completes.outputs`), and the empty result
zeroes its buffer (`readByte_outWrite_nil`). -/
theorem failedCommandWritesOnlyTheEmptyResult : Obligations.FailedCommandWritesOnlyTheEmptyResult := by
  intro i s t hop ht hidle
  obtain ⟨u, hu, rfl⟩ := exec_completes hop ht hidle
  obtain ⟨l, hl, hmsg, hblk, hmem⟩ := hu.outputs
  simp only [State.withGrant_status, State.withGrant_msgLen, State.withGrant_blkLen, State.withGrant_mem]
  rw [hmsg, hblk, hmem]
  refine ⟨fun herr => ?_, fun herr => ?_, fun herr => ?_⟩
  · rw [outputsOf_nothing hl herr]
    exact ⟨rfl, rfl, fun _ => rfl⟩
  · rw [outputsOf_emptyMessage hl herr]
    exact ⟨rfl, rfl, readByte_outWrite_nil s .msg⟩
  · rw [herr] at hl
    obtain rfl : l = [(.blk, [])] := hl
    exact ⟨rfl, rfl, readByte_outWrite_nil s .blk⟩

/-! ## The STATUS word after a completion (spec/60_exceptions.md R351) -/

theorem Status.completed_word {t : Status} (h : t.ovr = false) (c : Code) :
    (t.completed c).word = 0#24 ++ c.bits ++ 0#1 ++ BitVec.ofBool (decide (c = .none)) ++ 1#1 ++ 0#1 := by
  simp only [Status.word, Status.completed, h]
  rfl

/-- Settles O11: `Status.completed_word` at each of the eight codes. -/
theorem statusValueAfterCompletion : Obligations.StatusValueAfterCompletion := by
  intro t h
  exact ⟨t.completed_word h .none, t.completed_word h .illegalCmd, t.completed_word h .badOperand,
    t.completed_word h .noKey, t.completed_word h .configError, t.completed_word h .encodingTooLong,
    t.completed_word h .paddingInvalid, t.completed_word h .keyInvalid⟩

/-! ## ILLEGAL_CMD (spec/60_exceptions.md R352) -/

/-- Settles O8: the word runs as ILLEGAL, and the first granted engine step completes it. -/
theorem illegalWordCompletesWithIllegalCmd : Obligations.IllegalWordCompletesWithIllegalCmd := by
  intro s w n rest hw hf hs
  have hop : opOfWord w = .illegal := opOfWord_eq_illegal fun i hi => hw i ((decodeWord_eq_ok_iff w i).2 hi)
  rw [hop] at hf
  exact (step_engine hs).trans (engineTurn_illegal_succ hf rfl)

/-! ## BAD_OPERAND (spec/60_exceptions.md R353) -/

section
variable (B : Backend) {s : State}

theorem expandStep_badOperand (hs : s.fsm = .mgfExpand .start)
    (h : 1024 < s.msgLen.toNat ∨ 1024 < s.outLen.toNat) : expandStep B s = s.complete .badOperand := by
  simp only [expandStep, hs]
  exact if_pos h

theorem encodeStep_badOperand (hs : s.fsm = .oaepEncode .start)
    (h : 1024 < s.msgLen.toNat ∨ 1024 < s.lblLen.toNat) : encodeStep B s = s.complete .badOperand := by
  simp only [encodeStep, hs]
  exact if_pos h

theorem decodeStep_badOperand (hs : s.fsm = .oaepDecode .start)
    (h : s.cfg.rfs < s.blkLen.toNat ∨ 1024 < s.lblLen.toNat) : decodeStep B s = s.complete .badOperand := by
  simp only [decodeStep, hs]
  exact if_pos h

theorem encryptStep_badOperand (hs : s.fsm = .rsaEncrypt .start) (h : s.blkLen.toNat ≠ s.cfg.rfs) :
    encryptStep B s = s.complete .badOperand := by
  simp only [encryptStep, hs]
  exact if_pos h

theorem decryptStep_badOperand (hs : s.fsm = .rsaDecrypt .start) (h : s.blkLen.toNat ≠ s.cfg.rfs) :
    decryptStep B s = s.complete .badOperand := by
  simp only [decryptStep, hs]
  exact if_pos h

theorem generateStep_badOperand (hs : s.fsm = .keyGenerate .start) (h : s.e.toNat % 2 = 0) :
    generateStep B s = s.complete .badOperand := by
  simp only [generateStep, hs]
  exact if_pos h

end

/-- Settles O34: the pre-check of each command completes it in its first engine step. -/
theorem badOperandCompletesAtOnce : Obligations.BadOperandCompletesAtOnce := by
  intro s n hg bad
  refine ⟨fun hs h => ?_, fun hs h => ?_, fun hs h => ?_, fun hs h => ?_, fun hs h => ?_, fun hs h => ?_⟩
  · exact exec_of_first_step .mgfExpand (by rw [hs]; rfl) (expandStep_badOperand _ hs h) rfl hg
  · exact exec_of_first_step .oaepEncode (by rw [hs]; rfl) (encodeStep_badOperand _ hs h) rfl hg
  · exact exec_of_first_step .oaepDecode (by rw [hs]; rfl) (decodeStep_badOperand _ hs h) rfl hg
  · exact exec_of_first_step .rsaEncrypt (by rw [hs]; rfl) (encryptStep_badOperand _ hs h) rfl hg
  · exact exec_of_first_step .rsaDecrypt (by rw [hs]; rfl) (decryptStep_badOperand _ hs h) rfl hg
  · exact exec_of_first_step .keyGenerate (by rw [hs]; rfl) (generateStep_badOperand _ hs h) rfl hg

/-! ## NO_KEY (spec/60_exceptions.md R354) -/

theorem allZero_bufBytes {s : State} {b : Buf} {len : Nat} (h : ∀ k, k < len → s.bufByte b k = 0#8) :
    allZero (s.bufBytes b len) = true := by
  simp only [allZero, State.bufBytes, readBytes, List.all_map, List.all_eq_true]
  exact fun k hk => beq_iff_eq.2 (h k (List.mem_range.1 hk))

theorem allZero_prime {s : State} (h : (∀ k, k < hrfs s.cfg → s.bufByte .p k = 0#8) ∨
      ∀ k, k < hrfs s.cfg → s.bufByte .q k = 0#8) :
    (allZero (s.keyBytes .p) || allZero (s.keyBytes .q)) = true :=
  Bool.or_eq_true_iff.2 (h.imp allZero_bufBytes allZero_bufBytes)

section
variable (B : Backend) {s : State}

theorem encryptStep_noKey (hs : s.fsm = .rsaEncrypt .start) (hb : s.blkLen.toNat = s.cfg.rfs)
    (hz : allZero (s.keyBytes .n) = true) : encryptStep B s = s.complete .noKey := by
  simp only [encryptStep, hs]
  rw [if_neg (not_not.2 hb), if_pos hz]

theorem decryptStep_noKey (hs : s.fsm = .rsaDecrypt .start) (hb : s.blkLen.toNat = s.cfg.rfs)
    (hz : (allZero (s.keyBytes .p) || allZero (s.keyBytes .q)) = true) :
    decryptStep B s = s.complete .noKey := by
  simp only [decryptStep, hs]
  rw [if_neg (not_not.2 hb), if_pos hz]

theorem validateStep_noKey (hs : s.fsm = .keyValidate .start)
    (hz : (allZero (s.keyBytes .p) || allZero (s.keyBytes .q)) = true) :
    validateStep B s = s.complete .noKey := by
  simp only [validateStep, hs]
  exact if_pos hz

/-- What KEY_GENERATE may complete with: its key, or BAD_OPERAND for an even E (41_key_fsm.md R203). -/
def EndsAsGenerate (t : State) : Prop :=
  t.fsm = .idle → t.status.err = .none ∨ t.status.err = .badOperand

theorem endsAsGenerate_primeFound (w : Side) : EndsAsGenerate (primeFound w s) := by cases w <;> nofun

theorem endsAsGenerate_exponentFound (w : Side) (d : Nat) : EndsAsGenerate (exponentFound w d s) := by
  cases w <;> nofun

theorem endsAsGenerate_serializeField (k : KeyField) (t : Bytes) : EndsAsGenerate (serializeField k t s) := by
  cases k with
  | n | p | q | dp | dq => nofun
  | c => exact fun _ => .inl rfl

/-- Of a running KEY_GENERATE only the start and the last conversion complete. -/
theorem endsAsGenerate_generateStep (hs : s.fsm.isIdle = false) : EndsAsGenerate (generateStep B s) := by
  by_cases hop : s.fsm.op = some (.cmd .keyGenerate)
  · rcases hf : s.fsm with _ | _ | pt | pt | pt | pt | pt | pt | pt | _ <;> simp [hf, Fsm.op] at hop
    cases pt <;> simp only [generateStep, hf]
    case start =>
      split
      · exact fun _ => .inr rfl
      · nofun
    case draw | fromBytes | increment | advance | subOne | modulus | halfSub | halve | inverse | coefficient => nofun
    case lowBits | bound | probe => split <;> nofun
    case coFactor w =>
      split
      · nofun
      · cases w <;> nofun
    case distinct =>
      split
      · nofun
      · exact endsAsGenerate_primeFound .q
    case parity w =>
      split
      · nofun
      · exact endsAsGenerate_exponentFound w _
    case adjust w => exact endsAsGenerate_exponentFound w _
    case serialize k => exact endsAsGenerate_serializeField k _
  · rw [show generateStep B s = s from commandStep_other B .keyGenerate s hop]
    intro hidle
    rw [hidle] at hs
    cases hs

end

theorem exec_keyGenerate_ends {s t : State} (hop : s.fsm.op = some (.cmd .keyGenerate))
    (ht : exec .keyGenerate s = .next t) : EndsAsGenerate t := by
  rw [exec_eq] at ht
  cases ht
  have hstart : EndsAsGenerate s := fun hidle => by rw [hidle] at hop; cases hop
  exact engineLoop_keeps (generateStep Config.backend) EndsAsGenerate
    (fun _ hu _ => endsAsGenerate_generateStep Config.backend hu) s.grant s hstart

/-- Settles O35: the key test of each command completes it in its first engine step, and no completion of
KEY_GENERATE has the code (`exec_keyGenerate_ends`). -/
theorem noKeyCompletesAtOnce : Obligations.NoKeyCompletesAtOnce := by
  refine ⟨fun s t hop ht hidle => ?_, ?_⟩
  · obtain herr | herr := exec_keyGenerate_ends hop ht hidle <;> rw [herr] <;> nofun
  intro s n hg noKey zero half
  refine ⟨fun hs hb hz => ?_, fun hs hb hz => ?_, fun hs hz => ?_⟩
  · exact exec_of_first_step .rsaEncrypt (by rw [hs]; rfl) (encryptStep_noKey _ hs hb (allZero_bufBytes hz)) rfl hg
  · exact exec_of_first_step .rsaDecrypt (by rw [hs]; rfl) (decryptStep_noKey _ hs hb (allZero_prime hz)) rfl hg
  · exact exec_of_first_step .keyValidate (by rw [hs]; rfl) (validateStep_noKey _ hs (allZero_prime hz)) rfl hg

end Sys2Proof.Machine
end

section
/-! The reset event (spec/70_reset_and_hazards.md R400 to R403) and the host that waits for BUSY = 0 where it must
(R407 to R409): OVR is set only by a write that a busy engine drops, and such a host makes none. -/

namespace Sys2Proof.Machine

/-! ## The reset event -/

/-- Only the two hardwired build parameters can read other than in `State.reset` (R401). -/
theorem State.resetEvent_readReg (s : State) {r : Reg} (hr : r ∉ [.cfgRfs, .cfgHlen]) :
    s.resetEvent.readReg r = State.reset.readReg r := by
  cases r with
  | cfgRfs | cfgHlen => exact absurd (by decide) hr
  | id | ctrl | cmd | status | msgLen | lblLen | blkLen | outLen | e => rfl

/-- Settles O4: the state after the reset event reads as `State.reset` does, which holds R54's values (O3). -/
theorem resetEventClearsTheEngine : Obligations.ResetEventClearsTheEngine := by
  intro s rest hs
  obtain ⟨hid, -, -, hctrl, hstatus, hmsgLen, hlblLen, hblkLen, houtLen, he, hbytes, -, -, hirq⟩ :=
    resetStateHoldsSpecValues
  have reads : ∀ {r v}, r ∉ [Reg.cfgRfs, .cfgHlen] → State.reset.readReg r = v →
      ({ s with sched := rest } : State).resetEvent.readReg r = v :=
    fun hr hv => (State.resetEvent_readReg _ hr).trans hv
  exact ⟨_, step_reset hs, State.resetEvent_cfg _, reads (by decide) hid, reads (by decide) hctrl,
    reads (by decide) hstatus, reads (by decide) hmsgLen, reads (by decide) hlblLen, reads (by decide) hblkLen,
    reads (by decide) houtLen, reads (by decide) he, hbytes, State.resetEvent_fsm _, State.resetEvent_scratch _,
    hirq, State.resetEvent_sched _⟩

/-- Settles O5: the reset event keeps the backends' three fields. -/
theorem resetEventLeavesTheBackends : Obligations.ResetEventLeavesTheBackends :=
  fun _ _ hs => ⟨_, step_reset hs, State.resetEvent_rngPos _, State.resetEvent_drawPos _, State.resetEvent_hashAcc _⟩

/-! ## The disciplined host -/

/-- The events to come are not the host access's own to change (20_memory.md R94). -/
theorem HostWrites.sched {s t : State} (h : HostWrites s t) : t.sched = s.sched := by
  cases h with
  | ignored | dropped | ctrl | status | command | operand | buffer => rfl

theorem hostAccess_sched {B : Backend} {x : Access} {s t : State} (h : hostAccess B x s = .next t) :
    t.sched = s.sched := by
  obtain ⟨-, r, d, rfl⟩ | ⟨-, u, hu, rfl⟩ := hostAccess_next B x s t h
  · rfl
  · exact hu.sched

/-- STATUS.OVR is write-1-to-clear: no acknowledge sets it (10_state.md R37). -/
theorem Status.ovr_of_w1c {t : Status} {w : Word} (h : (t.w1c w).ovr = true) : t.ovr = true :=
  (Bool.and_eq_true_iff.1 h).1

/-- The write that sets OVR is the one a busy engine drops. -/
theorem HostWrites.ovr_of_idle {s t : State} (h : HostWrites s t) (hb : s.status.busy = false)
    (hovr : t.status.ovr = true) : s.status.ovr = true := by
  cases h with
  | dropped hbusy => rw [hb] at hbusy; cases hbusy
  | status w => exact Status.ovr_of_w1c hovr
  | ignored | ctrl | command | operand | buffer => exact hovr

/-- The only writes that need no idle engine are those of CTRL and STATUS (70_reset_and_hazards.md R407). -/
theorem write_cases_of_not_needsIdle {x : Access} (hw : x.isWrite = true) (h : needsIdle x = false) :
    ∃ a w, x = .write32 a w ∧ (regAt a = some .ctrl ∨ regAt a = some .status) := by
  cases x with
  | read8 a | read32 a => cases hw
  | write8 a v => cases h
  | write32 a w => exact ⟨a, w, rfl, by simpa [needsIdle, or_iff_not_imp_left] using h⟩

/-- A write of CTRL or STATUS never sets OVR, whether BUSY is 1 or 0. -/
theorem hostAccess_ovr_of_not_needsIdle {B : Backend} {x : Access} {s t : State} (hw : x.isWrite = true)
    (hx : needsIdle x = false) (h : hostAccess B x s = .next t) (hovr : t.status.ovr = true) :
    s.status.ovr = true := by
  obtain ⟨a, w, rfl, hr | hr⟩ := write_cases_of_not_needsIdle hw hx
  · rw [hostAccess_writeReg B s w hr] at h
    cases h
    exact hovr
  · rw [hostAccess_writeReg B s w hr] at h
    cases h
    exact Status.ovr_of_w1c hovr

theorem disciplined_iff (s : State) (x : Access) : disciplined s x = true ↔
    x.wellFormed = true ∧ (s.status.busy = false ∨ needsIdle x = false) := by
  simp [disciplined]

/-- A read leaves OVR alone; a write finds the engine idle, or is one of CTRL or STATUS. -/
theorem hostAccess_ovr_of_disciplined {B : Backend} {x : Access} {s t : State} (hx : disciplined s x = true)
    (h : hostAccess B x s = .next t) (hovr : t.status.ovr = true) : s.status.ovr = true := by
  obtain ⟨-, r, d, rfl⟩ | ⟨hw, u, hu, rfl⟩ := hostAccess_next B x s t h
  · exact hovr
  · obtain ⟨-, hb | hneed⟩ := (disciplined_iff s x).1 hx
    · exact hu.ovr_of_idle hb hovr
    · exact hostAccess_ovr_of_not_needsIdle hw hneed h hovr

/-- Settles O19: a well-formed access is answered (`hostAccess_answers`), and a disciplined one does not set OVR. -/
theorem disciplinedHostNeverOverruns : Obligations.DisciplinedHostNeverOverruns := by
  intro s x rest hs hx
  obtain ⟨t, ht⟩ := hostAccess_answers Config.backend { s with sched := rest } ((disciplined_iff s x).1 hx).1
  exact ⟨t, (step_host hs).trans ht, hostAccess_ovr_of_disciplined (s := { s with sched := rest }) hx ht,
    hostAccess_sched ht⟩

end Sys2Proof.Machine
end
